-- ==== Sys2Proof/Word.lean ====
section
/-! DEFINITION. The widths the spec computes with (00_scope R10). -/

namespace Sys2Proof

/-- A `u8`. -/
abbrev Byte := BitVec 8

/-- A `u16`. -/
abbrev Half := BitVec 16

/-- A `u32`: a register, a bus word, a command word. -/
abbrev Word := BitVec 32

/-- An `f32`: an IEEE 754 binary32 bit pattern (R67: bit 31 the sign, bits 30 to 23 the biased
exponent, bits 22 to 0 the fraction). -/
abbrev F32 := BitVec 32

end Sys2Proof
end

