-- ==== Sys2Proof/Config.lean ====
section
/-! DEFINITION. The implementation parameters of 00_scope R7: the OPEN ones as the fields of
`Params`, the decided ones and the source's as constants. -/

namespace Sys2Proof

/-- The OPEN parameters of R7, which "the model takes as an argument": fixed for the life of the
instance (R8, R240). `State` carries them in a field that nothing writes (log 1). -/
structure Params where
  /-- BASE, the bus address of the register window, a multiple of 1024 (R60). -/
  base : Nat
  /-- SYNC0. -/
  sync0 : Byte
  /-- SYNC1. -/
  sync1 : Byte
  /-- VERSION. -/
  version : Byte
  /-- TYPE_CMD. -/
  typeCmd : Byte
  /-- TYPE_TLM. -/
  typeTlm : Byte
  /-- TYPE_PING. -/
  typePing : Byte
  /-- TYPE_PONG. -/
  typePong : Byte
  /-- TYPE_LOG. -/
  typeLog : Byte
deriving DecidableEq, Repr

/-- Test profile TP1 (R9). DESIGN CHOICE (log 1, unsafe): the parameters of `State.reset`. -/
def Params.tp1 : Params where
  base := 0x00000000
  sync0 := 0xAA
  sync1 := 0x55
  version := 0x01
  typeCmd := 0x01
  typeTlm := 0x02
  typePing := 0x03
  typePong := 0x04
  typeLog := 0x05

namespace Config

/-- HDR_LEN (R7): prefix 2, version 1, type 1, length 2. -/
def hdrLen : Nat := 6
/-- CRC_LEN (R7). -/
def crcLen : Nat := 2
/-- MIN_FRAME (R7). -/
def minFrame : Nat := hdrLen + crcLen
/-- LOG_MAX (R7), the largest Log payload. -/
def logMax : Nat := 200
/-- MAX_FRAME (R7). -/
def maxFrame : Nat := minFrame + logMax
/-- CMD_PAYLOAD_LEN (R7). -/
def cmdPayloadLen : Nat := 6
/-- TLM_PAYLOAD_LEN (R7). -/
def tlmPayloadLen : Nat := 15
/-- CRC_POLY (R7), applied least significant bit first. -/
def crcPoly : Half := 0xA001
/-- CRC_INIT (R7). -/
def crcInit : Half := 0xFFFF
/-- CRC_XOROUT (R7). -/
def crcXorOut : Half := 0x0000
/-- QSCALE (R7). -/
def qScale : Int := 32767
/-- FBUF_SIZE (R7). -/
def fbufSize : Nat := 256
/-- PBUF_SIZE (R7). -/
def pbufSize : Nat := 256
/-- RX_CAP (R7); R8 asks RX_CAP ≥ MAX_FRAME. -/
def rxCap : Nat := 256
/-- The size of the register window in bytes (R60). -/
def windowSize : Nat := 0x400

/-- The five filter coefficients of R182, by name. -/
inductive Coef where
  | b0 | b1 | b2 | a1 | a2
deriving DecidableEq, Repr

end Config

end Sys2Proof
end

