-- ==== Sys2Proof/Syntax.lean ====
section
/-! DEFINITION. The instructions: one constructor per row of spec/opcode_table.json (30_encoding
R83). A "count" field N is held as the number it stands for (R82: unsigned, neither scaled nor
sign-extended); `Instr.WellFormed` bounds it. ARG and RES operands are implicit (R82). -/

namespace Sys2Proof

/-- A command of the block. -/
inductive Instr where
  /-- NOP (R100). -/
  | nop
  /-- CRC16, N = length (R114). -/
  | crc16 (n : Nat)
  /-- BUILD_CMD, N = capacity (R115). -/
  | buildCmd (n : Nat)
  /-- BUILD_TLM, N = capacity (R116). -/
  | buildTlm (n : Nat)
  /-- BUILD_PING, N = capacity (R117). -/
  | buildPing (n : Nat)
  /-- BUILD_PONG, N = capacity (R118). -/
  | buildPong (n : Nat)
  /-- BUILD_LOG, N = capacity (R119). -/
  | buildLog (n : Nat)
  /-- PARSE_CMD, N = buffer length (R121). -/
  | parseCmd (n : Nat)
  /-- PARSE_TLM, N = buffer length (R122). -/
  | parseTlm (n : Nat)
  /-- PARSE_PING, N = buffer length (R123). -/
  | parsePing (n : Nat)
  /-- PARSE_PONG, N = buffer length (R124). -/
  | parsePong (n : Nat)
  /-- PARSE_LOG, N = buffer length (R125). -/
  | parseLog (n : Nat)
  /-- FIND_START, N = buffer length (R126). -/
  | findStart (n : Nat)
  /-- RX_PUSH, SEL = the byte (R160). -/
  | rxPush (b : Byte)
  /-- RX_POLL (R163). -/
  | rxPoll
  /-- IIR_SETPARAMS (R183). -/
  | iirSetparams
  /-- IIR_STEP (R185). -/
  | iirStep
  /-- IIR_RESET (R186). -/
  | iirReset
  /-- PID_SET_GAINS (R200). -/
  | pidSetGains
  /-- PID_SET_LIMITS (R201). -/
  | pidSetLimits
  /-- PID_STEP (R202). -/
  | pidStep
  /-- PID_RESET (R203). -/
  | pidReset
deriving DecidableEq, Repr

end Sys2Proof
end

