-- ==== Sys2Proof/WellFormed.lean ====
section
/-! DEFINITION. What an instruction and a set of parameters must satisfy to be one of the spec's. -/

namespace Sys2Proof

/-- The count field of an instruction, if it has one. -/
def Instr.count : Instr → Option Nat
  | .crc16 n | .buildCmd n | .buildTlm n | .buildPing n | .buildPong n | .buildLog n
  | .parseCmd n | .parseTlm n | .parsePing n | .parsePong n | .parseLog n | .findStart n => some n
  | .nop | .rxPush _ | .rxPoll | .iirSetparams | .iirStep | .iirReset
  | .pidSetGains | .pidSetLimits | .pidStep | .pidReset => none

/-- An instruction the encoding of R81 can hold: its count fits the 16 bits of N. -/
abbrev Instr.WellFormed (i : Instr) : Prop := i.count.all (· < 2 ^ 16) = true

/-- The constraints of R7 and R8 on the OPEN parameters: BASE is a multiple of 1024 and the five
type bytes are pairwise distinct. SYNC0 may equal SYNC1. -/
abbrev Params.WellFormed (p : Params) : Prop :=
  p.base % 1024 = 0 ∧ [p.typeCmd, p.typeTlm, p.typePing, p.typePong, p.typeLog].Nodup

end Sys2Proof
end

