-- ==== Sys2Proof/Decode.lean ====
section
/-! DEFINITION. Decoding and encoding of command words (30_encoding R80 to R85). -/

namespace Sys2Proof

/-- OP, bits [7:0] (R81). -/
def opField (w : Word) : Byte := w.extractLsb' 0 8

/-- SEL, bits [15:8] (R81). -/
def selField (w : Word) : Byte := w.extractLsb' 8 8

/-- N, bits [31:16] (R81). -/
def nField (w : Word) : Half := w.extractLsb' 16 16

/-- One row of the opcode map of R83: the opcode, whether the SEL and N columns allow a nonzero
field, and the command the row names. -/
structure OpRow where
  op : Byte
  usesSel : Bool
  usesN : Bool
  build : (sel : Byte) → (n : Nat) → Instr

/-- The opcode map (R83), in the table's order. -/
def opcodeMap : List OpRow :=
  [ ⟨0x00, false, false, fun _ _ => .nop⟩,
    ⟨0x10, false, true, fun _ n => .crc16 n⟩,
    ⟨0x11, false, true, fun _ n => .buildCmd n⟩,
    ⟨0x12, false, true, fun _ n => .buildTlm n⟩,
    ⟨0x13, false, true, fun _ n => .buildPing n⟩,
    ⟨0x14, false, true, fun _ n => .buildPong n⟩,
    ⟨0x15, false, true, fun _ n => .buildLog n⟩,
    ⟨0x18, false, true, fun _ n => .parseCmd n⟩,
    ⟨0x19, false, true, fun _ n => .parseTlm n⟩,
    ⟨0x1A, false, true, fun _ n => .parsePing n⟩,
    ⟨0x1B, false, true, fun _ n => .parsePong n⟩,
    ⟨0x1C, false, true, fun _ n => .parseLog n⟩,
    ⟨0x1D, false, true, fun _ n => .findStart n⟩,
    ⟨0x20, true, false, fun sel _ => .rxPush sel⟩,
    ⟨0x21, false, false, fun _ _ => .rxPoll⟩,
    ⟨0x30, false, false, fun _ _ => .iirSetparams⟩,
    ⟨0x31, false, false, fun _ _ => .iirStep⟩,
    ⟨0x32, false, false, fun _ _ => .iirReset⟩,
    ⟨0x40, false, false, fun _ _ => .pidSetGains⟩,
    ⟨0x41, false, false, fun _ _ => .pidSetLimits⟩,
    ⟨0x42, false, false, fun _ _ => .pidStep⟩,
    ⟨0x43, false, false, fun _ _ => .pidReset⟩ ]

/-- Why a word is an illegal encoding (R84). -/
inductive IllegalWord where
  /-- OP is not in the table of R83. -/
  | unassignedOp
  /-- SEL is nonzero where the table says "0". -/
  | selNotZero
  /-- N is nonzero where the table says "0". -/
  | nNotZero
deriving DecidableEq, Repr

/-- The decode checks of R80, in their order. -/
def decode (w : Word) : Except IllegalWord Instr :=
  match opcodeMap.find? (fun r => r.op == opField w) with
  | none => .error .unassignedOp
  | some r =>
    if selField w ≠ 0 ∧ r.usesSel = false then .error .selNotZero
    else if nField w ≠ 0 ∧ r.usesN = false then .error .nNotZero
    else .ok (r.build (selField w) (nField w).toNat)

/-- The opcode of a command (R83). -/
def opcodeOf : Instr → Byte
  | .nop => 0x00
  | .crc16 _ => 0x10
  | .buildCmd _ => 0x11
  | .buildTlm _ => 0x12
  | .buildPing _ => 0x13
  | .buildPong _ => 0x14
  | .buildLog _ => 0x15
  | .parseCmd _ => 0x18
  | .parseTlm _ => 0x19
  | .parsePing _ => 0x1A
  | .parsePong _ => 0x1B
  | .parseLog _ => 0x1C
  | .findStart _ => 0x1D
  | .rxPush _ => 0x20
  | .rxPoll => 0x21
  | .iirSetparams => 0x30
  | .iirStep => 0x31
  | .iirReset => 0x32
  | .pidSetGains => 0x40
  | .pidSetLimits => 0x41
  | .pidStep => 0x42
  | .pidReset => 0x43

/-- The SEL field of a command's word: the byte of RX_PUSH, 0 for every other (R81). -/
def selOf : Instr → Byte
  | .rxPush b => b
  | .nop | .crc16 _ | .buildCmd _ | .buildTlm _ | .buildPing _ | .buildPong _ | .buildLog _
  | .parseCmd _ | .parseTlm _ | .parsePing _ | .parsePong _ | .parseLog _ | .findStart _
  | .rxPoll | .iirSetparams | .iirStep | .iirReset
  | .pidSetGains | .pidSetLimits | .pidStep | .pidReset => 0

/-- The N field of a command's word: the count, 0 for the commands without one (R81). -/
def nOf (i : Instr) : Half := BitVec.ofNat 16 (i.count.getD 0)

/-- The word of a command: `OP | (SEL << 8) | (N << 16)` (R86). -/
def encode (i : Instr) : Word := nOf i ++ (selOf i ++ opcodeOf i)

/-- The match and mask of a command's row in spec/opcode_table.json (R83, "match/mask form"). -/
def matchMask : Instr → Word × Word
  | .nop => (0x00000000, 0xFFFFFFFF)
  | .crc16 _ => (0x00000010, 0x0000FFFF)
  | .buildCmd _ => (0x00000011, 0x0000FFFF)
  | .buildTlm _ => (0x00000012, 0x0000FFFF)
  | .buildPing _ => (0x00000013, 0x0000FFFF)
  | .buildPong _ => (0x00000014, 0x0000FFFF)
  | .buildLog _ => (0x00000015, 0x0000FFFF)
  | .parseCmd _ => (0x00000018, 0x0000FFFF)
  | .parseTlm _ => (0x00000019, 0x0000FFFF)
  | .parsePing _ => (0x0000001A, 0x0000FFFF)
  | .parsePong _ => (0x0000001B, 0x0000FFFF)
  | .parseLog _ => (0x0000001C, 0x0000FFFF)
  | .findStart _ => (0x0000001D, 0x0000FFFF)
  | .rxPush _ => (0x00000020, 0xFFFF00FF)
  | .rxPoll => (0x00000021, 0xFFFFFFFF)
  | .iirSetparams => (0x00000030, 0xFFFFFFFF)
  | .iirStep => (0x00000031, 0xFFFFFFFF)
  | .iirReset => (0x00000032, 0xFFFFFFFF)
  | .pidSetGains => (0x00000040, 0xFFFFFFFF)
  | .pidSetLimits => (0x00000041, 0xFFFFFFFF)
  | .pidStep => (0x00000042, 0xFFFFFFFF)
  | .pidReset => (0x00000043, 0xFFFFFFFF)

/-- The host's entry point: an instruction of `nbits` bits, numbered as the opcode table numbers
them. Every command is one 32-bit word (R85), which reaches the decoder from the bus transaction
itself and never from bytes in memory (R73), so there is no byte order to lay out. -/
def decodeTableWord (nbits w : Nat) : Option Instr :=
  if w % 2 ^ nbits < 2 ^ 32 then (decode (BitVec.ofNat 32 (w % 2 ^ nbits))).toOption else none

end Sys2Proof
end

