-- ==== Sys2Proof/Machine/State.lean ====
section
/-! DEFINITION. The state of the block as plain data (10_state R37, R40), the reasons a step can
stop, and reset (R41, R240). -/

namespace Sys2Proof.Machine

/-- The values of STATUS.CODE (60_exceptions R221). Codes 0x0F to 0xFF are never produced, so the
type has no others (93 I14, log 10). -/
inductive StatusCode where
  | ok
  | bufferTooSmall
  | insufficientData
  | invalidPrefix
  | invalidVersion
  | invalidType
  | invalidPayloadLength
  | crcMismatch
  | notFound
  | noFrame
  | rxFull
  | paramRejected
  | dtIgnored
  | badArg
  | illegalOp
deriving DecidableEq, Repr

/-- Four 32-bit registers: ARG0 to ARG3 (R22), RES0 to RES3 (R23). -/
structure Quad where
  w0 : Word
  w1 : Word
  w2 : Word
  w3 : Word
deriving DecidableEq, Repr

/-- The filter's registers (10_state R30 to R32). -/
structure IirUnit where
  /-- IIR_FLAGS.CONFIGURED. -/
  configured : Bool
  /-- IIR_B0. -/
  b0 : F32
  /-- IIR_B1. -/
  b1 : F32
  /-- IIR_B2. -/
  b2 : F32
  /-- IIR_A1. -/
  a1 : F32
  /-- IIR_A2. -/
  a2 : F32
  /-- IIR_X1, the previous input. -/
  x1 : F32
  /-- IIR_X2, the input before it. -/
  x2 : F32
  /-- IIR_Y1, the previous output. -/
  y1 : F32
  /-- IIR_Y2, the output before it. -/
  y2 : F32
deriving DecidableEq, Repr

/-- The PID controller's registers (10_state R33 to R36). -/
structure PidUnit where
  /-- PID_KP. -/
  kp : F32
  /-- PID_KI. -/
  ki : F32
  /-- PID_KD. -/
  kd : F32
  /-- PID_MAXI, max_integral. -/
  maxI : F32
  /-- PID_MAXO, max_output. -/
  maxO : F32
  /-- PID_INTEG, the integral. -/
  integ : F32
  /-- PID_PREV, prev_error. -/
  prev : F32
  /-- PID_FLAGS.FIRST. -/
  first : Bool
deriving DecidableEq, Repr

/-- The bytes of FBUF or PBUF: (index, byte) cells in one canonical form (`Memory.wf` in
Machine/Ops.lean). An unlisted byte reads as 0x00, its reset value (R41, log 8). -/
abbrev Memory := List Host.Cell

/-- What the host and the platform can do to the block (60_exceptions R236): a bus read, a bus
write, a reset. `addr` is a bus address and `size` the number of bytes of the access (R62, R63). -/
inductive BusEvent where
  | read (addr size : Nat)
  | write (addr size : Nat) (v : Word)
  | reset
deriving DecidableEq, Repr

/-- The machine's state. -/
structure State where
  /-- The instance's parameters (R7). Nothing writes them (R8, R240; log 1). -/
  params : Params
  /-- The MODEL's own field: the host's events not yet taken, oldest first (log 2). -/
  pending : List BusEvent
  /-- The MODEL's own field: what the last bus read returned to the host (log 3). -/
  readData : Word
  /-- CMD (R24). -/
  cmd : Word
  /-- STATUS.CODE (R25). -/
  code : StatusCode
  /-- STATUS.BUSERR (R25). -/
  busErr : Bool
  /-- ARG0 to ARG3 (R22). -/
  arg : Quad
  /-- RES0 to RES3 (R23). -/
  res : Quad
  /-- CMD_SEQ (R26). -/
  cmdSeq : Half
  /-- RX, oldest byte first; RX_COUNT is its length (R27). -/
  rx : List Byte
  /-- FBUF (R28), by index. -/
  fbuf : Memory
  /-- PBUF (R29), by index. -/
  pbuf : Memory
  /-- The filter (R30 to R32). -/
  iir : IirUnit
  /-- The PID controller (R33 to R36). -/
  pid : PidUnit
deriving DecidableEq, Repr

/-- The one way a step stops with a fault. -/
inductive Fault where
  /-- Raised by the bus (`take`) for an access to an address outside [BASE, BASE + 0x400), which
  the block does not decode (R60). Safe: the model stops where the block would be unaffected. -/
  | outsideWindow
deriving DecidableEq, Repr

/-- The one way a step is refused. -/
inductive Refusal where
  /-- Raised by `exec` for an instruction without a meaning; safe. No arm of this model does so. -/
  | notModelled (mnemonic : String)
deriving DecidableEq, Repr

/-- The outcome of a step. -/
abbrev Outcome := Host.Outcome State Fault Refusal

/-- The state after reset of an instance with parameters `p` (R41, R240, and the reset column of
R37). Every value is the spec's but those of the model's own two fields (log 2, log 3). -/
def State.resetWith (p : Params) : State where
  params := p
  pending := []
  readData := 0
  cmd := 0
  code := .ok
  busErr := false
  arg := ⟨0, 0, 0, 0⟩
  res := ⟨0, 0, 0, 0⟩
  cmdSeq := 0
  rx := []
  fbuf := []
  pbuf := []
  iir := ⟨false, 0, 0, 0, 0, 0, 0, 0, 0, 0⟩
  pid := ⟨0, 0, 0, 0, 0, 0, 0, true⟩

/-- The machine right after reset, with the parameters of test profile TP1 (DESIGN CHOICE, log 1). -/
def State.reset : State := State.resetWith Params.tp1

/-! The named updates: a meaning writes the state through these and through no other. -/

def State.setPending (s : State) (v : List BusEvent) : State := { s with pending := v }
def State.setReadData (s : State) (v : Word) : State := { s with readData := v }
def State.setCmd (s : State) (v : Word) : State := { s with cmd := v }
def State.setCode (s : State) (v : StatusCode) : State := { s with code := v }
def State.setBusErr (s : State) (v : Bool) : State := { s with busErr := v }
def State.setArg (s : State) (v : Quad) : State := { s with arg := v }
def State.setRes (s : State) (v : Quad) : State := { s with res := v }
def State.setCmdSeq (s : State) (v : Half) : State := { s with cmdSeq := v }
def State.setRx (s : State) (v : List Byte) : State := { s with rx := v }
def State.setFbuf (s : State) (v : Memory) : State := { s with fbuf := v }
def State.setPbuf (s : State) (v : Memory) : State := { s with pbuf := v }
def State.setIir (s : State) (v : IirUnit) : State := { s with iir := v }
def State.setPid (s : State) (v : PidUnit) : State := { s with pid := v }

end Sys2Proof.Machine
end

