-- ==== Sys2Proof/Machine/Flags.lean ====
section
/-! DEFINITION. Status codes and flag registers (10_state R25, R30, R36, R39; 60_exceptions R221).
The block has no arithmetic condition codes (R39). -/

namespace Sys2Proof.Machine

/-- The value of a status code (R221). -/
def codeByte : StatusCode → Byte
  | .ok => 0x00
  | .bufferTooSmall => 0x01
  | .insufficientData => 0x02
  | .invalidPrefix => 0x03
  | .invalidVersion => 0x04
  | .invalidType => 0x05
  | .invalidPayloadLength => 0x06
  | .crcMismatch => 0x07
  | .notFound => 0x08
  | .noFrame => 0x09
  | .rxFull => 0x0A
  | .paramRejected => 0x0B
  | .dtIgnored => 0x0C
  | .badArg => 0x0D
  | .illegalOp => 0x0E

/-- The error class of R221: the command changed nothing but STATUS.CODE and CMD. -/
def isErrorClass : StatusCode → Bool
  | .ok | .noFrame | .paramRejected | .dtIgnored => false
  | .bufferTooSmall | .insufficientData | .invalidPrefix | .invalidVersion | .invalidType
  | .invalidPayloadLength | .crcMismatch | .notFound | .rxFull | .badArg | .illegalOp => true

/-- STATUS as the host reads it (R25): CODE in [7:0], BUSERR in [8], the rest zero. -/
def statusWord (s : State) : Word :=
  (BitVec.ofBool s.busErr ++ codeByte s.code).setWidth 32

/-- A host write of v to STATUS (R25): clears BUSERR when v[8] = 1 and has no other effect. -/
def writeStatus (v : Word) (s : State) : State :=
  if v.getLsbD 8 then s.setBusErr false else s

/-- IIR_FLAGS as the host reads it (R30). -/
def iirFlagsWord (s : State) : Word := (BitVec.ofBool s.iir.configured).setWidth 32

/-- PID_FLAGS as the host reads it (R36). -/
def pidFlagsWord (s : State) : Word := (BitVec.ofBool s.pid.first).setWidth 32

end Sys2Proof.Machine
end

