-- ==== Sys2Proof/Machine/Float32.lean ====
section
/-! DEFINITION. The binary32 primitives of 00_scope R12 and R13, and the numeric format of
20_memory R69: round to nearest, ties to even, gradual underflow, one canonical NaN.

Every finite f32 is a whole multiple of 2^-149, so a finite value is an `Int` counted in that unit
(`units`), a comparison is one of integers, and a result is an exact fraction in that unit, rounded
once (`rne32`). The signs of zero results and the results for infinities are IEEE 754's, which R12
takes by reference (PRESUMED, log 7). -/

namespace Sys2Proof.Machine

/-- The canonical quiet NaN (R69). -/
def canonicalNaN : F32 := 0x7FC00000
/-- +0.0. -/
def posZero : F32 := 0x00000000
/-- −0.0. -/
def negZero : F32 := 0x80000000
/-- +infinity, sign excluded: the magnitude bits of an infinity. -/
def infMagnitude : Nat := 0x7F800000
/-- 1.0. -/
def f32One : F32 := 0x3F800000
/-- −1.0. -/
def f32NegOne : F32 := 0xBF800000

/-- The sign bit (R67). -/
def fsign (a : F32) : Bool := a.getLsbD 31

/-- The bits below the sign, as a number. -/
def fmagnitude (a : F32) : Nat := (a.extractLsb' 0 31).toNat

/-- `isnan(a)` (R12). -/
def isnan (a : F32) : Bool := infMagnitude < fmagnitude a

/-- a is +infinity or −infinity. -/
def isinf (a : F32) : Bool := fmagnitude a == infMagnitude

/-- `isfinite(a)` (R12). -/
def isfinite (a : F32) : Bool := fmagnitude a < infMagnitude

/-- `fneg(a)` flips bit 31 (R12). -/
def fneg (a : F32) : F32 := a ^^^ 0x80000000

/-- |a| in units of 2^-149: the fraction with its hidden bit, scaled by the exponent; a subnormal has
no hidden bit and the exponent of the lowest binade. For an infinity it is 2^277, above every
finite magnitude. -/
def unitsAbs (a : F32) : Nat :=
  let e := fmagnitude a / 2 ^ 23
  let f := fmagnitude a % 2 ^ 23
  if e = 0 then f else (2 ^ 23 + f) * 2 ^ (e - 1)

/-- The value of a, in units of 2^-149. -/
def units (a : F32) : Int := if fsign a then -(unitsAbs a : Int) else unitsAbs a

/-- One in units of 2^-149. -/
def unitsOne : Nat := 2 ^ 149

/-- The f32 with a sign and magnitude bits. -/
def mkF32 (neg : Bool) (magnitude : Nat) : F32 :=
  BitVec.ofBool neg ++ BitVec.ofNat 31 magnitude

/-- `num / den` rounded to the nearest whole number, ties to even (`den` positive). -/
def divNearestEven (num den : Nat) : Nat :=
  let q := num / den
  let r := num % den
  if den < 2 * r ∨ (2 * r = den ∧ q % 2 = 1) then q + 1 else q

/-- The magnitude bits of the binary32 value nearest to `num / den` units of 2^-149 (R12, RNE32).
The quantum is 2^e units, e = 0 for a subnormal or lowest-binade value. In the encoding the exponent
field and the fraction are one number, so a carry out of the fraction moves to the next binade, and
past the last binade to infinity. -/
def roundMagnitude (num den : Nat) : Nat :=
  let e := (num / den).log2 - 23
  min (e * 2 ^ 23 + divNearestEven num (den * 2 ^ e)) infMagnitude

/-- `RNE32(r)` (R12) for r = ± `num / den` units of 2^-149. -/
def rne32 (neg : Bool) (num den : Nat) : F32 := mkF32 neg (roundMagnitude num den)

/-- `RNE32(r)` (R12) for a whole number of units other than zero. -/
def rneUnits (u : Int) : F32 := rne32 (decide (u < 0)) u.natAbs 1

/-- `fadd(a,b)` (R12). A zero sum is −0.0 only when both operands are negative (then both are −0.0). -/
def fadd (a b : F32) : F32 :=
  if isnan a || isnan b then canonicalNaN
  else if isinf a then if isinf b && (fsign a != fsign b) then canonicalNaN else a
  else if isinf b then b
  else if units a + units b = 0 then (if fsign a && fsign b then negZero else posZero)
  else rneUnits (units a + units b)

/-- `fsub(a,b)` (R12). -/
def fsub (a b : F32) : F32 := fadd a (fneg b)

/-- `fmul(a,b)` (R12). -/
def fmul (a b : F32) : F32 :=
  let neg := fsign a != fsign b
  if isnan a || isnan b then canonicalNaN
  else if isinf a || isinf b then
    if unitsAbs a = 0 ∨ unitsAbs b = 0 then canonicalNaN else mkF32 neg infMagnitude
  else rne32 neg (unitsAbs a * unitsAbs b) unitsOne

/-- `fdiv(a,b)` (R12). -/
def fdiv (a b : F32) : F32 :=
  let neg := fsign a != fsign b
  if isnan a || isnan b then canonicalNaN
  else if isinf a then if isinf b then canonicalNaN else mkF32 neg infMagnitude
  else if isinf b then mkF32 neg 0
  else if unitsAbs b = 0 then
    if unitsAbs a = 0 then canonicalNaN else mkF32 neg infMagnitude
  else rne32 neg (unitsAbs a * unitsOne) (unitsAbs b)

/-- `flt(a,b)` (R12): false when either operand is NaN; −0.0 and +0.0 are equal. -/
def flt (a b : F32) : Bool := !isnan a && !isnan b && decide (units a < units b)

/-- `fgt(a,b)` (R12). -/
def fgt (a b : F32) : Bool := flt b a

/-- `f32(k)` (R12), the binary32 value of an integer. -/
def f32OfInt (k : Int) : F32 := rne32 (decide (k < 0)) (k.natAbs * unitsOne) 1

/-- `trunc_i(a)` (R12): the integer part of a finite a, toward zero. -/
def truncInt (a : F32) : Int := (units a).tdiv unitsOne

/-- `clampf(v, lo, hi)` (R13). -/
def clampf (v lo hi : F32) : F32 :=
  if isnan v then canonicalNaN
  else if flt v lo then lo
  else if fgt v hi then hi
  else v

end Sys2Proof.Machine
end

