-- ==== Sys2Proof/Machine/Operands.lean ====
section
/-! DEFINITION. Operand assembly (30_encoding R82), byte order (20_memory R64 to R66), and the
quantised form of throttle and steering (41_framer R113). -/

namespace Sys2Proof.Machine

/-- `v[15:0]`. -/
def loHalf (v : Word) : Half := v.extractLsb' 0 16

/-- `v[31:16]`. -/
def hiHalf (v : Word) : Half := v.extractLsb' 16 16

/-- Two packed halves, the low one first (R116, R122, D44). -/
def packHalves (lo hi : Half) : Word := hi ++ lo

/-- `le16(v)` (R111): the low byte first. -/
def le16 (v : Half) : List Byte := [v.extractLsb' 0 8, v.extractLsb' 8 8]

/-- A u16 from its low and high bytes (R66). -/
def u16Of (lo hi : Byte) : Half := hi ++ lo

/-- A bus word from four bytes, the first in bits [7:0] (R64). -/
def packWord (b0 b1 b2 b3 : Byte) : Word := b3 ++ (b2 ++ (b1 ++ b0))

/-- Byte k of a bus word, k from 0 (R64). -/
def byteOf (v : Word) (k : Nat) : Byte := v.extractLsb' (8 * k) 8

/-- Byte i of a byte sequence (0x00 past its end, where no rule reads). -/
def byteAt (b : List Byte) (i : Nat) : Byte := b.getD i 0

/-- The little-endian u16 at index i of a byte sequence. -/
def u16At (b : List Byte) (i : Nat) : Half := u16Of (byteAt b i) (byteAt b (i + 1))

/-- The f32 value of QSCALE (R113). -/
def qScaleF32 : F32 := f32OfInt 32767

/-- `Quant(v)` (R113): NaN to 0, clamp, multiply, truncate toward zero. -/
def quant (v : F32) : Half :=
  let v := if isnan v then posZero else v
  BitVec.ofInt 16 (truncInt (fmul (clampf v f32NegOne f32One) qScaleF32))

/-- `Dequant(q)` (R113), with q read as an i16. -/
def dequant (q : Half) : F32 :=
  clampf (fdiv (f32OfInt q.toInt) qScaleF32) f32NegOne f32One

/-- The telemetry status byte of BUILD_TLM: ARG0[23:16] AND 0x07 (R116). -/
def tlmStatus (arg0 : Word) : Byte := arg0.extractLsb' 16 8 &&& 0x07

end Sys2Proof.Machine
end

