-- ==== Sys2Proof/Machine/Ops.lean ====
section
/-! DEFINITION. The named operations: how a command ends, the bytes of FBUF and PBUF, the CRC, the
frame rules of 41_framer and the receive-buffer rules of 42_rx_resync that commands share. -/

namespace Sys2Proof.Machine

/-! ### How a command ends (00_scope R11)

The block has no trap (R220): what another machine would do by an exception is `raise`. -/

/-- `finish(code)` (R11): the normal end of a command. -/
def finish (c : StatusCode) (s : State) : Outcome := .next (s.setCode c)

/-- `raise Status(code)` (R11): ends the command with no further state change. -/
def raise (c : StatusCode) (s : State) : Outcome := .next (s.setCode c)

/-- Ends a command whose rule either raises a code, having written nothing to s, or has made all
its writes and finishes with OK. -/
def endWith (s : State) (r : Except StatusCode State) : Outcome :=
  match r with
  | .error c => raise c s
  | .ok t => finish .ok t

/-! ### RES registers (R23) -/

def setRes0 (v : Word) (s : State) : State := s.setRes { s.res with w0 := v }

/-! ### The bytes of a buffer (R28, R29, R41, R64) -/

/-- What an unlisted byte reads as: the reset value of every FBUF and PBUF byte (R41). -/
def blankByte : Byte := 0x00

/-- The canonical form: indices strictly rising, all inside the 256-byte buffer, and no listed byte
equal to the unlisted one. -/
abbrev Memory.wf (m : Memory) : Prop :=
  m.Pairwise (fun c d => c.1 < d.1) ∧ ∀ c ∈ m, c.1 < Config.fbufSize ∧ c.2 ≠ blankByte

/-- The byte at index a. -/
def Memory.read : Memory → Nat → Byte
  | [], _ => blankByte
  | (k, v) :: m, a => if a = k then v else Memory.read m a

/-- Drops the cell at index a. -/
def Memory.erase (m : Memory) (a : Nat) : Memory := m.filter (fun c => c.1 != a)

/-- Puts a cell in its place by index. -/
def Memory.insert : Memory → Nat → Byte → Memory
  | [], a, b => [(a, b)]
  | (k, v) :: m, a, b => if a < k then (a, b) :: (k, v) :: m else (k, v) :: Memory.insert m a b

/-- Writes byte b at index a, keeping the canonical form. -/
def Memory.write (m : Memory) (a : Nat) (b : Byte) : Memory :=
  if b = blankByte then m.erase a else (m.erase a).insert a b

/-- Writes consecutive bytes from index a on, in index order (R108). -/
def Memory.writeBytes : Memory → Nat → List Byte → Memory
  | m, _, [] => m
  | m, a, b :: bs => Memory.writeBytes (m.write a b) (a + 1) bs

/-- `B[a .. a+n)`. -/
def Memory.slice (m : Memory) (a n : Nat) : List Byte := (List.range n).map (fun i => m.read (a + i))

/-- The word at byte index a (R64). -/
def Memory.readWord (m : Memory) (a : Nat) : Word :=
  packWord (m.read a) (m.read (a + 1)) (m.read (a + 2)) (m.read (a + 3))

/-- Writes the word v at byte index a (R64). -/
def Memory.writeWord (m : Memory) (a : Nat) (v : Word) : Memory :=
  m.writeBytes a [byteOf v 0, byteOf v 1, byteOf v 2, byteOf v 3]

/-! ### The CRC (00_scope R14) -/

/-- One of the eight shifts per byte of R14. -/
def crcShift (c : Half) : Half :=
  if c.getLsbD 0 then (c >>> 1) ^^^ Config.crcPoly else c >>> 1

/-- `n` shifts. -/
def crcShifts : Nat → Half → Half
  | 0, c => c
  | n + 1, c => crcShifts n (crcShift c)

/-- The CRC register after one more byte. -/
def crcByte (c : Half) (b : Byte) : Half := crcShifts 8 (c ^^^ b.setWidth 16)

/-- `crc16(s)` (R14). -/
def crc16 (s : List Byte) : Half := s.foldl crcByte Config.crcInit ^^^ Config.crcXorOut

/-! ### Frames (41_framer R110 to R112, R120, R126) -/

/-- The message kinds (R15). -/
inductive Kind where
  | cmd | tlm | ping | pong | log
deriving DecidableEq, Repr

/-- TYPE_<kind> (R7). -/
def typeByte (p : Params) : Kind → Byte
  | .cmd => p.typeCmd
  | .tlm => p.typeTlm
  | .ping => p.typePing
  | .pong => p.typePong
  | .log => p.typeLog

/-- `Kind(t)` (R111): the kind whose TYPE_ parameter equals t. -/
def kindOfType (p : Params) (t : Byte) : Option Kind :=
  [Kind.cmd, .tlm, .ping, .pong, .log].find? (fun k => typeByte p k == t)

/-- `LenOK(kind, L)` (R111). -/
def lenOK : Kind → Nat → Bool
  | .cmd, len => len == Config.cmdPayloadLen
  | .tlm, len => len == Config.tlmPayloadLen
  | .ping, len => len == 0
  | .pong, len => len == 0
  | .log, len => len ≤ Config.logMax

/-- The bytes the CRC covers (R110): version, type, length, payload. -/
def crcSpan (p : Params) (t : Byte) (payload : List Byte) : List Byte :=
  [p.version, t] ++ le16 (BitVec.ofNat 16 payload.length) ++ payload

/-- The frame with type byte t and a payload (R110). -/
def frameBytes (p : Params) (t : Byte) (payload : List Byte) : List Byte :=
  [p.sync0, p.sync1] ++ crcSpan p t payload ++ le16 (crc16 (crcSpan p t payload))

/-- `BuildFrame(t, P, n)` (R112): the code it raises, or the state with FBUF and RES0 written. -/
def buildFrame (t : Byte) (payload : List Byte) (n : Nat) (s : State) : Except StatusCode State :=
  if n > Config.fbufSize then .error .badArg
  else if n < Config.minFrame + payload.length then .error .bufferTooSmall
  else .ok (setRes0 (BitVec.ofNat 32 (Config.minFrame + payload.length))
    (s.setFbuf (s.fbuf.writeBytes 0 (frameBytes s.params t payload))))

/-- The kind stage 4 of R120 settles on: the expected one if its type byte matches, or any known
one (`none` = any) that owns the type byte. -/
def acceptedKind (p : Params) (expect : Option Kind) (t : Byte) : Option Kind :=
  match expect with
  | some k => if t = typeByte p k then some k else none
  | none => kindOfType p t

/-- `ParseCore(b, expect)` (R120), stages 1 to 8 in order: the code it raises, or (kind, L). -/
def parseCore (p : Params) (b : List Byte) (expect : Option Kind) :
    Except StatusCode (Kind × Nat) :=
  if b.length < Config.minFrame then .error .insufficientData
  else if byteAt b 0 ≠ p.sync0 ∨ byteAt b 1 ≠ p.sync1 then .error .invalidPrefix
  else if byteAt b 2 ≠ p.version then .error .invalidVersion
  else match acceptedKind p expect (byteAt b 3) with
    | none => .error .invalidType
    | some kind =>
      let len := (u16At b 4).toNat
      if lenOK kind len = false then .error .invalidPayloadLength
      else if b.length < Config.minFrame + len then .error .insufficientData
      else if u16At b (6 + len) ≠ crc16 ((b.drop 2).take (4 + len)) then .error .crcMismatch
      else .ok (kind, len)

/-- The checks every PARSE_* command starts with (R121 to R125): N against FBUF_SIZE, then ParseCore
on FBUF[0 .. n). -/
def parseFbuf (k : Kind) (n : Nat) (s : State) : Except StatusCode Nat :=
  if n > Config.fbufSize then .error .badArg
  else (parseCore s.params (s.fbuf.slice 0 n) (some k)).map Prod.snd

/-- `FindStart(b)` (R126): the smallest index of a whole sync prefix. -/
def findPrefix (p : Params) : List Byte → Option Nat
  | x :: y :: rest =>
    if x = p.sync0 ∧ y = p.sync1 then some 0 else (findPrefix p (y :: rest)).map (· + 1)
  | _ => none

/-! ### The receive buffer (42_rx_resync R161, R163) -/

/-- `Discard(k)` (R161): RX without its k oldest bytes. -/
def discard (k : Nat) (rx : List Byte) : List Byte := rx.drop k

/-- What the resynchronisation loop ends with: the RX it leaves, and the frame and type byte it
delivers, if it delivers one. -/
structure PollEnd where
  rx : List Byte
  frame : Option (List Byte × Byte)
deriving DecidableEq, Repr

/-- The loop of RX_POLL (R163), with the iterations it may still run. R166 bounds them by
RX_COUNT + 1; a loop given that many never runs out (log 9). -/
def pollLoop (p : Params) : Nat → List Byte → PollEnd
  | 0, rx => ⟨rx, none⟩
  | fuel + 1, rx =>
    match findPrefix p rx with
    | none => ⟨if rx.length = Config.rxCap then discard rx.length rx else rx, none⟩
    | some k =>
      match parseCore p (discard k rx) none with
      | .error .insufficientData => ⟨discard k rx, none⟩
      | .error _ => pollLoop p fuel (discard 1 (discard k rx))
      | .ok (_, len) =>
        ⟨discard (Config.minFrame + len) (discard k rx),
          some ((discard k rx).take (Config.minFrame + len), byteAt (discard k rx) 3)⟩

end Sys2Proof.Machine
end

