-- ==== Sys2Proof/Machine/Bus.lean ====
section
/-! DEFINITION. The register window as the host sees it (10_state R37, R38; 20_memory R60 to R68),
and how the block takes the host's next event (60_exceptions R236). -/

namespace Sys2Proof.Machine

/-- The registers of the map (R37). -/
inductive Reg where
  | cmd | status
  | arg0 | arg1 | arg2 | arg3
  | res0 | res1 | res2 | res3
  | frSeq | rxCount
  | iirFlags | iirB0 | iirB1 | iirB2 | iirA1 | iirA2 | iirX1 | iirX2 | iirY1 | iirY2
  | pidKp | pidKi | pidKd | pidMaxI | pidMaxO | pidInteg | pidPrev | pidFlags
deriving DecidableEq, Repr

/-- The byte offset of a register (R37). -/
def regOffset : Reg → Nat
  | .cmd => 0x000
  | .status => 0x004
  | .arg0 => 0x008
  | .arg1 => 0x00C
  | .arg2 => 0x010
  | .arg3 => 0x014
  | .res0 => 0x018
  | .res1 => 0x01C
  | .res2 => 0x020
  | .res3 => 0x024
  | .frSeq => 0x028
  | .rxCount => 0x02C
  | .iirFlags => 0x030
  | .iirB0 => 0x034
  | .iirB1 => 0x038
  | .iirB2 => 0x03C
  | .iirA1 => 0x040
  | .iirA2 => 0x044
  | .iirX1 => 0x048
  | .iirX2 => 0x04C
  | .iirY1 => 0x050
  | .iirY2 => 0x054
  | .pidKp => 0x058
  | .pidKi => 0x05C
  | .pidKd => 0x060
  | .pidMaxI => 0x064
  | .pidMaxO => 0x068
  | .pidInteg => 0x06C
  | .pidPrev => 0x070
  | .pidFlags => 0x074

/-- The registers in the order of their offsets. -/
def allRegs : List Reg :=
  [.cmd, .status, .arg0, .arg1, .arg2, .arg3, .res0, .res1, .res2, .res3, .frSeq, .rxCount,
   .iirFlags, .iirB0, .iirB1, .iirB2, .iirA1, .iirA2, .iirX1, .iirX2, .iirY1, .iirY2,
   .pidKp, .pidKi, .pidKd, .pidMaxI, .pidMaxO, .pidInteg, .pidPrev, .pidFlags]

/-- The register at an offset, if there is one. -/
def regAt (off : Nat) : Option Reg := allRegs.find? (fun r => regOffset r == off)

/-- What a host read of a register returns (R22 to R36). -/
def readReg (r : Reg) (s : State) : Word :=
  match r with
  | .cmd => s.cmd
  | .status => statusWord s
  | .arg0 => s.arg.w0
  | .arg1 => s.arg.w1
  | .arg2 => s.arg.w2
  | .arg3 => s.arg.w3
  | .res0 => s.res.w0
  | .res1 => s.res.w1
  | .res2 => s.res.w2
  | .res3 => s.res.w3
  | .frSeq => s.cmdSeq.setWidth 32
  | .rxCount => (BitVec.ofNat 9 s.rx.length).setWidth 32
  | .iirFlags => iirFlagsWord s
  | .iirB0 => s.iir.b0
  | .iirB1 => s.iir.b1
  | .iirB2 => s.iir.b2
  | .iirA1 => s.iir.a1
  | .iirA2 => s.iir.a2
  | .iirX1 => s.iir.x1
  | .iirX2 => s.iir.x2
  | .iirY1 => s.iir.y1
  | .iirY2 => s.iir.y2
  | .pidKp => s.pid.kp
  | .pidKi => s.pid.ki
  | .pidKd => s.pid.kd
  | .pidMaxI => s.pid.maxI
  | .pidMaxO => s.pid.maxO
  | .pidInteg => s.pid.integ
  | .pidPrev => s.pid.prev
  | .pidFlags => pidFlagsWord s

/-- The register effect of a host write of v (R22, R24, R25): a write to a read-only register is
ignored (R38). The command that a write to CMD also runs is the step's (R80). -/
def writeReg (r : Reg) (v : Word) (s : State) : State :=
  match r with
  | .cmd => s.setCmd v
  | .status => writeStatus v s
  | .arg0 => s.setArg { s.arg with w0 := v }
  | .arg1 => s.setArg { s.arg with w1 := v }
  | .arg2 => s.setArg { s.arg with w2 := v }
  | .arg3 => s.setArg { s.arg with w3 := v }
  | .res0 | .res1 | .res2 | .res3 | .frSeq | .rxCount
  | .iirFlags | .iirB0 | .iirB1 | .iirB2 | .iirA1 | .iirA2 | .iirX1 | .iirX2 | .iirY1 | .iirY2
  | .pidKp | .pidKi | .pidKd | .pidMaxI | .pidMaxO | .pidInteg | .pidPrev | .pidFlags => s

/-- Byte j of the RXBUF window: RX[j], or 0x00 at and past RX_COUNT (R65). -/
def rxByte (s : State) (j : Nat) : Byte := byteAt s.rx j

/-- `MemRead(off, 4)` (R37, R38, R64, R65) at an aligned offset of the window. -/
def memRead (off : Nat) (s : State) : Word :=
  if off < 0x100 then
    match regAt off with
    | some r => readReg r s
    | none => 0
  else if off < 0x200 then s.fbuf.readWord (off - 0x100)
  else if off < 0x300 then s.pbuf.readWord (off - 0x200)
  else
    let j := off - 0x300
    packWord (rxByte s j) (rxByte s (j + 1)) (rxByte s (j + 2)) (rxByte s (j + 3))

/-- The stores of `MemWrite(off, 4, v)` (R37, R38, R64) at an aligned offset of the window. -/
def memWrite (off : Nat) (v : Word) (s : State) : State :=
  if off < 0x100 then
    match regAt off with
    | some r => writeReg r v s
    | none => s
  else if off < 0x200 then s.setFbuf (s.fbuf.writeWord (off - 0x100) v)
  else if off < 0x300 then s.setPbuf (s.pbuf.writeWord (off - 0x200) v)
  else s

/-- An unsupported access (R63): its size is not 4, or its offset is not a multiple of 4. -/
def unsupported (off size : Nat) : Bool := size != 4 || off % 4 != 0

/-- The offset a bus address targets, if the block decodes it (R60). -/
def windowOffset (p : Params) (addr : Nat) : Option Nat :=
  if p.base ≤ addr ∧ addr < p.base + Config.windowSize then some (addr - p.base) else none

/-- A bus read (R62, R63, R68): its answer goes to the host, and nothing else changes but BUSERR. -/
def busRead (off size : Nat) (s : State) : State :=
  if unsupported off size then (s.setBusErr true).setReadData 0
  else s.setReadData (memRead off s)

/-- The reset event (R240): every piece of state takes its reset value and the parameters stay. The
host's transactions still to come, and the last answer it holds, are the host's (log 2, log 3). -/
def resetEvent (s : State) : State :=
  ((State.resetWith s.params).setPending s.pending).setReadData s.readData

/-- What taking the next event comes to. -/
inductive Taken where
  /-- The event is done. -/
  | done (s : State)
  /-- A write of w to CMD: CMD holds w already, and the command is to run (R80). -/
  | command (w : Word) (s : State)
  /-- The access is outside the window (R60). -/
  | outside
deriving DecidableEq, Repr

/-- A bus write (R62, R63, R68, R80). -/
def busWrite (off size : Nat) (v : Word) (s : State) : Taken :=
  if unsupported off size then .done (s.setBusErr true)
  else if off = regOffset .cmd then .command v (memWrite off v s)
  else .done (memWrite off v s)

/-- Takes the host's next event (R71: one at a time, in order). With none pending the block is idle
(R242). -/
def take (s : State) : Taken :=
  match s.pending with
  | [] => .done s
  | .reset :: rest => .done (resetEvent (s.setPending rest))
  | .read addr size :: rest =>
    match windowOffset s.params addr with
    | none => .outside
    | some off => .done (busRead off size (s.setPending rest))
  | .write addr size v :: rest =>
    match windowOffset s.params addr with
    | none => .outside
    | some off => busWrite off size v (s.setPending rest)

end Sys2Proof.Machine
end

