-- ==== Sys2Proof/Machine/Control.lean ====
section
/-! DEFINITION. The control command (40_control R100). -/

namespace Sys2Proof.Machine

/-- NOP (R100). -/
def execNop (s : State) : Outcome := finish .ok s

end Sys2Proof.Machine
end

