-- ==== Sys2Proof/Machine/Framer.lean ====
section
/-! DEFINITION. The framer commands (41_framer R114 to R126). -/

namespace Sys2Proof.Machine

/-- CRC16 (R114). The sum s + n is taken without wrap (R104). -/
def execCrc16 (n : Nat) (s : State) : Outcome :=
  let start := s.arg.w0.toNat
  if start + n > Config.fbufSize then raise .badArg s
  else finish .ok (setRes0 ((crc16 (s.fbuf.slice start n)).setWidth 32) s)

/-- The payload of BUILD_CMD: seq, throttle, steering (R111, R115). -/
def cmdPayload (seq : Half) (throttle steering : F32) : List Byte :=
  le16 seq ++ le16 (quant throttle) ++ le16 (quant steering)

/-- BUILD_CMD (R115). -/
def execBuildCmd (n : Nat) (s : State) : Outcome :=
  endWith s ((buildFrame s.params.typeCmd (cmdPayload s.cmdSeq s.arg.w0 s.arg.w1) n s).map
    (fun t => t.setCmdSeq (s.cmdSeq + 1)))

/-- The payload of BUILD_TLM: seq, status, three accelerometer and three gyroscope axes (R111, R116). -/
def tlmPayload (a : Quad) : List Byte :=
  le16 (loHalf a.w0) ++ [tlmStatus a.w0] ++
    le16 (loHalf a.w1) ++ le16 (hiHalf a.w1) ++ le16 (loHalf a.w2) ++
    le16 (hiHalf a.w2) ++ le16 (loHalf a.w3) ++ le16 (hiHalf a.w3)

/-- BUILD_TLM (R116). -/
def execBuildTlm (n : Nat) (s : State) : Outcome :=
  endWith s (buildFrame s.params.typeTlm (tlmPayload s.arg) n s)

/-- BUILD_PING (R117). -/
def execBuildPing (n : Nat) (s : State) : Outcome :=
  endWith s (buildFrame s.params.typePing [] n s)

/-- BUILD_PONG (R118). -/
def execBuildPong (n : Nat) (s : State) : Outcome :=
  endWith s (buildFrame s.params.typePong [] n s)

/-- The payload of BUILD_LOG: PBUF[0 .. L) with L = min(ARG0, LOG_MAX) (R119). -/
def logPayload (s : State) : List Byte := s.pbuf.slice 0 (min s.arg.w0.toNat Config.logMax)

/-- BUILD_LOG (R119). -/
def execBuildLog (n : Nat) (s : State) : Outcome :=
  endWith s (buildFrame s.params.typeLog (logPayload s) n s)

/-- The u16 at payload index j of the frame in FBUF (R122). -/
def payloadHalf (m : Memory) (j : Nat) : Half := u16Of (m.read (6 + j)) (m.read (7 + j))

/-- PARSE_CMD (R121). -/
def execParseCmd (n : Nat) (s : State) : Outcome :=
  endWith s ((parseFbuf .cmd n s).map (fun _ =>
    s.setRes { s.res with
      w0 := (payloadHalf s.fbuf 0).setWidth 32
      w1 := dequant (payloadHalf s.fbuf 2)
      w2 := dequant (payloadHalf s.fbuf 4) }))

/-- PARSE_TLM (R122). The status byte is returned raw. -/
def execParseTlm (n : Nat) (s : State) : Outcome :=
  endWith s ((parseFbuf .tlm n s).map (fun _ =>
    s.setRes {
      w0 := packHalves (payloadHalf s.fbuf 0) ((s.fbuf.read 8).setWidth 16)
      w1 := packHalves (payloadHalf s.fbuf 3) (payloadHalf s.fbuf 5)
      w2 := packHalves (payloadHalf s.fbuf 7) (payloadHalf s.fbuf 9)
      w3 := packHalves (payloadHalf s.fbuf 11) (payloadHalf s.fbuf 13) }))

/-- PARSE_PING (R123). -/
def execParsePing (n : Nat) (s : State) : Outcome :=
  endWith s ((parseFbuf .ping n s).map (fun _ => s))

/-- PARSE_PONG (R124). -/
def execParsePong (n : Nat) (s : State) : Outcome :=
  endWith s ((parseFbuf .pong n s).map (fun _ => s))

/-- PARSE_LOG (R125). -/
def execParseLog (n : Nat) (s : State) : Outcome :=
  endWith s ((parseFbuf .log n s).map (fun len => setRes0 (BitVec.ofNat 32 len) s))

/-- FIND_START (R126). -/
def execFindStart (n : Nat) (s : State) : Outcome :=
  if n > Config.fbufSize then raise .badArg s
  else match findPrefix s.params (s.fbuf.slice 0 n) with
    | none => raise .notFound s
    | some i => finish .ok (setRes0 (BitVec.ofNat 32 i) s)

end Sys2Proof.Machine
end

