-- ==== Sys2Proof/Machine/Coefs.lean ====
section
/-! DEFINITION. `Valid` and `Coefs` of 43_iir R181 and R182.

R182 fixes each coefficient as the correctly rounded binary32 value of an exact real number and
leaves the method open (93 I11). With θ = 2π·fc/fs, multiplying numerator and denominator of R182's
quotients by 2·cos²(θ/2) gives, without tan,

  B0 = B2 = (1 − cos θ) / (2 + √2·sin θ)       B1 = 2·(1 − cos θ) / (2 + √2·sin θ)
  A1 = −4·cos θ / (2 + √2·sin θ)               A2 = (2 − √2·sin θ) / (2 + √2·sin θ)

An attempt evaluates these in whole numbers scaled by a power of two, with partial sums of the series
of π, sin and cos and a convergent of √2, so that each exact coefficient lies in a narrow enclosure,
and rounds both ends of the enclosure. Where the two ends round alike that is R182's coefficient;
where they do not, the next attempt has twice as many bits. An exact coefficient other than the zero
A1 of fs = 4·fc is never on a rounding boundary, and its distance from one has a bound that
`maxAttempts` attempts pass (Laws/Search.lean), so the search always ends in such an attempt (log 6). -/

namespace Sys2Proof.Machine

open Config (Coef)

/-- The number of attempts. -/
def maxAttempts : Nat := 300

/-- The scale of attempt k's fixed-point numbers is 2^(scaleBits k). -/
def scaleBits (k : Nat) : Nat := 512 * 2 ^ k

/-- In attempt k, each exact coefficient lies within 2^-(enclosureBits k) of the evaluated fraction. -/
def enclosureBits (k : Nat) : Nat := scaleBits k - 22

/-- The exact value, as a numerator and a positive denominator, of
`1/k − 1/q² · (1/(k+2) − 1/q² · ( … ))` with n terms: q·arctan(1/q) for k = 1, but for the terms
left out. -/
def arctanInv (q : Nat) : Nat → Nat → Int × Nat
  | 0, _ => (0, 1)
  | n + 1, k =>
    let r := arctanInv q n (k + 2)
    (q ^ 2 * r.2 - k * r.1, k * q ^ 2 * r.2)

/-- π, scaled: `16·arctan(1/5) − 4·arctan(1/239)` (Machin). -/
def piScaled (k : Nat) : Int :=
  let x := arctanInv 5 (120 * 2 ^ k) 1
  let y := arctanInv 239 (40 * 2 ^ k) 1
  (16 * 239 * x.1 * y.2 - 4 * 5 * y.1 * x.2) * 2 ^ scaleBits k / (5 * 239 * x.2 * y.2)

/-- A numerator and a denominator of √2, with `num² = 2·den² + 1`: each step doubles the digits. -/
def sqrtTwoFraction : Nat → Nat × Nat
  | 0 => (3, 2)
  | n + 1 =>
    let r := sqrtTwoFraction n
    (r.1 ^ 2 + 2 * r.2 ^ 2, 2 * r.1 * r.2)

/-- √2, scaled. -/
def sqrtTwoScaled (k : Nat) : Int :=
  let r := sqrtTwoFraction (9 + k)
  r.1 * 2 ^ scaleBits k / r.2

/-- `Valid(fc, fs)` (R181); the last comparison is exact. -/
def validParams (fc fs : F32) : Bool :=
  isfinite fc && isfinite fs && fgt fc posZero && fgt fs posZero &&
    decide (2 * units fc < units fs)

/-- θ = 2π·fc/fs, scaled. -/
def thetaScaled (k : Nat) (fc fs : F32) : Int := 2 * piScaled k * unitsAbs fc / unitsAbs fs

/-- The exact value, as a numerator and a positive denominator, of
`1 − x²/((i+1)(i+2)) · (1 − x²/((i+3)(i+4)) · ( … ))` with n factors, where x is t scaled down by
2^bits: cos x for i = 0 and sin x / x for i = 1, but for the terms left out. -/
def taylor (bits : Nat) (t : Int) : Nat → Nat → Int × Nat
  | 0, _ => (1, 1)
  | n + 1, i =>
    let r := taylor bits t n (i + 2)
    let d := (i + 1) * (i + 2) * 2 ^ (2 * bits) * r.2
    (d - t ^ 2 * r.1, d)

/-- cos of a scaled angle, scaled. -/
def cosScaled (k : Nat) (t : Int) : Int :=
  let r := taylor (scaleBits k) t (80 * 2 ^ k) 0
  r.1 * 2 ^ scaleBits k / r.2

/-- sin of a scaled angle, scaled. -/
def sinScaled (k : Nat) (t : Int) : Int :=
  let r := taylor (scaleBits k) t (80 * 2 ^ k) 1
  t * r.1 / r.2

/-- √2·sin of a scaled angle, scaled. -/
def sqrtTwoSinScaled (k : Nat) (t : Int) : Int := sqrtTwoScaled k * sinScaled k t / 2 ^ scaleBits k

/-- The scaled numerator of a coefficient. -/
def coefNum (c : Coef) (k : Nat) (t : Int) : Int :=
  match c with
  | .b0 => 2 ^ scaleBits k - cosScaled k t
  | .b1 => 2 * (2 ^ scaleBits k - cosScaled k t)
  | .b2 => 2 ^ scaleBits k - cosScaled k t
  | .a1 => -4 * cosScaled k t
  | .a2 => 2 * 2 ^ scaleBits k - sqrtTwoSinScaled k t

/-- The scaled denominator of every coefficient. -/
def coefDen (k : Nat) (t : Int) : Nat := (2 * 2 ^ scaleBits k + sqrtTwoSinScaled k t).toNat

/-- `RNE32` of the real fraction `num / den`. -/
def roundFraction (num : Int) (den : Nat) : F32 :=
  rne32 (decide (num < 0)) (num.natAbs * unitsOne) den

/-- Rounds the lower end of attempt k's enclosure of a coefficient. -/
def coefLower (c : Coef) (k : Nat) (t : Int) : F32 :=
  roundFraction (coefNum c k t * 2 ^ enclosureBits k - coefDen k t) (coefDen k t * 2 ^ enclosureBits k)

/-- Rounds the upper end of attempt k's enclosure of a coefficient. -/
def coefUpper (c : Coef) (k : Nat) (t : Int) : F32 :=
  roundFraction (coefNum c k t * 2 ^ enclosureBits k + coefDen k t) (coefDen k t * 2 ^ enclosureBits k)

/-- The first of n attempts from the k-th on whose two ends round alike. -/
def coefSearch (c : Coef) (fc fs : F32) : Nat → Nat → F32
  | 0, k => coefLower c k (thetaScaled k fc fs)
  | n + 1, k =>
    if coefLower c k (thetaScaled k fc fs) = coefUpper c k (thetaScaled k fc fs) then
      coefLower c k (thetaScaled k fc fs)
    else coefSearch c fc fs n (k + 1)

/-- One coefficient of `Coefs(fc, fs)` (R182). A1 is exactly 0 when fs = 4·fc (K = 1), and RNE32 of
0 is +0.0 (log 6). -/
def coef (c : Coef) (fc fs : F32) : F32 :=
  if c = .a1 ∧ 4 * unitsAbs fc = unitsAbs fs then posZero else coefSearch c fc fs maxAttempts 0

end Sys2Proof.Machine
end

