-- ==== Sys2Proof/Machine/Iir.lean ====
section
/-! DEFINITION. The filter commands (43_iir R183 to R186). -/

namespace Sys2Proof.Machine

/-- The filter with the coefficients of `Coefs(fc, fs)` (R182), configured (R183). The history is
never changed (D26). -/
def configure (fc fs : F32) (u : IirUnit) : IirUnit :=
  { u with
    configured := true
    b0 := coef .b0 fc fs
    b1 := coef .b1 fc fs
    b2 := coef .b2 fc fs
    a1 := coef .a1 fc fs
    a2 := coef .a2 fc fs }

/-- IIR_SETPARAMS (R183). -/
def execIirSetparams (s : State) : Outcome :=
  if validParams s.arg.w0 s.arg.w1 then
    finish .ok (s.setIir (configure s.arg.w0 s.arg.w1 s.iir))
  else finish .paramRejected (s.setIir { s.iir with configured := false })

/-- `Biquad(x)` (R184), in its fixed order. -/
def biquad (u : IirUnit) (x : F32) : F32 :=
  let t := fmul u.b0 x
  let t := fadd t (fmul u.b1 u.x1)
  let t := fadd t (fmul u.b2 u.x2)
  let t := fsub t (fmul u.a1 u.y1)
  fsub t (fmul u.a2 u.y2)

/-- The output of IIR_STEP for input x (R185): x itself, bit for bit, while unconfigured. -/
def filterOutput (u : IirUnit) (x : F32) : F32 := if u.configured then biquad u x else x

/-- Both histories shifted, with x the newest input and y the newest output (R185). -/
def shiftHistory (u : IirUnit) (x y : F32) : IirUnit :=
  { u with x1 := x, x2 := u.x1, y1 := y, y2 := u.y1 }

/-- IIR_STEP (R185). -/
def execIirStep (s : State) : Outcome :=
  let x := s.arg.w0
  let y := filterOutput s.iir x
  finish .ok (setRes0 y (s.setIir (shiftHistory s.iir x y)))

/-- IIR_RESET (R186). -/
def execIirReset (s : State) : Outcome :=
  finish .ok (s.setIir { s.iir with x1 := posZero, x2 := posZero, y1 := posZero, y2 := posZero })

end Sys2Proof.Machine
end

