-- ==== Sys2Proof/Machine/Pid.lean ====
section
/-! DEFINITION. The PID controller commands (44_pid R200 to R203). -/

namespace Sys2Proof.Machine

/-- PID_SET_GAINS (R200). -/
def execPidSetGains (s : State) : Outcome :=
  if isfinite s.arg.w0 && isfinite s.arg.w1 && isfinite s.arg.w2 then
    finish .ok (s.setPid { s.pid with kp := s.arg.w0, ki := s.arg.w1, kd := s.arg.w2 })
  else raise .badArg s

/-- A limit R201 refuses: NaN or negative. −0.0 is not negative. -/
def badLimit (m : F32) : Bool := isnan m || flt m posZero

/-- The limit R201 stores: −0.0 becomes +0.0. -/
def storedLimit (m : F32) : F32 := if m = negZero then posZero else m

/-- PID_SET_LIMITS (R201). -/
def execPidSetLimits (s : State) : Outcome :=
  if badLimit s.arg.w0 || badLimit s.arg.w1 then raise .badArg s
  else finish .ok (s.setPid
    { s.pid with maxI := storedLimit s.arg.w0, maxO := storedLimit s.arg.w1 })

/-- The integral of PID_STEP, clamped before use (R202). -/
def pidIntegral (u : PidUnit) (e dt : F32) : F32 :=
  clampf (fadd u.integ (fmul e dt)) (fneg u.maxI) u.maxI

/-- The derivative of PID_STEP, +0.0 on the first step (R202). -/
def pidDerivative (u : PidUnit) (e dt : F32) : F32 :=
  if u.first then posZero else fdiv (fsub e u.prev) dt

/-- The output of PID_STEP (R202). -/
def pidOutput (u : PidUnit) (e dt : F32) : F32 :=
  clampf
    (fadd (fadd (fmul u.kp e) (fmul u.ki (pidIntegral u e dt))) (fmul u.kd (pidDerivative u e dt)))
    (fneg u.maxO) u.maxO

/-- PID_STEP (R202). A dt that is not > 0, NaN included, leaves all but RES0 unchanged (D29).
DESIGN CHOICE (log 17, unsafe): every OK step stores its e in PID_PREV, as the pseudocode has it, so a
finite e replaces a NaN there, where R202's corner case says that it stays until PID_RESET. The integral
keeps the NaN, so every later output is NaN until then (R254). Zero times infinity is NaN in every product,
with the gains of reset too (R202's corner case, against R243's summary: log 17). -/
def execPidStep (s : State) : Outcome :=
  let e := s.arg.w0
  let dt := s.arg.w1
  if fgt dt posZero then
    finish .ok (setRes0 (pidOutput s.pid e dt)
      (s.setPid { s.pid with integ := pidIntegral s.pid e dt, prev := e, first := false }))
  else finish .dtIgnored (setRes0 posZero s)

/-- PID_RESET (R203). -/
def execPidReset (s : State) : Outcome :=
  finish .ok (s.setPid { s.pid with integ := posZero, prev := posZero, first := true })

end Sys2Proof.Machine
end

