-- ==== Sys2Proof/Machine/Rx.lean ====
section
/-! DEFINITION. The receive commands (42_rx_resync R160, R163). -/

namespace Sys2Proof.Machine

/-- RX_PUSH (R160). -/
def execRxPush (b : Byte) (s : State) : Outcome :=
  if s.rx.length = Config.rxCap then raise .rxFull s
  else finish .ok (s.setRx (s.rx ++ [b]))

/-- The outcome of RX_POLL's loop, started on the whole of RX (R163, R166). -/
def pollEnd (s : State) : PollEnd := pollLoop s.params (s.rx.length + 1) s.rx

/-- RX_POLL (R163). -/
def execRxPoll (s : State) : Outcome :=
  match (pollEnd s).frame with
  | none => finish .noFrame (s.setRx (pollEnd s).rx)
  | some (bytes, ty) =>
    finish .ok (((s.setRx (pollEnd s).rx).setFbuf (s.fbuf.writeBytes 0 bytes)).setRes
      { s.res with w0 := BitVec.ofNat 32 bytes.length, w1 := ty.setWidth 32 })

end Sys2Proof.Machine
end

