-- ==== Sys2Proof/Machine/Dispatch.lean ====
section
/-! DEFINITION. The meaning of every command, one arm each (30_encoding R80, R83). -/

namespace Sys2Proof.Machine

/-- Runs one decoded command (R80). CMD already holds its word. -/
def exec (i : Instr) (s : State) : Host.Outcome State Fault Refusal :=
  match i with
  | .nop => Sys2Proof.Machine.execNop s
  | .crc16 n => Sys2Proof.Machine.execCrc16 n s
  | .buildCmd n => Sys2Proof.Machine.execBuildCmd n s
  | .buildTlm n => Sys2Proof.Machine.execBuildTlm n s
  | .buildPing n => Sys2Proof.Machine.execBuildPing n s
  | .buildPong n => Sys2Proof.Machine.execBuildPong n s
  | .buildLog n => Sys2Proof.Machine.execBuildLog n s
  | .parseCmd n => Sys2Proof.Machine.execParseCmd n s
  | .parseTlm n => Sys2Proof.Machine.execParseTlm n s
  | .parsePing n => Sys2Proof.Machine.execParsePing n s
  | .parsePong n => Sys2Proof.Machine.execParsePong n s
  | .parseLog n => Sys2Proof.Machine.execParseLog n s
  | .findStart n => Sys2Proof.Machine.execFindStart n s
  | .rxPush b => Sys2Proof.Machine.execRxPush b s
  | .rxPoll => Sys2Proof.Machine.execRxPoll s
  | .iirSetparams => Sys2Proof.Machine.execIirSetparams s
  | .iirStep => Sys2Proof.Machine.execIirStep s
  | .iirReset => Sys2Proof.Machine.execIirReset s
  | .pidSetGains => Sys2Proof.Machine.execPidSetGains s
  | .pidSetLimits => Sys2Proof.Machine.execPidSetLimits s
  | .pidStep => Sys2Proof.Machine.execPidStep s
  | .pidReset => Sys2Proof.Machine.execPidReset s

end Sys2Proof.Machine
end

