-- ==== Sys2Proof/Machine/Step.lean ====
section
/-! DEFINITION. One step of the block: it takes the host's next event, and a write to CMD runs a
command within that write (30_encoding R80, 20_memory R70). -/

namespace Sys2Proof.Machine

/-- Runs the command of a word just written to CMD (R80): an illegal word sets STATUS.CODE to
ILLEGAL_OP and nothing else (R84). -/
def runWord (w : Word) (s : State) : Host.Outcome State Fault Refusal :=
  match decode w with
  | .ok i => exec i s
  | .error _ => raise .illegalOp s

/-- One step. -/
def step (s : State) : Host.Outcome State Fault Refusal :=
  match take s with
  | .done t => .next t
  | .command w t => runWord w t
  | .outside => .fault .outsideWindow

/-- `s` with the host's next transaction a write of the command word `w` to CMD (log 2). -/
def State.withFetchWord (s : State) (nbits w : Nat) : State :=
  s.setPending (.write (s.params.base + regOffset .cmd) 4 (BitVec.ofNat 32 (w % 2 ^ nbits)) :: s.pending)

end Sys2Proof.Machine
end

