-- ==== Sys2Proof/Numeric.lean ====
section
/-! DEFINITION. What the numbers of 00_scope R12 and 43_iir R182 mean as real numbers: the terms in
which statements about rounding are made. Nothing in the machine uses this file. -/

namespace Sys2Proof.Machine

open Config (Coef)

/-- The exact value of a finite f32 (R67): `units` counts 2^-149. -/
def f32Value (a : F32) : ℚ := units a / 2 ^ 149

/-- The smallest magnitude that rounds to infinity: half a quantum above the largest finite f32. -/
def overflowBound : ℝ := 2 ^ 128 - 2 ^ 103

/-- `r` is the binary32 value of the real number x, rounded to nearest, ties to even, with gradual
underflow and overflow to ±infinity (R12, `RNE32`). The sign of a zero result is left open when x
is zero. -/
structure IsRNE32 (x : ℝ) (r : F32) : Prop where
  not_nan : isnan r = false
  overflow : isinf r = true ↔ overflowBound ≤ |x|
  nearest : isfinite r = true → ∀ b, isfinite b = true → |x - f32Value r| ≤ |x - f32Value b|
  even : isfinite r = true → ∀ b, isfinite b = true → f32Value b ≠ f32Value r →
    |x - f32Value b| = |x - f32Value r| → r.getLsbD 0 = false
  neg : x < 0 → fsign r = true
  pos : 0 < x → fsign r = false

/-- The K of R182, `tan(π · fc / fs)`. -/
noncomputable def prewarp (fc fs : F32) : ℝ := Real.tan (Real.pi * f32Value fc / f32Value fs)

/-- The D of R182, `1 + √2·K + K²`. -/
noncomputable def biquadDenominator (k : ℝ) : ℝ := 1 + √2 * k + k ^ 2

/-- The exact real coefficients of R182, before rounding. -/
noncomputable def exactCoef (c : Coef) (fc fs : F32) : ℝ :=
  let k := prewarp fc fs
  let d := biquadDenominator k
  match c with
  | .b0 => k ^ 2 / d
  | .b1 => 2 * k ^ 2 / d
  | .b2 => k ^ 2 / d
  | .a1 => 2 * (k ^ 2 - 1) / d
  | .a2 => (1 - √2 * k + k ^ 2) / d

end Sys2Proof.Machine
end

