-- ==== Sys2Proof/Safety.lean ====
section
/-! DEFINITION. What a safe run is, in the terms the statements use. -/

namespace Sys2Proof.Machine

/-- A limit register's legal values (10_state R34): not NaN and ≥ +0.0, which leaves the patterns
from +0.0 to +infinity. -/
abbrev LegalLimit (m : F32) : Prop := isnan m = false ∧ fsign m = false

/-- The invariant of the machine: the parameters are legal (R8), FBUF and PBUF are in canonical form,
RX holds at most RX_CAP bytes (R27), the gains are finite (R33) and the limits legal (R34). -/
structure State.Inv (s : State) : Prop where
  params : s.params.WellFormed
  fbuf : s.fbuf.wf
  pbuf : s.pbuf.wf
  rx : s.rx.length ≤ Config.rxCap
  gains : isfinite s.pid.kp = true ∧ isfinite s.pid.ki = true ∧ isfinite s.pid.kd = true
  limits : LegalLimit s.pid.maxI ∧ LegalLimit s.pid.maxO

/-- The host's transactions stay inside the block's window (R60). -/
abbrev BusEvent.inWindow (p : Params) : BusEvent → Bool
  | .read addr _ => (windowOffset p addr).isSome
  | .write addr _ _ => (windowOffset p addr).isSome
  | .reset => true

/-- A step that the spec allows: never a refusal, and a fault only for an access outside the window. -/
def SafeStep (s : State) : Prop :=
  (∃ t, step s = .next t) ∨
    (step s = .fault .outsideWindow ∧ ∃ e rest, s.pending = e :: rest ∧ e.inWindow s.params = false)

end Sys2Proof.Machine
end

