-- ==== Sys2Proof/Terms.lean ====
section
/-! DEFINITION. The terms in which statements about frames, prefixes, units and status codes are made
(41_framer R110, R111, R126; 40_control R103; 60_exceptions R221). Nothing in the machine uses
this file. -/

namespace Sys2Proof.Machine

/-- `LenOK` (R111), the L column of the payload table. -/
def LenAllowed : Kind → Nat → Prop
  | .cmd, len => len = 6
  | .tlm, len => len = 15
  | .ping, len => len = 0
  | .pong, len => len = 0
  | .log, len => len ≤ 200

/-- The buffer m holds, from index 0, the frame of R110 with type byte t and this payload. -/
structure HoldsFrame (p : Params) (m : Memory) (t : Byte) (payload : List Byte) : Prop where
  short : payload.length < 2 ^ 16
  sync0 : m.read 0 = p.sync0
  sync1 : m.read 1 = p.sync1
  version : m.read 2 = p.version
  type : m.read 3 = t
  lenLow : m.read 4 = BitVec.ofNat 8 payload.length
  lenHigh : m.read 5 = BitVec.ofNat 8 (payload.length / 256)
  body : ∀ i < payload.length, m.read (6 + i) = byteAt payload i
  crcLow : m.read (6 + payload.length) = (crc16 (m.slice 2 (4 + payload.length))).extractLsb' 0 8
  crcHigh : m.read (7 + payload.length) = (crc16 (m.slice 2 (4 + payload.length))).extractLsb' 8 8

/-- Stage 4 of R120: type byte t names kind k, and k is the kind expected (`none` = any). -/
def KindAccepted (p : Params) (expect : Option Kind) (t : Byte) (k : Kind) : Prop :=
  typeByte p k = t ∧ (expect = none ∨ expect = some k)

/-- A whole sync prefix stands at index i of b (R126). -/
def PrefixAt (p : Params) (b : List Byte) (i : Nat) : Prop :=
  i + 1 < b.length ∧ byteAt b i = p.sync0 ∧ byteAt b (i + 1) = p.sync1

/-- i is the smallest index of b with a whole sync prefix: `FindStart(b) = i` (R126). -/
def FirstPrefixAt (p : Params) (b : List Byte) (i : Nat) : Prop :=
  PrefixAt p b i ∧ ∀ j < i, ¬ PrefixAt p b j

/-- PARSE_<kind> n. -/
def parseCommand (k : Kind) (n : Nat) : Instr :=
  match k with
  | .cmd => .parseCmd n
  | .tlm => .parseTlm n
  | .ping => .parsePing n
  | .pong => .parsePong n
  | .log => .parseLog n

/-- The unit a command belongs to (R103, and R100 for NOP). -/
inductive BlockUnit where
  | control | framer | filter | controller
deriving DecidableEq, Repr

/-- The unit of each command (30_encoding R83). -/
def unitOf : Instr → BlockUnit
  | .nop => .control
  | .crc16 _ | .buildCmd _ | .buildTlm _ | .buildPing _ | .buildPong _ | .buildLog _
  | .parseCmd _ | .parseTlm _ | .parsePing _ | .parsePong _ | .parseLog _ | .findStart _
  | .rxPush _ | .rxPoll => .framer
  | .iirSetparams | .iirStep | .iirReset => .filter
  | .pidSetGains | .pidSetLimits | .pidStep | .pidReset => .controller

/-- The commands that may write FBUF (R250). -/
def writesFbuf : Instr → Bool
  | .buildCmd _ | .buildTlm _ | .buildPing _ | .buildPong _ | .buildLog _ | .rxPoll => true
  | .nop | .crc16 _ | .parseCmd _ | .parseTlm _ | .parsePing _ | .parsePong _ | .parseLog _
  | .findStart _ | .rxPush _ | .iirSetparams | .iirStep | .iirReset
  | .pidSetGains | .pidSetLimits | .pidStep | .pidReset => false

/-- The status codes a command may end in: the "raised by" column of R221. -/
def endCodes : Instr → List StatusCode
  | .nop | .iirStep | .iirReset | .pidReset => [.ok]
  | .crc16 _ | .pidSetGains | .pidSetLimits => [.ok, .badArg]
  | .buildCmd _ | .buildTlm _ | .buildPing _ | .buildPong _ | .buildLog _ =>
    [.ok, .bufferTooSmall, .badArg]
  | .parseCmd _ | .parseTlm _ | .parsePing _ | .parsePong _ | .parseLog _ =>
    [.ok, .insufficientData, .invalidPrefix, .invalidVersion, .invalidType,
     .invalidPayloadLength, .crcMismatch, .badArg]
  | .findStart _ => [.ok, .notFound, .badArg]
  | .rxPush _ => [.ok, .rxFull]
  | .rxPoll => [.ok, .noFrame]
  | .iirSetparams => [.ok, .paramRejected]
  | .pidStep => [.ok, .dtIgnored]

end Sys2Proof.Machine
end

