-- ==== Sys2Proof/Certificates/Slice0/Obligations.lean ====
section
/-! DEFINITION. The statements about the FFP block, in the order of OBLIGATIONS.json. Each docstring
names the rule of spec/ it formalises. Next states are written as record updates of the state before,
so that everything not named in the update is unchanged: that is each statement's frame. -/

open Sys2Proof Sys2Proof.Machine
open Sys2Proof.Config (Coef)

/-! ### Encoding (30_encoding) -/

/-- Decode and encode agree: no bit of an encoding is dropped, for every command and every operand. -/
def Obligations.DecodeOfEncode : Prop :=
  ∀ i : Instr, i.WellFormed → decode (encode i) = .ok i

/-- A word that decodes has no other spelling, and its command is well-formed. -/
def Obligations.EncodeOfDecode : Prop :=
  ∀ (w : Word) (i : Instr), decode w = .ok i → i.WellFormed ∧ encode i = w

/-- Words spelled out from R81 and R83, one or more of each unit; the first three are R86's. -/
def Obligations.SampleWordsDecode : Prop :=
  decode 0x000E0011 = .ok (.buildCmd 14) ∧
  decode 0x0000AA20 = .ok (.rxPush 0xAA) ∧
  decode 0x00000032 = .ok .iirReset ∧
  decode 0x00000000 = .ok .nop ∧
  decode 0x01000010 = .ok (.crc16 256) ∧
  decode 0xFFFF001D = .ok (.findStart 65535) ∧
  decode 0x00000042 = .ok .pidStep ∧
  decodeTableWord 32 0x00D01C = none ∧
  decodeTableWord 32 0x00D0001C = some (.parseLog 208)

/-- R83's match/mask form: a word decodes to a command whose row it matches, and a word that matches
some row decodes. -/
def Obligations.DecodeMatchesTable : Prop :=
  (∀ (w : Word) (i : Instr), decode w = .ok i → w &&& (matchMask i).2 = (matchMask i).1) ∧
  ∀ (w : Word) (i : Instr), w &&& (matchMask i).2 = (matchMask i).1 →
    ∃ j, decode w = .ok j ∧ opcodeOf j = opcodeOf i

/-- R84: the illegal words are exactly those with an OP outside the table, or with a SEL or N that
is nonzero where the table says 0; writing one to CMD sets STATUS.CODE to ILLEGAL_OP (0x0E) and
changes nothing else but CMD. -/
def Obligations.IllegalWordsSetIllegalOp : Prop :=
  ∀ (s : State) (w : Word) (rest : List BusEvent),
    s.pending = .write s.params.base 4 w :: rest →
    let counted : List Byte :=
      [0x10, 0x11, 0x12, 0x13, 0x14, 0x15, 0x18, 0x19, 0x1A, 0x1B, 0x1C, 0x1D]
    let plain : List Byte := [0x00, 0x21, 0x30, 0x31, 0x32, 0x40, 0x41, 0x42, 0x43]
    let illegal : Prop :=
      (opField w ∉ counted ∧ opField w ∉ plain ∧ opField w ≠ 0x20) ∨
      (selField w ≠ 0 ∧ opField w ≠ 0x20) ∨
      (nField w ≠ 0 ∧ opField w ∉ counted)
    (illegal → step s = .next { s with pending := rest, cmd := w, code := .illegalOp }) ∧
    (¬ illegal → ∃ i, decode w = .ok i ∧
      step s = exec i { s with pending := rest, cmd := w }) ∧
    codeByte .illegalOp = 0x0E

/-! ### The bus and the register window (10_state, 20_memory) -/

/-- A step that takes a write to CMD runs the decoded command on the state with the word stored in
CMD (R80); and the command placed by `withFetchWord` is the one the next step runs (log 2). -/
def Obligations.StepRunsDecodedCommand : Prop :=
  (∀ (s : State) (w : Word) (i : Instr) (rest : List BusEvent),
    s.pending = .write s.params.base 4 w :: rest → decode w = .ok i →
    step s = exec i { s with pending := rest, cmd := w }) ∧
  ∀ (s : State) (i : Instr), i.WellFormed →
    step (s.withFetchWord 32 (encode i).toNat) = exec i { s with cmd := encode i }

/-- R24: a host write to CMD stores the word, legal or not, and runs the command it encodes; a read
returns the last word written, which no command and no other event but a reset changes. -/
def Obligations.CmdHoldsLastWordWritten : Prop :=
  (∀ (s : State) (w : Word) (rest : List BusEvent),
    s.pending = .write s.params.base 4 w :: rest →
    (∀ i, decode w = .ok i → step s = exec i { s with pending := rest, cmd := w }) ∧
    ∃ t, step s = .next t ∧ t.cmd = w ∧ memRead 0x000 t = w) ∧
  (∀ (i : Instr) (s t : State), exec i s = .next t → t.cmd = s.cmd) ∧
  ∀ s t : State, step s = .next t → t.cmd = s.cmd ∨ (∃ rest, s.pending = .reset :: rest) ∨
    ∃ w rest, s.pending = .write s.params.base 4 w :: rest

/-- R68: a supported read answers with the value at its offset and has no side effect, so reading
again, at any offset, returns what it returned before. The answer is held in `readData` and the
event leaves `pending`, the model's own fields (log 2, log 3). -/
def Obligations.SupportedReadChangesNothing : Prop :=
  ∀ (s : State) (off : Nat) (rest : List BusEvent),
    off < 0x400 → off % 4 = 0 → s.pending = .read (s.params.base + off) 4 :: rest →
    ∃ t, step s = .next t ∧ t = { s with pending := rest, readData := memRead off s } ∧
      ∀ again, memRead again t = memRead again s

/-- R63: an unsupported access sets BUSERR and changes nothing else; an unsupported read returns 0. -/
def Obligations.UnsupportedAccessSetsBusErr : Prop :=
  ∀ (s : State) (off size : Nat) (rest : List BusEvent),
    off < 0x400 → (size ≠ 4 ∨ off % 4 ≠ 0) →
    (s.pending = .read (s.params.base + off) size :: rest →
      step s = .next { s with pending := rest, busErr := true, readData := 0 }) ∧
    ∀ v, s.pending = .write (s.params.base + off) size v :: rest →
      step s = .next { s with pending := rest, busErr := true }

/-- R25: the fields STATUS reads as, what a write to it does, that commands never change BUSERR, and
that BUSERR is sticky: only a write of STATUS with bit 8 set, or a reset, clears it. -/
def Obligations.StatusFieldsAndStickiness : Prop :=
  (∀ s : State, (memRead 0x004 s).extractLsb' 0 8 = codeByte s.code ∧
    (memRead 0x004 s).getLsbD 8 = s.busErr ∧ (memRead 0x004 s).extractLsb' 9 23 = 0) ∧
  (∀ (s : State) (v : Word) (rest : List BusEvent),
    s.pending = .write (s.params.base + 0x004) 4 v :: rest →
    (v.getLsbD 8 = true → step s = .next { s with pending := rest, busErr := false }) ∧
    (v.getLsbD 8 = false → step s = .next { s with pending := rest })) ∧
  (∀ (i : Instr) (s t : State), exec i s = .next t → t.busErr = s.busErr) ∧
  ∀ s t : State, step s = .next t → s.busErr = true →
    t.busErr = true ∨ (∃ rest, s.pending = .reset :: rest) ∨
    ∃ v rest, s.pending = .write (s.params.base + 0x004) 4 v :: rest ∧ v.getLsbD 8 = true

/-- The contents column of R37, with R26, R27, R30 and R36: what each offset of the map reads as. -/
def Obligations.RegisterMapReads : Prop :=
  ∀ s : State, s.rx.length ≤ 256 →
    memRead 0x000 s = s.cmd ∧
    memRead 0x008 s = s.arg.w0 ∧ memRead 0x00C s = s.arg.w1 ∧
    memRead 0x010 s = s.arg.w2 ∧ memRead 0x014 s = s.arg.w3 ∧
    memRead 0x018 s = s.res.w0 ∧ memRead 0x01C s = s.res.w1 ∧
    memRead 0x020 s = s.res.w2 ∧ memRead 0x024 s = s.res.w3 ∧
    (memRead 0x028 s).toNat = s.cmdSeq.toNat ∧
    (memRead 0x02C s).toNat = s.rx.length ∧
    memRead 0x030 s = (if s.iir.configured then 1 else 0) ∧
    memRead 0x034 s = s.iir.b0 ∧ memRead 0x038 s = s.iir.b1 ∧ memRead 0x03C s = s.iir.b2 ∧
    memRead 0x040 s = s.iir.a1 ∧ memRead 0x044 s = s.iir.a2 ∧
    memRead 0x048 s = s.iir.x1 ∧ memRead 0x04C s = s.iir.x2 ∧
    memRead 0x050 s = s.iir.y1 ∧ memRead 0x054 s = s.iir.y2 ∧
    memRead 0x058 s = s.pid.kp ∧ memRead 0x05C s = s.pid.ki ∧ memRead 0x060 s = s.pid.kd ∧
    memRead 0x064 s = s.pid.maxI ∧ memRead 0x068 s = s.pid.maxO ∧
    memRead 0x06C s = s.pid.integ ∧ memRead 0x070 s = s.pid.prev ∧
    memRead 0x074 s = (if s.pid.first then 1 else 0) ∧
    ∀ off, 0x078 ≤ off → off < 0x100 → memRead off s = 0

/-- R64: the words of FBUF and PBUF are four bytes each, the first in bits [7:0]; a write stores the
word's four bytes and no other byte, and changes nothing else. -/
def Obligations.BufferWordAccess : Prop :=
  ∀ (s : State) (i : Nat) (rest : List BusEvent), i < 64 →
    (∀ (m : Memory) (base : Nat),
      (base = 0x100 ∧ m = s.fbuf) ∨ (base = 0x200 ∧ m = s.pbuf) →
      memRead (base + 4 * i) s =
        (m.read (4 * i)).setWidth 32 ||| (m.read (4 * i + 1)).setWidth 32 <<< 8 |||
          (m.read (4 * i + 2)).setWidth 32 <<< 16 ||| (m.read (4 * i + 3)).setWidth 32 <<< 24) ∧
    ∀ v : Word,
      let stored (old new : Memory) : Prop :=
        new.read (4 * i) = v.extractLsb' 0 8 ∧ new.read (4 * i + 1) = v.extractLsb' 8 8 ∧
        new.read (4 * i + 2) = v.extractLsb' 16 8 ∧ new.read (4 * i + 3) = v.extractLsb' 24 8 ∧
        ∀ a, ¬ (4 * i ≤ a ∧ a < 4 * i + 4) → new.read a = old.read a
      (s.pending = .write (s.params.base + (0x100 + 4 * i)) 4 v :: rest →
        ∃ m, step s = .next { s with pending := rest, fbuf := m } ∧ stored s.fbuf m) ∧
      (s.pending = .write (s.params.base + (0x200 + 4 * i)) 4 v :: rest →
        ∃ m, step s = .next { s with pending := rest, pbuf := m } ∧ stored s.pbuf m)

/-- R65: the RXBUF window shows the received bytes, four a word, 0x00 past the last; a write to it is
ignored. -/
def Obligations.RxWindowShowsRx : Prop :=
  ∀ (s : State) (i : Nat), i < 64 →
    let r (j : Nat) : Word := if h : j < s.rx.length then (s.rx[j]).setWidth 32 else 0
    memRead (0x300 + 4 * i) s =
      (r (4 * i) ||| r (4 * i + 1) <<< 8 ||| r (4 * i + 2) <<< 16 ||| r (4 * i + 3) <<< 24) ∧
    ∀ (v : Word) (rest : List BusEvent),
      s.pending = .write (s.params.base + (0x300 + 4 * i)) 4 v :: rest →
      step s = .next { s with pending := rest }

/-- R38: a write to a read-only register, to a reserved offset or to RXBUF is ignored and does not
set BUSERR; a reserved offset reads 0. The exception, STATUS bit 8, is `Obligations.StatusFieldsAndStickiness`. -/
def Obligations.ReadOnlyWritesIgnored : Prop :=
  (∀ (s : State) (off : Nat) (v : Word) (rest : List BusEvent),
    ((0x018 ≤ off ∧ off < 0x100) ∨ (0x300 ≤ off ∧ off < 0x400)) → off % 4 = 0 →
    s.pending = .write (s.params.base + off) 4 v :: rest →
    step s = .next { s with pending := rest }) ∧
  (∀ (s : State) (v : Word) (rest : List BusEvent),
    s.pending = .write (s.params.base + 0x004) 4 v :: rest →
    ∃ b, step s = .next { s with pending := rest, busErr := b } ∧
      (b = true ↔ s.busErr = true ∧ v.getLsbD 8 = false)) ∧
  ∀ (s : State) (off : Nat), 0x078 ≤ off → off < 0x100 → memRead off s = 0

/-- R22: a host write to an operand register stores the word there and does nothing else; no command
writes an operand register. -/
def Obligations.OperandRegisterWrites : Prop :=
  (∀ (s : State) (v : Word) (rest : List BusEvent),
    (s.pending = .write (s.params.base + 0x008) 4 v :: rest →
      step s = .next { s with pending := rest, arg := { s.arg with w0 := v } }) ∧
    (s.pending = .write (s.params.base + 0x00C) 4 v :: rest →
      step s = .next { s with pending := rest, arg := { s.arg with w1 := v } }) ∧
    (s.pending = .write (s.params.base + 0x010) 4 v :: rest →
      step s = .next { s with pending := rest, arg := { s.arg with w2 := v } }) ∧
    (s.pending = .write (s.params.base + 0x014) 4 v :: rest →
      step s = .next { s with pending := rest, arg := { s.arg with w3 := v } })) ∧
  ∀ (i : Instr) (s t : State), exec i s = .next t → t.arg = s.arg

/-- What no command changes: the parameters (R8), ARG0 to ARG3 (R22), CMD (R24), BUSERR (R25) and
every byte of PBUF (R29). -/
def Obligations.CommandsKeepHostState : Prop :=
  ∀ (i : Instr) (s t : State), exec i s = .next t →
    t.params = s.params ∧ t.arg = s.arg ∧ t.cmd = s.cmd ∧ t.busErr = s.busErr ∧
    (∀ a, t.pbuf.read a = s.pbuf.read a) ∧ t.pending = s.pending ∧ t.readData = s.readData

/-- The model's choices at the edge of the spec: with no event pending a step changes nothing (R242
says the block is idle; log 2), and an access outside the window, which R60 leaves to the platform,
faults (log 4). -/
def Obligations.IdleAndOutsideWindow : Prop :=
  (∀ s : State, s.pending = [] → step s = .next s) ∧
  ∀ (s : State) (addr size : Nat) (rest : List BusEvent),
    (addr < s.params.base ∨ s.params.base + 0x400 ≤ addr) →
    (s.pending = .read addr size :: rest → step s = .fault .outsideWindow) ∧
    ∀ v, s.pending = .write addr size v :: rest → step s = .fault .outsideWindow

/-- R240 and R41: a reset event takes every piece of state to its reset value, changes no parameter
and runs no command. -/
def Obligations.ResetEventValues : Prop :=
  ∀ (s : State) (rest : List BusEvent), s.pending = .reset :: rest →
    ∃ t, step s = .next t ∧ t.params = s.params ∧
      t.cmd = 0x00000000 ∧ t.code = .ok ∧ t.busErr = false ∧
      t.arg = ⟨0, 0, 0, 0⟩ ∧ t.res = ⟨0, 0, 0, 0⟩ ∧ t.cmdSeq = 0 ∧ t.rx = [] ∧
      (∀ a, t.fbuf.read a = 0x00) ∧ (∀ a, t.pbuf.read a = 0x00) ∧
      t.iir.configured = false ∧
      t.iir.b0 = posZero ∧ t.iir.b1 = posZero ∧ t.iir.b2 = posZero ∧
      t.iir.a1 = posZero ∧ t.iir.a2 = posZero ∧
      t.iir.x1 = posZero ∧ t.iir.x2 = posZero ∧ t.iir.y1 = posZero ∧ t.iir.y2 = posZero ∧
      t.pid.kp = posZero ∧ t.pid.ki = posZero ∧ t.pid.kd = posZero ∧
      t.pid.maxI = posZero ∧ t.pid.maxO = posZero ∧
      t.pid.integ = posZero ∧ t.pid.prev = posZero ∧ t.pid.first = true ∧
      ∀ off, off < 0x400 → off % 4 = 0 → memRead off t = if off = 0x074 then 1 else 0

/-! ### The whole machine -/

/-- The invariant holds after reset, for the parameters of TP1 (the model's choice for
`State.reset`, log 1) and for every legal choice of them (R8). -/
def Obligations.ResetSatisfiesInv : Prop :=
  State.reset.Inv ∧ ∀ p : Params, p.WellFormed → (State.resetWith p).Inv

/-- Every step keeps the invariant: FBUF and PBUF stay canonical, RX holds at most RX_CAP bytes
(R27), the gains stay finite (R33), the limits stay legal (R34) and the parameters stay (R8). -/
def Obligations.StepKeepsInv : Prop :=
  ∀ s t : State, s.Inv → step s = .next t → t.Inv

/-- A step never refuses, and it faults only for an access outside the window (log 4): within its
window every access and every command completes (R102, R220). -/
def Obligations.StepIsSafe : Prop :=
  ∀ s : State, SafeStep s

/-- R102: no command throws, traps or stops the block, whatever its operands; its outcome is a
status code. -/
def Obligations.EveryCommandCompletes : Prop :=
  ∀ (i : Instr) (s : State), ∃ t, exec i s = .next t ∧ codeByte t.code < 0x0F

/-- R221: the value and the class of every status code, the codes each command may end in, and what
an error-class code means. -/
def Obligations.CommandsEndInListedCodes : Prop :=
  [StatusCode.ok, .bufferTooSmall, .insufficientData, .invalidPrefix, .invalidVersion, .invalidType,
    .invalidPayloadLength, .crcMismatch, .notFound, .noFrame, .rxFull, .paramRejected, .dtIgnored,
    .badArg, .illegalOp].map (fun c => ((codeByte c).toNat, isErrorClass c)) =
  [(0x00, false), (0x01, true), (0x02, true), (0x03, true), (0x04, true), (0x05, true), (0x06, true),
    (0x07, true), (0x08, true), (0x09, false), (0x0A, true), (0x0B, false), (0x0C, false),
    (0x0D, true), (0x0E, true)] ∧
  ∀ (i : Instr) (s t : State), exec i s = .next t →
    t.code ∈ endCodes i ∧ (isErrorClass t.code = true → t = { s with code := t.code })

/-- R103: a command reads and writes only its own unit's state, with ARG, RES and STATUS.CODE
shared, and only BUILD_* and RX_POLL write FBUF. Each clause says what is written (the update that
gives t) and what is read (any s' that agrees on it has the same outcome). -/
def Obligations.UnitsAreIndependent : Prop :=
  ∀ (i : Instr) (s t s' : State), exec i s = .next t →
    (unitOf i = .control →
      t = { s with code := t.code } ∧ exec i s' = .next { s' with code := t.code }) ∧
    (unitOf i = .framer →
      t = { s with
        fbuf := t.fbuf, rx := t.rx, cmdSeq := t.cmdSeq, res := t.res, code := t.code } ∧
      (s'.params = s.params → s'.arg = s.arg → s'.res = s.res → s'.cmdSeq = s.cmdSeq →
        s'.rx = s.rx → s'.fbuf = s.fbuf → s'.pbuf = s.pbuf →
        exec i s' = .next { s' with
          fbuf := t.fbuf, rx := t.rx, cmdSeq := t.cmdSeq, res := t.res, code := t.code })) ∧
    (unitOf i = .filter →
      t = { s with iir := t.iir, res := t.res, code := t.code } ∧
      (s'.arg = s.arg → s'.res = s.res → s'.iir = s.iir →
        exec i s' = .next { s' with iir := t.iir, res := t.res, code := t.code })) ∧
    (unitOf i = .controller →
      t = { s with pid := t.pid, res := t.res, code := t.code } ∧
      (s'.arg = s.arg → s'.res = s.res → s'.pid = s.pid →
        exec i s' = .next { s' with pid := t.pid, res := t.res, code := t.code })) ∧
    (writesFbuf i = false → ∀ a, t.fbuf.read a = s.fbuf.read a)

/-! ### NOP and the CRC (40_control, 00_scope R14) -/

/-- R100: NOP returns STATUS.CODE to OK and touches nothing else. -/
def Obligations.NopSetsOkOnly : Prop :=
  decode 0x00000000 = .ok .nop ∧
  (∀ w : Word, opField w = 0x00 → w ≠ 0 → ∀ i, decode w ≠ .ok i) ∧
  (∀ s : State, exec .nop s = .next { s with code := .ok }) ∧
  codeByte .ok = 0x00 ∧
  ∀ p : Params, (State.resetWith p).cmd = encode .nop

/-- R114: CRC16 leaves in RES0 the CRC of FBUF[ARG0 .. ARG0 + N), or ends in BAD_ARG when the span,
taken without wrap, passes index 255. -/
def Obligations.Crc16ResultOrBadArg : Prop :=
  ∀ (n : Nat) (s : State), n < 2 ^ 16 →
    decode (BitVec.ofNat 32 (0x10 + n * 2 ^ 16)) = .ok (.crc16 n) ∧
    (s.arg.w0.toNat + n ≤ 256 →
      exec (.crc16 n) s = .next { s with
        res := { s.res with w0 := (crc16 (s.fbuf.slice s.arg.w0.toNat n)).setWidth 32 }
        code := .ok }) ∧
    (256 < s.arg.w0.toNat + n → exec (.crc16 n) s = .next { s with code := .badArg })

/-- R14: the CRC byte by byte, with its check value; and the residue that R110's low-byte-first CRC
leaves: a byte sequence followed by its own CRC has CRC 0. -/
def Obligations.CrcRecurrenceAndResidue : Prop :=
  let shift (c : Half) : Half := if c.getLsbD 0 then (c >>> 1) ^^^ 0xA001 else c >>> 1
  crc16 [] = 0xFFFF ∧
  (∀ (b : List Byte) (x : Byte), crc16 (b ++ [x]) = shift^[8] (crc16 b ^^^ x.setWidth 16)) ∧
  crc16 [0x31, 0x32, 0x33, 0x34, 0x35, 0x36, 0x37, 0x38, 0x39] = 0x4B37 ∧
  ∀ b : List Byte,
    crc16 (b ++ [(crc16 b).extractLsb' 0 8, (crc16 b).extractLsb' 8 8]) = 0

/-! ### Build (41_framer) -/

/-- R115: BUILD_CMD writes a Command frame to FBUF[0..14) and advances CMD_SEQ, or changes nothing
but STATUS.CODE. -/
def Obligations.BuildCmdWritesFrame : Prop :=
  ∀ (n : Nat) (s : State), n < 2 ^ 16 →
    decode (BitVec.ofNat 32 (0x11 + n * 2 ^ 16)) = .ok (.buildCmd n) ∧
    (14 ≤ n → n ≤ 256 → ∃ m,
      exec (.buildCmd n) s = .next { s with
        fbuf := m
        cmdSeq := s.cmdSeq + 1
        res := { s.res with w0 := 14 }
        code := .ok } ∧
      HoldsFrame s.params m s.params.typeCmd
        [s.cmdSeq.extractLsb' 0 8, s.cmdSeq.extractLsb' 8 8,
          (quant s.arg.w0).extractLsb' 0 8, (quant s.arg.w0).extractLsb' 8 8,
          (quant s.arg.w1).extractLsb' 0 8, (quant s.arg.w1).extractLsb' 8 8] ∧
      ∀ a, 14 ≤ a → m.read a = s.fbuf.read a) ∧
    (256 < n → exec (.buildCmd n) s = .next { s with code := .badArg }) ∧
    (n < 14 → exec (.buildCmd n) s = .next { s with code := .bufferTooSmall })

/-- R116: BUILD_TLM writes a Telemetry frame to FBUF[0..23), with the status byte masked to its low
three bits. -/
def Obligations.BuildTlmWritesFrame : Prop :=
  ∀ (n : Nat) (s : State), n < 2 ^ 16 →
    decode (BitVec.ofNat 32 (0x12 + n * 2 ^ 16)) = .ok (.buildTlm n) ∧
    (23 ≤ n → n ≤ 256 → ∃ m,
      exec (.buildTlm n) s = .next { s with
        fbuf := m, res := { s.res with w0 := 23 }, code := .ok } ∧
      HoldsFrame s.params m s.params.typeTlm
        [s.arg.w0.extractLsb' 0 8, s.arg.w0.extractLsb' 8 8, s.arg.w0.extractLsb' 16 8 &&& 0x07,
          s.arg.w1.extractLsb' 0 8, s.arg.w1.extractLsb' 8 8,
          s.arg.w1.extractLsb' 16 8, s.arg.w1.extractLsb' 24 8,
          s.arg.w2.extractLsb' 0 8, s.arg.w2.extractLsb' 8 8,
          s.arg.w2.extractLsb' 16 8, s.arg.w2.extractLsb' 24 8,
          s.arg.w3.extractLsb' 0 8, s.arg.w3.extractLsb' 8 8,
          s.arg.w3.extractLsb' 16 8, s.arg.w3.extractLsb' 24 8] ∧
      ∀ a, 23 ≤ a → m.read a = s.fbuf.read a) ∧
    (256 < n → exec (.buildTlm n) s = .next { s with code := .badArg }) ∧
    (n < 23 → exec (.buildTlm n) s = .next { s with code := .bufferTooSmall })

/-- R117 and R118: BUILD_PING and BUILD_PONG write an empty frame to FBUF[0..8). -/
def Obligations.BuildPingPongWriteFrame : Prop :=
  ∀ (n : Nat) (s : State), n < 2 ^ 16 →
    decode (BitVec.ofNat 32 (0x13 + n * 2 ^ 16)) = .ok (.buildPing n) ∧
    decode (BitVec.ofNat 32 (0x14 + n * 2 ^ 16)) = .ok (.buildPong n) ∧
    (8 ≤ n → n ≤ 256 →
      (∃ m, exec (.buildPing n) s = .next { s with
          fbuf := m, res := { s.res with w0 := 8 }, code := .ok } ∧
        HoldsFrame s.params m s.params.typePing [] ∧ ∀ a, 8 ≤ a → m.read a = s.fbuf.read a) ∧
      ∃ m, exec (.buildPong n) s = .next { s with
          fbuf := m, res := { s.res with w0 := 8 }, code := .ok } ∧
        HoldsFrame s.params m s.params.typePong [] ∧ ∀ a, 8 ≤ a → m.read a = s.fbuf.read a) ∧
    (256 < n →
      exec (.buildPing n) s = .next { s with code := .badArg } ∧
      exec (.buildPong n) s = .next { s with code := .badArg }) ∧
    (n < 8 →
      exec (.buildPing n) s = .next { s with code := .bufferTooSmall } ∧
      exec (.buildPong n) s = .next { s with code := .bufferTooSmall })

/-- R119: BUILD_LOG writes a Log frame of the first L = min(ARG0, 200) bytes of PBUF. -/
def Obligations.BuildLogWritesFrame : Prop :=
  ∀ (n : Nat) (s : State), n < 2 ^ 16 →
    let len := min s.arg.w0.toNat 200
    decode (BitVec.ofNat 32 (0x15 + n * 2 ^ 16)) = .ok (.buildLog n) ∧
    (8 + len ≤ n → n ≤ 256 → ∃ m,
      exec (.buildLog n) s = .next { s with
        fbuf := m, res := { s.res with w0 := BitVec.ofNat 32 (8 + len) }, code := .ok } ∧
      HoldsFrame s.params m s.params.typeLog ((List.range len).map s.pbuf.read) ∧
      ∀ a, 8 + len ≤ a → m.read a = s.fbuf.read a) ∧
    (256 < n → exec (.buildLog n) s = .next { s with code := .badArg }) ∧
    (n < 8 + len → exec (.buildLog n) s = .next { s with code := .bufferTooSmall })

/-! ### Parse and search (41_framer) -/

/-- R120: the stages of ParseCore in their order. Each clause assumes that every stage before its
own passed, so exactly one clause applies to a buffer. -/
def Obligations.ParseStages : Prop :=
  ∀ (p : Params) (b : List Byte) (expect : Option Kind), p.WellFormed →
    let len := (byteAt b 4).toNat + 256 * (byteAt b 5).toNat
    let stored := (byteAt b (6 + len)).toNat + 256 * (byteAt b (7 + len)).toNat
    (b.length < 8 → parseCore p b expect = .error .insufficientData) ∧
    (8 ≤ b.length →
      ((byteAt b 0 ≠ p.sync0 ∨ byteAt b 1 ≠ p.sync1) →
        parseCore p b expect = .error .invalidPrefix) ∧
      (byteAt b 0 = p.sync0 → byteAt b 1 = p.sync1 →
        (byteAt b 2 ≠ p.version → parseCore p b expect = .error .invalidVersion) ∧
        (byteAt b 2 = p.version →
          ((∀ k, ¬ KindAccepted p expect (byteAt b 3) k) →
            parseCore p b expect = .error .invalidType) ∧
          ∀ k, KindAccepted p expect (byteAt b 3) k →
            (¬ LenAllowed k len → parseCore p b expect = .error .invalidPayloadLength) ∧
            (LenAllowed k len →
              (b.length < 8 + len → parseCore p b expect = .error .insufficientData) ∧
              (8 + len ≤ b.length →
                (stored ≠ (crc16 ((b.drop 2).take (4 + len))).toNat →
                  parseCore p b expect = .error .crcMismatch) ∧
                (stored = (crc16 ((b.drop 2).take (4 + len))).toNat →
                  parseCore p b expect = .ok (k, len)))))))

/-- ParseCore accepts the first n bytes of FBUF exactly when FBUF holds a whole frame of R110 of an
accepted kind and an allowed length within those n bytes. -/
def Obligations.ParseAcceptsExactlyFrames : Prop :=
  ∀ (p : Params) (m : Memory) (n len : Nat) (k : Kind) (expect : Option Kind), p.WellFormed →
    (parseCore p (m.slice 0 n) expect = .ok (k, len) ↔
      (expect = none ∨ expect = some k) ∧ LenAllowed k len ∧ 8 + len ≤ n ∧
        ∃ payload : List Byte, payload.length = len ∧ HoldsFrame p m (typeByte p k) payload)

/-- R121: PARSE_CMD on a buffer that holds a Command frame returns its seq and its dequantised
throttle and steering; on any other it ends in ParseCore's code, and above 256 in BAD_ARG. FBUF is
not modified. -/
def Obligations.ParseCmdReturnsFields : Prop :=
  ∀ (n : Nat) (s : State), n < 2 ^ 16 →
    decode (BitVec.ofNat 32 (0x18 + n * 2 ^ 16)) = .ok (.parseCmd n) ∧
    (∀ q0 q1 t0 t1 s0 s1 : Byte, 14 ≤ n → n ≤ 256 →
      HoldsFrame s.params s.fbuf s.params.typeCmd [q0, q1, t0, t1, s0, s1] →
      exec (.parseCmd n) s = .next { s with
        res := { s.res with
          w0 := (q1 ++ q0).setWidth 32, w1 := dequant (t1 ++ t0), w2 := dequant (s1 ++ s0) }
        code := .ok }) ∧
    (∀ c, n ≤ 256 → parseCore s.params (s.fbuf.slice 0 n) (some .cmd) = .error c →
      exec (.parseCmd n) s = .next { s with code := c }) ∧
    (256 < n → exec (.parseCmd n) s = .next { s with code := .badArg })

/-- R122: PARSE_TLM on a buffer that holds a Telemetry frame returns its nine fields, two to a
register, the status byte raw. -/
def Obligations.ParseTlmReturnsFields : Prop :=
  ∀ (n : Nat) (s : State), n < 2 ^ 16 →
    decode (BitVec.ofNat 32 (0x19 + n * 2 ^ 16)) = .ok (.parseTlm n) ∧
    (∀ q0 q1 st x0 x1 y0 y1 z0 z1 u0 u1 v0 v1 w0 w1 : Byte, 23 ≤ n → n ≤ 256 →
      HoldsFrame s.params s.fbuf s.params.typeTlm
        [q0, q1, st, x0, x1, y0, y1, z0, z1, u0, u1, v0, v1, w0, w1] →
      exec (.parseTlm n) s = .next { s with
        res := ⟨(0x00 : Byte) ++ (st ++ (q1 ++ q0)), y1 ++ (y0 ++ (x1 ++ x0)),
          u1 ++ (u0 ++ (z1 ++ z0)), w1 ++ (w0 ++ (v1 ++ v0))⟩
        code := .ok }) ∧
    (∀ c, n ≤ 256 → parseCore s.params (s.fbuf.slice 0 n) (some .tlm) = .error c →
      exec (.parseTlm n) s = .next { s with code := c }) ∧
    (256 < n → exec (.parseTlm n) s = .next { s with code := .badArg })

/-- R123 and R124: PARSE_PING and PARSE_PONG check an empty frame and write no RES register. -/
def Obligations.ParsePingPongCheckFrame : Prop :=
  ∀ (n : Nat) (s : State), n < 2 ^ 16 →
    decode (BitVec.ofNat 32 (0x1A + n * 2 ^ 16)) = .ok (.parsePing n) ∧
    decode (BitVec.ofNat 32 (0x1B + n * 2 ^ 16)) = .ok (.parsePong n) ∧
    (8 ≤ n → n ≤ 256 →
      (HoldsFrame s.params s.fbuf s.params.typePing [] →
        exec (.parsePing n) s = .next { s with code := .ok }) ∧
      (HoldsFrame s.params s.fbuf s.params.typePong [] →
        exec (.parsePong n) s = .next { s with code := .ok })) ∧
    (∀ c, n ≤ 256 →
      (parseCore s.params (s.fbuf.slice 0 n) (some .ping) = .error c →
        exec (.parsePing n) s = .next { s with code := c }) ∧
      (parseCore s.params (s.fbuf.slice 0 n) (some .pong) = .error c →
        exec (.parsePong n) s = .next { s with code := c })) ∧
    (256 < n →
      exec (.parsePing n) s = .next { s with code := .badArg } ∧
      exec (.parsePong n) s = .next { s with code := .badArg })

/-- R125: PARSE_LOG on a buffer that holds a Log frame of at most 200 payload bytes returns its
payload length; the message stays in FBUF. -/
def Obligations.ParseLogReturnsLength : Prop :=
  ∀ (n : Nat) (s : State), n < 2 ^ 16 →
    decode (BitVec.ofNat 32 (0x1C + n * 2 ^ 16)) = .ok (.parseLog n) ∧
    (∀ payload : List Byte, payload.length ≤ 200 → 8 + payload.length ≤ n → n ≤ 256 →
      HoldsFrame s.params s.fbuf s.params.typeLog payload →
      exec (.parseLog n) s = .next { s with
        res := { s.res with w0 := BitVec.ofNat 32 payload.length }, code := .ok }) ∧
    (∀ c, n ≤ 256 → parseCore s.params (s.fbuf.slice 0 n) (some .log) = .error c →
      exec (.parseLog n) s = .next { s with code := c }) ∧
    (256 < n → exec (.parseLog n) s = .next { s with code := .badArg })

/-- R126: FIND_START returns the smallest index of a prefix that lies wholly in FBUF[0 .. n), or ends
in NOT_FOUND, or above 256 in BAD_ARG. -/
def Obligations.FindStartReturnsFirstPrefix : Prop :=
  ∀ (n : Nat) (s : State), n < 2 ^ 16 →
    decode (BitVec.ofNat 32 (0x1D + n * 2 ^ 16)) = .ok (.findStart n) ∧
    (∀ i, n ≤ 256 → FirstPrefixAt s.params (s.fbuf.slice 0 n) i →
      exec (.findStart n) s = .next { s with
        res := { s.res with w0 := BitVec.ofNat 32 i }, code := .ok }) ∧
    (n ≤ 256 → (∀ i, ¬ PrefixAt s.params (s.fbuf.slice 0 n) i) →
      exec (.findStart n) s = .next { s with code := .notFound }) ∧
    (256 < n → exec (.findStart n) s = .next { s with code := .badArg })

/-! ### Receive (42_rx_resync) -/

/-- R160: RX_PUSH appends its byte to RX, or ends in RX_FULL when RX holds 256 bytes. -/
def Obligations.RxPushAppendsByte : Prop :=
  ∀ (b : Byte) (s : State),
    decode (BitVec.ofNat 32 (0x20 + b.toNat * 2 ^ 8)) = .ok (.rxPush b) ∧
    (s.rx.length ≠ 256 → exec (.rxPush b) s = .next { s with rx := s.rx ++ [b], code := .ok }) ∧
    (s.rx.length = 256 → exec (.rxPush b) s = .next { s with code := .rxFull })

/-- R163: one iteration of RX_POLL's loop, by its four ways on. The third is the retry: the poll goes
on as a poll of what is left after the prefix's first byte. -/
def Obligations.RxPollLoopSteps : Prop :=
  ∀ s : State,
    decode 0x00000021 = .ok .rxPoll ∧
    ((∀ i, ¬ PrefixAt s.params s.rx i) →
      exec .rxPoll s = .next { s with
        rx := if s.rx.length = 256 then [] else s.rx, code := .noFrame }) ∧
    ∀ k, FirstPrefixAt s.params s.rx k →
      (parseCore s.params (s.rx.drop k) none = .error .insufficientData →
        exec .rxPoll s = .next { s with rx := s.rx.drop k, code := .noFrame }) ∧
      (∀ c, c ≠ .insufficientData → parseCore s.params (s.rx.drop k) none = .error c →
        exec .rxPoll s = exec .rxPoll { s with rx := s.rx.drop (k + 1) }) ∧
      ∀ kind len, parseCore s.params (s.rx.drop k) none = .ok (kind, len) →
        ∃ m, exec .rxPoll s = .next { s with
            rx := s.rx.drop (k + (8 + len))
            fbuf := m
            res := { s.res with
              w0 := BitVec.ofNat 32 (8 + len), w1 := (byteAt s.rx (k + 3)).setWidth 32 }
            code := .ok } ∧
          (∀ a < 8 + len, m.read a = byteAt s.rx (k + a)) ∧
          ∀ a, 8 + len ≤ a → m.read a = s.fbuf.read a

/-- R166 and R251: a poll only discards from the front; a poll of a full buffer frees space; and after
NO_FRAME either no prefix is left and RX is not full, or a prefix stands at the front with fewer
bytes than the frame it declares. -/
def Obligations.PollProgress : Prop :=
  ∀ s t : State, s.rx.length ≤ 256 → exec .rxPoll s = .next t →
    (∃ k, t.rx = s.rx.drop k) ∧
    t.rx.length < 256 ∧
    (t.code = .noFrame →
      (∀ i, ¬ PrefixAt t.params t.rx i) ∨
      (PrefixAt t.params t.rx 0 ∧ t.rx.length < 208 ∧
        parseCore t.params t.rx none = .error .insufficientData))

/-- R164: after an RX_POLL that ends in OK, FBUF[0 .. RES0) holds a frame that ParseCore accepts, and
PARSE_<kind> RES0, for the kind whose type byte is in RES1, ends in OK. -/
def Obligations.DeliveredFramesParse : Prop :=
  ∀ s t : State, s.params.WellFormed → exec .rxPoll s = .next t → t.code = .ok →
    ∃ k, t.res.w1 = (typeByte s.params k).setWidth 32 ∧
      (∃ len, parseCore t.params (t.fbuf.slice 0 t.res.w0.toNat) none = .ok (k, len)) ∧
      ∀ k', t.res.w1 = (typeByte s.params k').setWidth 32 →
        ∃ u, exec (parseCommand k' t.res.w0.toNat) t = .next u ∧ u.code = .ok

/-! ### The filter (43_iir) -/

/-- R181: Valid(fc, fs) in exact real values. -/
def Obligations.ValidParamsMeaning : Prop :=
  ∀ fc fs : F32, validParams fc fs = true ↔
    isfinite fc = true ∧ isfinite fs = true ∧ 0 < f32Value fc ∧ 0 < f32Value fs ∧
      f32Value fc < f32Value fs / 2

/-- R183: IIR_SETPARAMS configures the filter with Coefs(fc, fs), or makes it a passthrough and keeps
the old coefficients; the history is never changed. -/
def Obligations.IirSetparamsConfigures : Prop :=
  ∀ s : State,
    decode 0x00000030 = .ok .iirSetparams ∧
    (validParams s.arg.w0 s.arg.w1 = true →
      exec .iirSetparams s = .next { s with
        iir := { s.iir with
          configured := true
          b0 := coef .b0 s.arg.w0 s.arg.w1
          b1 := coef .b1 s.arg.w0 s.arg.w1
          b2 := coef .b2 s.arg.w0 s.arg.w1
          a1 := coef .a1 s.arg.w0 s.arg.w1
          a2 := coef .a2 s.arg.w0 s.arg.w1 }
        code := .ok }) ∧
    (validParams s.arg.w0 s.arg.w1 = false →
      exec .iirSetparams s = .next { s with
        iir := { s.iir with configured := false }, code := .paramRejected })

/-- R182: each coefficient is the correctly rounded binary32 value of its exact real value, for every
valid fc and fs; and the exact zero A1 of fs = 4·fc is +0.0 (log 6, the model's reading). -/
def Obligations.CoefsCorrectlyRounded : Prop :=
  ∀ fc fs : F32, validParams fc fs = true →
    (∀ c : Coef, IsRNE32 (exactCoef c fc fs) (coef c fc fs)) ∧
    (f32Value fs = 4 * f32Value fc → coef .a1 fc fs = 0x00000000)

/-- R184 and R185: IIR_STEP returns its input bit for bit while unconfigured and the biquad's output
otherwise, in the fixed order of five products and four sums; both histories shift. -/
def Obligations.IirStepFilters : Prop :=
  ∀ s : State,
    decode 0x00000031 = .ok .iirStep ∧
    (s.iir.configured = false →
      exec .iirStep s = .next { s with
        iir := { s.iir with
          x1 := s.arg.w0, x2 := s.iir.x1, y1 := s.arg.w0, y2 := s.iir.y1 }
        res := { s.res with w0 := s.arg.w0 }
        code := .ok }) ∧
    (s.iir.configured = true → ∀ t0 t1 t2 t3 y : F32,
      t0 = fmul s.iir.b0 s.arg.w0 → t1 = fadd t0 (fmul s.iir.b1 s.iir.x1) →
      t2 = fadd t1 (fmul s.iir.b2 s.iir.x2) → t3 = fsub t2 (fmul s.iir.a1 s.iir.y1) →
      y = fsub t3 (fmul s.iir.a2 s.iir.y2) →
      exec .iirStep s = .next { s with
        iir := { s.iir with x1 := s.arg.w0, x2 := s.iir.x1, y1 := y, y2 := s.iir.y1 }
        res := { s.res with w0 := y }
        code := .ok })

/-- R186 and R203: IIR_RESET clears the history and nothing else; PID_RESET clears the integral and
the previous error, re-arms the first step and keeps gains and limits. -/
def Obligations.UnitResetsClearState : Prop :=
  ∀ s : State,
    decode 0x00000032 = .ok .iirReset ∧ decode 0x00000043 = .ok .pidReset ∧
    exec .iirReset s = .next { s with
      iir := { s.iir with x1 := 0x00000000, x2 := 0x00000000, y1 := 0x00000000, y2 := 0x00000000 }
      code := .ok } ∧
    exec .pidReset s = .next { s with
      pid := { s.pid with integ := 0x00000000, prev := 0x00000000, first := true }
      code := .ok }

/-! ### The PID controller (44_pid) -/

/-- R200: PID_SET_GAINS stores three finite gains, or ends in BAD_ARG. -/
def Obligations.PidSetGainsStores : Prop :=
  ∀ s : State,
    decode 0x00000040 = .ok .pidSetGains ∧
    (isfinite s.arg.w0 = true → isfinite s.arg.w1 = true → isfinite s.arg.w2 = true →
      exec .pidSetGains s = .next { s with
        pid := { s.pid with kp := s.arg.w0, ki := s.arg.w1, kd := s.arg.w2 }, code := .ok }) ∧
    ((isfinite s.arg.w0 = false ∨ isfinite s.arg.w1 = false ∨ isfinite s.arg.w2 = false) →
      exec .pidSetGains s = .next { s with code := .badArg })

/-- R201: PID_SET_LIMITS stores two limits that are neither NaN nor negative, −0.0 as +0.0, or ends in
BAD_ARG. -/
def Obligations.PidSetLimitsStores : Prop :=
  ∀ s : State,
    let refused (m : F32) : Prop := isnan m = true ∨ flt m 0x00000000 = true
    let stored (m : F32) : F32 := if m = 0x80000000 then 0x00000000 else m
    decode 0x00000041 = .ok .pidSetLimits ∧
    (¬ refused s.arg.w0 → ¬ refused s.arg.w1 →
      exec .pidSetLimits s = .next { s with
        pid := { s.pid with maxI := stored s.arg.w0, maxO := stored s.arg.w1 }, code := .ok }) ∧
    (refused s.arg.w0 ∨ refused s.arg.w1 →
      exec .pidSetLimits s = .next { s with code := .badArg })

/-- R202: PID_STEP computes the integral, the derivative and the output in their order, or, when dt
is not > 0, returns +0.0 and leaves all other state unchanged. That the error replaces a NaN in PID_PREV
is the model's choice, the pseudocode's against the corner case's (log 17). -/
def Obligations.PidStepComputes : Prop :=
  ∀ s : State,
    decode 0x00000042 = .ok .pidStep ∧
    (fgt s.arg.w1 0x00000000 = false →
      exec .pidStep s = .next { s with
        res := { s.res with w0 := 0x00000000 }, code := .dtIgnored }) ∧
    (fgt s.arg.w1 0x00000000 = true → ∀ i d u : F32,
      i = clampf (fadd s.pid.integ (fmul s.arg.w0 s.arg.w1)) (fneg s.pid.maxI) s.pid.maxI →
      (s.pid.first = true → d = 0x00000000) →
      (s.pid.first = false → d = fdiv (fsub s.arg.w0 s.pid.prev) s.arg.w1) →
      u = fadd (fadd (fmul s.pid.kp s.arg.w0) (fmul s.pid.ki i)) (fmul s.pid.kd d) →
      exec .pidStep s = .next { s with
        pid := { s.pid with integ := i, prev := s.arg.w0, first := false }
        res := { s.res with w0 := clampf u (fneg s.pid.maxO) s.pid.maxO }
        code := .ok })

/-- R206, and R204's bound: after an OK PID_STEP the output and the integral lie within their limits
or are NaN, for any state with legal limits (R34). -/
def Obligations.PidOutputWithinLimits : Prop :=
  ∀ s t : State, s.Inv → exec .pidStep s = .next t → t.code = .ok →
    (isnan t.res.w0 = true ∨
      |f32Value t.res.w0| ≤ f32Value s.pid.maxO) ∧
    (isnan t.pid.integ = true ∨
      |f32Value t.pid.integ| ≤ f32Value t.pid.maxI) ∧
    t.pid.maxI = s.pid.maxI ∧ t.pid.maxO = s.pid.maxO

/-- R205: the first OK step takes +0.0 as its derivative, so its result does not depend on the
previous error, nor, as a number, on a finite KD (a sum of zeros may still change its sign: log 17); a
DT_IGNORED step leaves the first step to come. -/
def Obligations.FirstStepDerivative : Prop :=
  (∀ (s : State) (x kd : F32), s.pid.first = true → fgt s.arg.w1 0x00000000 = true →
    isfinite s.pid.kd = true → isfinite kd = true →
    ∃ t u v, exec .pidStep s = .next t ∧
      exec .pidStep { s with pid := { s.pid with prev := x } } = .next u ∧
      exec .pidStep { s with pid := { s.pid with kd := kd } } = .next v ∧
      u = t ∧
      v.pid = { t.pid with kd := kd } ∧
      units v.res.w0 = units t.res.w0 ∧ isnan v.res.w0 = isnan t.res.w0) ∧
  ∀ s t : State, exec .pidStep s = .next t → t.code = .dtIgnored → t.pid = s.pid

/-- R254: a NaN in the filter's output history makes every later configured output NaN, and a NaN
integral stays through every command but PID_RESET and makes every later output NaN; IIR_RESET and
PID_RESET clear them. The same of a NaN previous error: it comes with a NaN integral, which every command
keeps so, and every later output is NaN. (The register PID_PREV itself takes the next error: log 17.) Two
steps of the passthrough replace the whole history, so a NaN leaves it then. -/
def Obligations.NanPersistence : Prop :=
  (∀ s : State, s.iir.configured = true → isnan s.iir.y1 = true ∨ isnan s.iir.y2 = true →
    ∃ t, exec .iirStep s = .next t ∧
      t.res.w0 = 0x7FC00000 ∧ t.iir.y1 = 0x7FC00000 ∧ t.iir.configured = true) ∧
  (∀ s : State, fgt s.arg.w1 0x00000000 = true →
    isnan s.pid.integ = true ∨ isnan s.arg.w0 = true →
    ∃ t, exec .pidStep s = .next t ∧ t.res.w0 = 0x7FC00000 ∧ t.pid.integ = 0x7FC00000) ∧
  (∀ (i : Instr) (s t : State), i ≠ .pidReset → exec i s = .next t →
    isnan s.pid.integ = true → isnan t.pid.integ = true) ∧
  (∀ (i : Instr) (s t : State), exec i s = .next t →
    (isnan s.pid.prev = true → isnan s.pid.integ = true) →
    isnan t.pid.prev = true → isnan t.pid.integ = true) ∧
  (∀ s : State, (isnan s.pid.prev = true → isnan s.pid.integ = true) →
    isnan s.pid.prev = true → fgt s.arg.w1 0x00000000 = true →
    ∃ t, exec .pidStep s = .next t ∧ t.res.w0 = 0x7FC00000 ∧ isnan t.pid.integ = true) ∧
  (∀ s : State, ∃ t, exec .iirReset s = .next t ∧ isnan t.iir.y1 = false ∧ isnan t.iir.y2 = false) ∧
  (∀ s : State, ∃ t, exec .pidReset s = .next t ∧
    isnan t.pid.integ = false ∧ isnan t.pid.prev = false) ∧
  ∀ (s : State) (a b : Quad), s.iir.configured = false →
    ∃ t u, exec .iirStep { s with arg := a } = .next t ∧
      exec .iirStep { t with arg := b } = .next u ∧
      u.iir.x1 = b.w0 ∧ u.iir.y1 = b.w0 ∧ u.iir.x2 = a.w0 ∧ u.iir.y2 = a.w0

/-- R243: straight after reset the controller returns ±0.0 for every finite error and every finite
positive dt, and its integral stays ±0.0; the filter returns its input bit for bit. With the gains and
limits still those of reset, the same holds of every later step, from any zero integral and finite
previous error, but for two cases in which R202 multiplies zero by infinity and its corner case gives a NaN
(log 17): an error of zero with an infinite dt, where the integral is NaN too, and a derivative that is not
finite. -/
def Obligations.StraightAfterReset : Prop :=
  ∀ (p : Params) (a : Quad), let s := { State.resetWith p with arg := a }
    (isfinite a.w0 = true → isfinite a.w1 = true → fgt a.w1 0x00000000 = true →
      ∃ t, exec .pidStep s = .next t ∧ units t.res.w0 = 0 ∧ isfinite t.res.w0 = true ∧
        units t.pid.integ = 0 ∧ isfinite t.pid.integ = true ∧ t.pid.prev = a.w0) ∧
    (∃ t, exec .iirStep s = .next t ∧ t.res.w0 = a.w0) ∧
    ∀ (first : Bool) (integ prev : F32), isfinite a.w0 = true → fgt a.w1 0x00000000 = true →
      f32Value integ = 0 → isfinite prev = true →
      let s' := { s with pid := { s.pid with integ := integ, prev := prev, first := first } }
      let zeroTimesInf : Prop := f32Value a.w0 = 0 ∧ isinf a.w1 = true
      let finiteRate : Prop := first = true ∨ isfinite (fdiv (fsub a.w0 prev) a.w1) = true
      ∃ t, exec .pidStep s' = .next t ∧
        t.pid = { s'.pid with integ := t.pid.integ, prev := a.w0, first := false } ∧
        (zeroTimesInf → t.res.w0 = 0x7FC00000 ∧ t.pid.integ = 0x7FC00000) ∧
        (¬ zeroTimesInf → f32Value t.pid.integ = 0) ∧
        (¬ zeroTimesInf → finiteRate → f32Value t.res.w0 = 0) ∧
        (¬ finiteRate → t.res.w0 = 0x7FC00000)

/-! ### Binary32 (00_scope R12, R13) -/

/-- R12: each operation on finite operands is the exact result rounded once, to nearest, ties to
even. -/
def Obligations.ArithmeticCorrectlyRounded : Prop :=
  ∀ a b : F32, isfinite a = true → isfinite b = true →
    IsRNE32 ((f32Value a + f32Value b : ℚ) : ℝ) (fadd a b) ∧
    IsRNE32 ((f32Value a - f32Value b : ℚ) : ℝ) (fsub a b) ∧
    IsRNE32 ((f32Value a * f32Value b : ℚ) : ℝ) (fmul a b) ∧
    (f32Value b ≠ 0 → IsRNE32 ((f32Value a / f32Value b : ℚ) : ℝ) (fdiv a b))

/-- R12's operations where one rounding of a real number does not say the result, as IEEE 754 has them
and the model takes them (log 7): infinite operands, a quotient by zero, and the signs of zeros. An
infinity's `f32Value` is ±2^128, so `f32Value a = 0` says that a is a zero. -/
def Obligations.InfinitiesAndZeroSigns : Prop :=
  ∀ a b : F32, isnan a = false → isnan b = false →
    let neg : Bool := fsign a != fsign b
    let infinity (negative : Bool) : F32 := if negative then 0xFF800000 else 0x7F800000
    let zero (negative : Bool) : F32 := if negative then 0x80000000 else 0x00000000
    ((isinf a = true → isinf b = true → fsign a ≠ fsign b → fadd a b = 0x7FC00000) ∧
      (isinf a = true → (isinf b = true → fsign a = fsign b) → fadd a b = infinity (fsign a)) ∧
      (isfinite a = true → isinf b = true → fadd a b = infinity (fsign b)) ∧
      (isfinite a = true → isfinite b = true → f32Value a + f32Value b = 0 →
        fadd a b = zero (fsign a && fsign b))) ∧
    ((isinf a = true → isinf b = true → fsign a = fsign b → fsub a b = 0x7FC00000) ∧
      (isinf a = true → (isinf b = true → fsign a ≠ fsign b) → fsub a b = infinity (fsign a)) ∧
      (isfinite a = true → isinf b = true → fsub a b = infinity (!fsign b)) ∧
      (isfinite a = true → isfinite b = true → f32Value a - f32Value b = 0 →
        fsub a b = zero (fsign a && !fsign b))) ∧
    ((isinf a = true ∨ isinf b = true → f32Value a ≠ 0 → f32Value b ≠ 0 →
        fmul a b = infinity neg) ∧
      (isinf a = true ∨ isinf b = true → f32Value a = 0 ∨ f32Value b = 0 →
        fmul a b = 0x7FC00000) ∧
      (isfinite a = true → isfinite b = true → fsign (fmul a b) = neg)) ∧
    ((isinf a = true → isinf b = true → fdiv a b = 0x7FC00000) ∧
      (isinf a = true → isfinite b = true → fdiv a b = infinity neg) ∧
      (isfinite a = true → isinf b = true → fdiv a b = zero neg) ∧
      (f32Value a = 0 → f32Value b = 0 → fdiv a b = 0x7FC00000) ∧
      (f32Value a ≠ 0 → f32Value b = 0 → fdiv a b = infinity neg) ∧
      (isfinite a = true → isfinite b = true → f32Value b ≠ 0 → fsign (fdiv a b) = neg))

/-- R12, R13 and R69: comparisons are on exact values and false for a NaN, every NaN an operation
produces is 0x7FC00000, fneg flips the sign only, and the cases of clampf. -/
def Obligations.ComparisonsNansAndClamp : Prop :=
  (∀ a b : F32, flt a b = true ↔ isnan a = false ∧ isnan b = false ∧ f32Value a < f32Value b) ∧
  (∀ a b : F32, fgt a b = flt b a) ∧
  (∀ a b : F32, isnan a = true ∨ isnan b = true →
    fadd a b = 0x7FC00000 ∧ fsub a b = 0x7FC00000 ∧ fmul a b = 0x7FC00000 ∧
      fdiv a b = 0x7FC00000) ∧
  (∀ a b : F32,
    (isnan (fadd a b) = true → fadd a b = 0x7FC00000) ∧
    (isnan (fsub a b) = true → fsub a b = 0x7FC00000) ∧
    (isnan (fmul a b) = true → fmul a b = 0x7FC00000) ∧
    (isnan (fdiv a b) = true → fdiv a b = 0x7FC00000)) ∧
  (∀ a : F32, fneg a = a ^^^ 0x80000000 ∧ fsign (fneg a) = !fsign a ∧
    fmagnitude (fneg a) = fmagnitude a) ∧
  ∀ v lo hi : F32, isnan lo = false → isnan hi = false → f32Value lo ≤ f32Value hi →
    (isnan v = true → clampf v lo hi = 0x7FC00000) ∧
    (isnan v = false → f32Value v < f32Value lo → clampf v lo hi = lo) ∧
    (isnan v = false → f32Value hi < f32Value v → clampf v lo hi = hi) ∧
    (isnan v = false → f32Value lo ≤ f32Value v → f32Value v ≤ f32Value hi →
      clampf v lo hi = v)

/-- R113: Quant rounds the clamped value times 32767 once and truncates toward zero, within ±32767,
and takes a NaN to 0; Dequant is the correctly rounded quotient, −1.0 for −32768. (An infinity's
`f32Value` is ±2^128, which the clamp takes to ±1.) -/
def Obligations.QuantisationRounding : Prop :=
  (∀ v : F32, -32767 ≤ (quant v).toInt ∧ (quant v).toInt ≤ 32767) ∧
  (∀ v : F32, isnan v = true → quant v = 0) ∧
  (∀ v : F32, isnan v = false → ∃ p : F32,
    IsRNE32 ((max (-1) (min 1 (f32Value v)) * 32767 : ℚ) : ℝ) p ∧
    (quant v).toInt = if 0 ≤ f32Value p then ⌊f32Value p⌋ else ⌈f32Value p⌉) ∧
  (∀ q : Half, q.toInt ≠ -32768 → IsRNE32 ((q.toInt / 32767 : ℚ) : ℝ) (dequant q)) ∧
  dequant 0x8000 = 0xBF800000 ∧
  quant 0x80000000 = 0 ∧ quant 0x3F000000 = 16383 ∧
  (quant 0x7F800000).toInt = 32767 ∧ (quant 0xFF800000).toInt = -32767

/-! ### Whole-protocol properties (41_framer R127, R128) -/

/-- R127: parsing what was built returns what was given: the telemetry words but for the bits that
BUILD_TLM ignores or clears, and the command's seq with throttle and steering within 2^-14. -/
def Obligations.ParseOfBuildReturnsInput : Prop :=
  (∀ (s : State) (n k : Nat), 23 ≤ n → n ≤ 256 → 23 ≤ k → k ≤ 256 →
    s.arg.w0.extractLsb' 19 5 = 0 →
    ∃ t u, exec (.buildTlm n) s = .next t ∧ exec (.parseTlm k) t = .next u ∧
      t.code = .ok ∧ u.code = .ok ∧
      u.res = { s.arg with w0 := s.arg.w0 &&& 0x00FFFFFF }) ∧
  ∀ (s : State) (n k : Nat), 14 ≤ n → n ≤ 256 → 14 ≤ k → k ≤ 256 →
    isfinite s.arg.w0 = true → |f32Value s.arg.w0| ≤ 1 →
    isfinite s.arg.w1 = true → |f32Value s.arg.w1| ≤ 1 →
    ∃ t u, exec (.buildCmd n) s = .next t ∧ exec (.parseCmd k) t = .next u ∧
      t.code = .ok ∧ u.code = .ok ∧
      u.res.w0 = s.cmdSeq.setWidth 32 ∧
      |f32Value u.res.w1 - f32Value s.arg.w0| ≤ 1 / 2 ^ 14 ∧
      |f32Value u.res.w2 - f32Value s.arg.w1| ≤ 1 / 2 ^ 14

/-- R128: with FBUF holding a frame of kind k, a change of one byte makes the matching PARSE_* name
it: CRC_MISMATCH for a payload or CRC byte, the stage's own code for a prefix, version or type byte,
and for a length byte INVALID_PAYLOAD_LENGTH, INSUFFICIENT_DATA or, for a Log frame whose new length
is allowed and fits, what its CRC at the new place says. -/
def Obligations.CorruptionDetected : Prop :=
  ∀ (s : State) (k : Kind) (payload : List Byte) (n j : Nat) (m : Memory),
    HoldsFrame s.params s.fbuf (typeByte s.params k) payload → LenAllowed k payload.length →
    8 + payload.length ≤ n → n ≤ 256 →
    m.read j ≠ s.fbuf.read j → (∀ a, a ≠ j → m.read a = s.fbuf.read a) →
    let result (c : StatusCode) : Prop :=
      exec (parseCommand k n) { s with fbuf := m } = .next { s with fbuf := m, code := c }
    let newLen := (m.read 4).toNat + 256 * (m.read 5).toNat
    (j < 2 → result .invalidPrefix) ∧
    (j = 2 → result .invalidVersion) ∧
    (j = 3 → result .invalidType) ∧
    (j = 4 ∨ j = 5 →
      (¬ LenAllowed k newLen → result .invalidPayloadLength) ∧
      (LenAllowed k newLen → n < 8 + newLen → result .insufficientData) ∧
      (LenAllowed k newLen → 8 + newLen ≤ n →
        k = .log ∧
        (m.read (7 + newLen) ++ m.read (6 + newLen) ≠ crc16 (m.slice 2 (4 + newLen)) →
          result .crcMismatch) ∧
        (m.read (7 + newLen) ++ m.read (6 + newLen) = crc16 (m.slice 2 (4 + newLen)) →
          exec (parseCommand k n) { s with fbuf := m } = .next { s with
            fbuf := m, res := { s.res with w0 := BitVec.ofNat 32 newLen }, code := .ok }))) ∧
    (6 ≤ j → j < 8 + payload.length → result .crcMismatch)
end

