-- ==== Sys2Proof/Laws/Algebraic.lean ====
section
/-! SUPPORT. The algebra behind Laws/Separation.lean: a polynomial's value at a root of unity that is not
zero is not too small (`one_le_norm_mul_pow`), and the quotients of 43_iir R182, at an angle that is a
rational multiple of π, are not rational but for few values (`b0_ne_rat`, `a1_ne_rat`, `a2_ne_rat`). -/

namespace Sys2Proof.Machine

open Polynomial

/-! ### The norm of a polynomial's value at a root of unity -/

/-- A conjugate of a polynomial's value is its value at the conjugate. -/
theorem algHom_aeval {K : Type} [Field K] [Algebra ℚ K] (σ : K →ₐ[ℚ] ℂ) (η : K) (P : ℤ[X]) :
    σ (aeval η P) = aeval (σ η) P := by
  have := Polynomial.aeval_algHom_apply (σ.toRingHom.toIntAlgHom) η P
  exact this.symm

/-- The norm of the value, the product of its conjugates, is a whole number other than zero. -/
theorem one_le_norm_of_cyclotomic (K : Type) [Field K] [CharZero K] [Algebra ℚ K] {n : ℕ}
    [NeZero n] [IsCyclotomicExtension {n} ℚ K] {ζ : ℂ} (hζ : IsPrimitiveRoot ζ n) {P : ℤ[X]}
    (h0 : aeval ζ P ≠ 0) {B : ℝ} (hB : ∀ z : ℂ, ‖z‖ = 1 → ‖aeval z P‖ ≤ B) (B1 : 1 ≤ B) :
    1 ≤ ‖aeval ζ P‖ * B ^ n := by
  classical
  have : FiniteDimensional ℚ K := IsCyclotomicExtension.finiteDimensional {n} ℚ K
  have hn : n ≠ 0 := NeZero.ne n
  have hη := IsCyclotomicExtension.zeta_spec n ℚ K
  have hirr := Polynomial.cyclotomic.irreducible_rat (Nat.pos_of_ne_zero hn)
  obtain ⟨σ₀, hσ₀⟩ : ∃ σ : K →ₐ[ℚ] ℂ, σ (IsCyclotomicExtension.zeta n ℚ K) = ζ := by
    refine ⟨(hη.embeddingsEquivPrimitiveRoots ℂ hirr).symm
      ⟨ζ, (mem_primitiveRoots (Nat.pos_of_ne_zero hn)).mpr hζ⟩, ?_⟩
    rw [← hη.embeddingsEquivPrimitiveRoots_apply_coe ℂ hirr, Equiv.apply_symm_apply]
  have hcard : Fintype.card (K →ₐ[ℚ] ℂ) ≤ n := by
    rw [AlgHom.card, IsCyclotomicExtension.finrank K hirr]
    exact Nat.totient_le n
  generalize IsCyclotomicExtension.zeta n ℚ K = η at *
  have unit : ∀ σ : K →ₐ[ℚ] ℂ, ‖aeval (σ η) P‖ ≤ B := fun σ => by
    apply hB
    apply Complex.norm_eq_one_of_pow_eq_one _ hn
    rw [← map_pow, hη.pow_eq_one, map_one]
  have hint : IsIntegral ℤ (Algebra.norm ℚ (aeval η P)) := by
    apply Algebra.isIntegral_norm
    exact IsIntegral.of_mem_of_fg _ (hη.isIntegral (Nat.pos_of_ne_zero hn)).fg_adjoin_singleton _
      (Polynomial.aeval_mem_adjoin_singleton ℤ η)
  obtain ⟨N, hN⟩ := IsIntegrallyClosed.isIntegral_iff.mp hint
  have hN0 : N ≠ 0 := by
    rintro rfl
    rw [map_zero] at hN
    rw [← hσ₀, ← algHom_aeval, Algebra.norm_eq_zero_iff.mp hN.symm, map_zero] at h0
    exact h0 rfl
  have hge : 1 ≤ ‖(algebraMap ℚ ℂ) (Algebra.norm ℚ (aeval η P))‖ := by
    rw [← hN]
    simp only [algebraMap_int_eq, eq_intCast, map_intCast, Complex.norm_intCast]
    exact_mod_cast Int.one_le_abs hN0
  rw [Algebra.norm_eq_prod_embeddings ℚ ℂ, norm_prod] at hge
  refine le_trans hge ?_
  rw [← Finset.mul_prod_erase _ _ (Finset.mem_univ σ₀), algHom_aeval, hσ₀]
  refine mul_le_mul_of_nonneg_left ?_ (norm_nonneg _)
  calc _ ≤ B ^ (Finset.univ.erase σ₀).card :=
        le_of_le_of_eq (Finset.prod_le_prod (fun _ _ => norm_nonneg _) fun σ _ => by
          rw [algHom_aeval]; exact unit σ) (Finset.prod_const B)
    _ ≤ B ^ n := pow_le_pow_right₀ B1 (le_trans (Finset.card_le_univ _) hcard)

/-- A value at an n-th root of unity other than zero, of a polynomial bounded by B on the unit circle,
is at least `B^-n`. -/
theorem one_le_norm_mul_pow {n : ℕ} (hn : n ≠ 0) {ζ : ℂ} (hζ : IsPrimitiveRoot ζ n) {P : ℤ[X]}
    (h0 : aeval ζ P ≠ 0) {B : ℝ} (hB : ∀ z : ℂ, ‖z‖ = 1 → ‖aeval z P‖ ≤ B) (B1 : 1 ≤ B) :
    1 ≤ ‖aeval ζ P‖ * B ^ n :=
  have : NeZero n := ⟨hn⟩
  @one_le_norm_of_cyclotomic (CyclotomicField n ℚ) _ _ (CyclotomicField.algebra n ℚ) n _
    (CyclotomicField.isCyclotomicExtension n ℚ) _ hζ _ h0 _ hB B1

/-! ### The quotients are not rational -/

/-- A whole number that is no square is not the square of a rational. -/
theorem rat_sq_ne {N : ℕ} (h : ∀ k ≤ N, k * k ≠ N) (y : ℚ) : (y : ℝ) ^ 2 ≠ N := by
  intro e
  have e' : y ^ 2 = (N : ℚ) := by exact_mod_cast e
  obtain ⟨k, hk⟩ := Rat.isSquare_natCast_iff.mp ⟨y, by rw [← e', sq]⟩
  exact h k (by nlinarith) hk.symm

/-- An algebraic integer that solves a monic quadratic over ℚ is an integer, or the quadratic's
coefficients are. -/
theorem quadratic_integrality {x : ℝ} (hx : IsIntegral ℤ x) {S P : ℚ}
    (h : x ^ 2 - S * x + P = 0) :
    (∃ k : ℤ, x = k) ∨ (∃ k : ℤ, S = k) ∧ ∃ k : ℤ, P = k := by
  by_cases hr : ∃ q : ℚ, x = q
  · exact .inl (hx.exists_int_iff_exists_rat.mp hr)
  refine .inr ?_
  have hxq : IsIntegral ℚ x := hx.tower_top
  have hroot : aeval x (X ^ 2 - C S * X + C P : ℚ[X]) = 0 := by
    simpa using h
  have hdeg : (X ^ 2 - C S * X + C P : ℚ[X]).natDegree = 2 := by compute_degree!
  have hmonic : (X ^ 2 - C S * X + C P : ℚ[X]).Monic := by monicity!
  have hmin : minpoly ℚ x = X ^ 2 - C S * X + C P := by
    refine (eq_of_monic_of_dvd_of_natDegree_le (minpoly.monic hxq) hmonic (minpoly.dvd ℚ x hroot)
      ?_).symm
    rw [hdeg, minpoly.two_le_natDegree_iff hxq]
    rintro ⟨q, hq⟩
    exact hr ⟨q, hq.symm⟩
  rw [minpoly.isIntegrallyClosed_eq_field_fractions' ℚ hx] at hmin
  have h1 := congrArg (coeff · 1) hmin
  have h0 := congrArg (coeff · 0) hmin
  simp [coeff_X] at h0 h1
  exact ⟨⟨-(minpoly ℤ x).coeff 1, by push_cast; linarith⟩, ⟨_, h0.symm⟩⟩

/-- Twice the cosine of a rational multiple of π strictly between 0 and π, where it is a whole number,
is −1, 0 or 1. -/
theorem two_cos_int {θ : ℝ} (h0 : 0 < Real.sin θ) {k : ℤ} (hk : 2 * Real.cos θ = k) :
    k = -1 ∨ k = 0 ∨ k = 1 := by
  have e := Real.sin_sq_add_cos_sq θ
  have h : (k : ℝ) ^ 2 < 4 := by rw [← hk]; nlinarith
  have h' : k ^ 2 < 4 := by exact_mod_cast h
  have : k < 2 := by nlinarith
  have : -2 < k := by nlinarith
  omega

section
variable {r : ℚ} (hs : 0 < Real.sin (r * Real.pi))
include hs

/-- B0's quotient is not a positive rational: 2·cos θ would be an algebraic integer that solves a
quadratic with no fitting whole coefficients. -/
theorem b0_ne_rat {q : ℚ} (hq : 0 < q) :
    1 - Real.cos (r * Real.pi) ≠ q * (2 + √2 * Real.sin (r * Real.pi)) := by
  intro h
  have hx := Real.isIntegral_two_mul_cos_rat_mul_pi r
  have e := Real.sin_sq_add_cos_sq (r * Real.pi)
  have hw : √2 ^ 2 = (2 : ℝ) := Real.sq_sqrt (by norm_num)
  have hk := fun k => two_cos_int hs (k := k)
  generalize hX : 2 * Real.cos (r * Real.pi) = x at hx hk
  have hc : Real.cos (r * Real.pi) = x / 2 := by linarith
  rw [hc] at h e
  generalize Real.sin (r * Real.pi) = s at *
  have quad : (1 + 2 * q ^ 2) * x ^ 2 - 4 * (1 - 2 * q) * x + 4 * ((1 - 2 * q) ^ 2 - 2 * q ^ 2) = 0 := by
    have h' : 1 - 2 * (q : ℝ) - x / 2 = q * √2 * s := by linarith
    have : _ ^ 2 = _ ^ 2 := congrArg (· ^ 2) h'
    linear_combination 4 * this + 4 * (q : ℝ) ^ 2 * s ^ 2 * hw + 8 * (q : ℝ) ^ 2 * e
  have hd : (0 : ℚ) < 1 + 2 * q ^ 2 := by positivity
  have hq' : (0 : ℝ) < q := by exact_mod_cast hq
  have hd' : (0 : ℝ) < 1 + 2 * (q : ℝ) ^ 2 := by positivity
  rcases quadratic_integrality hx (S := 4 * (1 - 2 * q) / (1 + 2 * q ^ 2))
    (P := 4 * ((1 - 2 * q) ^ 2 - 2 * q ^ 2) / (1 + 2 * q ^ 2)) (by
      push_cast
      field_simp
      linear_combination quad) with ⟨k, rfl⟩ | ⟨⟨k, hS⟩, ⟨l, hP⟩⟩
  · rcases hk k rfl with rfl | rfl | rfl
    · exact rat_sq_ne (N := 54) (by decide) (10 * q - 12) (by push_cast at *; linarith)
    · exact rat_sq_ne (N := 2) (by decide) (2 * q - 2) (by push_cast at *; linarith)
    · exact rat_sq_ne (N := 6) (by decide) (10 * q - 4) (by push_cast at *; linarith)
  · rw [div_eq_iff hd.ne'] at hS hP
    have k1 : k < 4 := by
      by_contra hk4
      have : (4 : ℚ) ≤ k := by exact_mod_cast not_lt.mp hk4
      nlinarith
    have k2 : -2 < k := by
      by_contra hk4
      have : (k : ℚ) ≤ -2 := by exact_mod_cast not_lt.mp hk4
      nlinarith [sq_nonneg (q - 1)]
    have hsq : ∀ N : ℕ, (∀ j ≤ N, j * j ≠ N) → ((2 * k * q + 4) ^ 2 : ℚ) ≠ N := fun N hn hN =>
      rat_sq_ne hn (2 * k * q + 4) (by exact_mod_cast hN)
    have key : (2 * k * q + 4) ^ 2 = (16 - 2 * k * (k - 4) : ℚ) := by linear_combination -2 * k * hS
    rw [key] at hsq
    obtain rfl | rfl | rfl | rfl | rfl : k = -1 ∨ k = 0 ∨ k = 1 ∨ k = 2 ∨ k = 3 := by omega
    · exact hsq 6 (by decide) (by norm_num)
    · have : q = 1 / 2 := by push_cast at hS; linarith
      rw [this] at hP
      have : (3 * l : ℚ) = -4 := by linarith
      have : 3 * l = -4 := by exact_mod_cast this
      omega
    · exact hsq 22 (by decide) (by norm_num)
    · exact hsq 24 (by decide) (by norm_num)
    · exact hsq 22 (by decide) (by norm_num)

/-- A1's quotient is no rational but 0. -/
theorem a1_ne_rat {q : ℚ} (hq : q ≠ 0) :
    -4 * Real.cos (r * Real.pi) ≠ q * (2 + √2 * Real.sin (r * Real.pi)) := by
  intro h
  have hx := Real.isIntegral_two_mul_cos_rat_mul_pi r
  have e := Real.sin_sq_add_cos_sq (r * Real.pi)
  have hw : √2 ^ 2 = (2 : ℝ) := Real.sq_sqrt (by norm_num)
  have hw0 : 0 ≤ √2 := Real.sqrt_nonneg _
  have hk := fun k => two_cos_int hs (k := k)
  generalize hX : 2 * Real.cos (r * Real.pi) = x at hx hk
  have hc : Real.cos (r * Real.pi) = x / 2 := by linarith
  rw [hc] at h e
  generalize Real.sin (r * Real.pi) = s at *
  have quad : (8 + q ^ 2) * x ^ 2 + 16 * q * x + 4 * q ^ 2 = 0 := by
    have h' : -2 * x - 2 * (q : ℝ) = q * √2 * s := by linarith
    have : _ ^ 2 = _ ^ 2 := congrArg (· ^ 2) h'
    linear_combination 2 * this + 2 * (q : ℝ) ^ 2 * s ^ 2 * hw + 4 * (q : ℝ) ^ 2 * e
  have hq' : (0 : ℝ) < (q : ℝ) ^ 2 := by positivity
  have hq2 : (0 : ℚ) < q ^ 2 := by positivity
  rcases quadratic_integrality hx (S := -(16 * q / (8 + q ^ 2))) (P := 4 * q ^ 2 / (8 + q ^ 2)) (by
      push_cast
      field_simp
      linear_combination quad) with ⟨k, rfl⟩ | ⟨-, ⟨l, hP⟩⟩
  · rcases hk k rfl with rfl | rfl | rfl
    · exact rat_sq_ne (N := 24) (by decide) (5 * q - 8) (by push_cast at *; linarith)
    · push_cast at quad; linarith
    · exact rat_sq_ne (N := 24) (by decide) (5 * q + 8) (by push_cast at *; linarith)
  · rw [div_eq_iff (by positivity)] at hP
    have l1 : l < 4 := by
      by_contra hl
      have : (4 : ℚ) ≤ l := by exact_mod_cast not_lt.mp hl
      nlinarith
    have l2 : 0 < l := by
      by_contra hl
      have : (l : ℚ) ≤ 0 := by exact_mod_cast not_lt.mp hl
      nlinarith
    have hP' : (4 * (q : ℝ) ^ 2 = l * (8 + (q : ℝ) ^ 2)) := by exact_mod_cast hP
    obtain rfl | rfl | rfl : l = 1 ∨ l = 2 ∨ l = 3 := by omega
    · exact rat_sq_ne (N := 24) (by decide) (3 * q) (by push_cast at *; linarith)
    · exact rat_sq_ne (N := 8) (by decide) q (by push_cast at *; linarith)
    · exact rat_sq_ne (N := 24) (by decide) q (by push_cast at *; linarith)

/-- A2's quotient is no rational but 1/3: √2·sin θ would be rational, so 2·cos 2θ a whole number. -/
theorem a2_ne_rat {q : ℚ} (hq : q ≠ 1 / 3) :
    2 - √2 * Real.sin (r * Real.pi) ≠ q * (2 + √2 * Real.sin (r * Real.pi)) := by
  intro h
  have hw : √2 ^ 2 = (2 : ℝ) := Real.sq_sqrt (by norm_num)
  have hu : 0 < √2 * Real.sin (r * Real.pi) := by positivity
  have hcos : 2 * Real.cos ((2 * r : ℚ) * Real.pi) = 2 - 2 * (√2 * Real.sin (r * Real.pi)) ^ 2 := by
    have e := Real.sin_sq_add_cos_sq (r * Real.pi)
    push_cast
    rw [mul_assoc, Real.cos_two_mul]
    linear_combination 4 * e + 2 * Real.sin (r * Real.pi) ^ 2 * hw
  have hint := Real.isIntegral_two_mul_cos_rat_mul_pi (2 * r)
  rw [hcos] at hint
  have hb := Real.neg_one_le_cos ((2 * r : ℚ) * Real.pi)
  generalize Real.cos ((2 * r : ℚ) * Real.pi) = c at *
  generalize √2 * Real.sin (r * Real.pi) = u at *
  have hq1 : (q : ℝ) + 1 ≠ 0 := fun h0 => by
    have : (q : ℝ) = -1 := by linarith
    rw [this] at h
    linarith
  obtain ⟨y, rfl⟩ : ∃ y : ℚ, u = y :=
    ⟨2 * (1 - q) / (q + 1), by push_cast; rw [eq_div_iff hq1]; linarith⟩
  obtain ⟨k, hk⟩ := hint.exists_int_iff_exists_rat.mp ⟨2 - 2 * y ^ 2, by push_cast; rfl⟩
  have k1 : k < 2 := by
    have : (k : ℝ) < 2 := by rw [← hk]; nlinarith
    exact_mod_cast this
  have k2 : -2 ≤ k := by
    have : (-2 : ℝ) ≤ k := by rw [← hk, ← hcos]; linarith
    exact_mod_cast this
  have hsq : ((2 * y : ℚ) : ℝ) ^ 2 = 4 - 2 * k := by push_cast; linarith
  obtain rfl | rfl | rfl | rfl : k = -2 ∨ k = -1 ∨ k = 0 ∨ k = 1 := by omega
  · exact rat_sq_ne (N := 8) (by decide) (2 * y) (by rw [hsq]; norm_num)
  · exact rat_sq_ne (N := 6) (by decide) (2 * y) (by rw [hsq]; norm_num)
  · have : (y : ℝ) = 1 := by push_cast at hk; nlinarith
    rw [this] at h
    apply hq
    have : (q : ℝ) = 1 / 3 := by linarith
    have h3 : ((q : ℚ) : ℝ) = ((1 / 3 : ℚ) : ℝ) := by push_cast; exact this
    exact_mod_cast h3
  · exact rat_sq_ne (N := 2) (by decide) (2 * y) (by rw [hsq]; norm_num)

end

end Sys2Proof.Machine
end

