-- ==== Sys2Proof/Laws/Float32.lean ====
section
/-! SUPPORT. The fields of an f32, the value its magnitude bits stand for, and the small facts about
the primitives of 00_scope R12 and R13. -/

namespace Sys2Proof.Machine

/-! ### Sign and magnitude -/

theorem fmagnitude_lt (a : F32) : fmagnitude a < 2 ^ 31 := (a.extractLsb' 0 31).isLt

theorem toNat_eq_fields (a : F32) : a.toNat = (if fsign a then 2 ^ 31 else 0) + fmagnitude a := by
  have h : a.toNat < 2 ^ 32 := a.isLt
  have hs : fsign a = decide (2 ^ 31 ≤ a.toNat) := by
    simp only [fsign, BitVec.getLsbD, Nat.testBit_eq_decide_div_mod_eq]
    congr 1
    apply propext
    omega
  simp only [fmagnitude, BitVec.extractLsb'_toNat, Nat.shiftRight_zero, hs, decide_eq_true_eq]
  split <;> omega

/-- The two fields determine the pattern. -/
theorem f32_ext {a b : F32} (hs : fsign a = fsign b) (hm : fmagnitude a = fmagnitude b) : a = b := by
  apply BitVec.eq_of_toNat_eq
  rw [toNat_eq_fields, toNat_eq_fields, hs, hm]

theorem fmagnitude_mkF32 (neg : Bool) {m : Nat} (h : m < 2 ^ 31) : fmagnitude (mkF32 neg m) = m := by
  have h0 : mkF32 neg m = BitVec.ofBool neg ++ BitVec.ofNat 31 m := rfl
  rw [fmagnitude, h0, show BitVec.extractLsb' 0 31 (BitVec.ofBool neg ++ BitVec.ofNat 31 m) =
    BitVec.ofNat 31 m by
      apply BitVec.eq_of_getLsbD_eq
      intro i hi
      rw [BitVec.getLsbD_extractLsb', BitVec.getLsbD_append]
      simp [hi]]
  rw [BitVec.toNat_ofNat, Nat.mod_eq_of_lt h]

theorem fsign_mkF32 (neg : Bool) (m : Nat) : fsign (mkF32 neg m) = neg := by
  rw [fsign, mkF32, BitVec.getLsbD_append]
  simp

@[simp] theorem mkF32_fields (a : F32) : mkF32 (fsign a) (fmagnitude a) = a :=
  f32_ext (fsign_mkF32 _ _) (fmagnitude_mkF32 _ (fmagnitude_lt a))

theorem getLsbD_zero_mkF32 (neg : Bool) (m : Nat) :
    (mkF32 neg m).getLsbD 0 = decide (m % 2 = 1) := by
  rw [mkF32, BitVec.getLsbD_append, if_pos (by decide), BitVec.getLsbD_ofNat]
  simp [Nat.testBit_zero]

/-! ### Negation (R12: it flips bit 31) -/

@[simp] theorem fsign_fneg (a : F32) : fsign (fneg a) = !fsign a := by
  simp only [fsign, fneg, BitVec.getLsbD_xor]
  simp

@[simp] theorem fmagnitude_fneg (a : F32) : fmagnitude (fneg a) = fmagnitude a := by
  simp only [fmagnitude]
  congr 1
  apply BitVec.eq_of_getLsbD_eq
  intro i hi
  simp only [fneg, BitVec.getLsbD_extractLsb', BitVec.getLsbD_xor, Nat.zero_add]
  interval_cases i <;> simp

@[simp] theorem isnan_fneg (a : F32) : isnan (fneg a) = isnan a := by simp [isnan]
@[simp] theorem isinf_fneg (a : F32) : isinf (fneg a) = isinf a := by simp [isinf]
@[simp] theorem isfinite_fneg (a : F32) : isfinite (fneg a) = isfinite a := by simp [isfinite]
@[simp] theorem unitsAbs_fneg (a : F32) : unitsAbs (fneg a) = unitsAbs a := by simp [unitsAbs]

@[simp] theorem units_fneg (a : F32) : units (fneg a) = -units a := by
  cases h : fsign a <;> simp [units, h]

/-! ### Classes -/

theorem isfinite_iff (a : F32) : isfinite a = true ↔ fmagnitude a < infMagnitude := by
  simp [isfinite]

/-- An f32 is exactly one of finite, infinite, NaN. -/
theorem f32_class (a : F32) :
    (isfinite a = true ∧ isinf a = false ∧ isnan a = false) ∨
    (isfinite a = false ∧ isinf a = true ∧ isnan a = false) ∨
    (isfinite a = false ∧ isinf a = false ∧ isnan a = true) := by
  simp only [isfinite, isinf, isnan, decide_eq_true_eq, decide_eq_false_iff_not, beq_iff_eq,
    beq_eq_false_iff_ne]
  omega

theorem isnan_of_isfinite {a : F32} (h : isfinite a = true) : isnan a = false := by
  rcases f32_class a with h' | h' | h' <;> simp_all

theorem isinf_of_isfinite {a : F32} (h : isfinite a = true) : isinf a = false := by
  rcases f32_class a with h' | h' | h' <;> simp_all

@[simp] theorem isnan_canonicalNaN : isnan canonicalNaN = true := by decide
@[simp] theorem isnan_posZero : isnan posZero = false := by decide
@[simp] theorem isnan_negZero : isnan negZero = false := by decide
@[simp] theorem units_posZero : units posZero = 0 := by decide
@[simp] theorem units_negZero : units negZero = 0 := by decide

theorem roundMagnitude_le (num den : Nat) : roundMagnitude num den ≤ infMagnitude := Nat.min_le_right _ _

theorem fmagnitude_rne32 (neg : Bool) (num den : Nat) :
    fmagnitude (rne32 neg num den) = roundMagnitude num den :=
  fmagnitude_mkF32 neg (lt_of_le_of_lt (roundMagnitude_le num den) (by decide))

@[simp] theorem fsign_rne32 (neg : Bool) (num den : Nat) : fsign (rne32 neg num den) = neg :=
  fsign_mkF32 _ _

/-- Rounding never gives a NaN. -/
@[simp] theorem isnan_rne32 (neg : Bool) (num den : Nat) : isnan (rne32 neg num den) = false := by
  have := roundMagnitude_le num den
  simp only [isnan, fmagnitude_rne32, decide_eq_false_iff_not]
  omega

/-! ### The value of a magnitude -/

theorem unitsAbs_eq_zero_iff (a : F32) : unitsAbs a = 0 ↔ fmagnitude a = 0 := by
  simp only [unitsAbs]
  split
  · next h => omega
  · next h =>
    constructor
    · intro h0
      rcases Nat.mul_eq_zero.mp h0 with h1 | h1
      · omega
      · exact absurd h1 (by positivity)
    · intro h0
      rw [h0] at h
      exact absurd (by norm_num) h

/-- A magnitude with exponent field `e` past the lowest binade, or with none, and significand `m`
counts `m · 2^e` units; the carry m = 2^24 included. -/
theorem unitsAbs_of_fields {a : F32} {e m : Nat} (h : fmagnitude a = e * 2 ^ 23 + m)
    (hm : m ≤ 2 ^ 24) (he : e = 0 ∨ 2 ^ 23 ≤ m) : unitsAbs a = m * 2 ^ e := by
  simp only [unitsAbs, h]
  rcases Nat.lt_or_ge m (2 ^ 23) with h1 | h1
  · obtain rfl : e = 0 := by omega
    rw [if_pos (by omega)]
    omega
  · rcases Nat.lt_or_ge m (2 ^ 24) with h2 | h2
    · rw [if_neg (by omega), show (e * 2 ^ 23 + m) / 2 ^ 23 - 1 = e by omega,
        show 2 ^ 23 + (e * 2 ^ 23 + m) % 2 ^ 23 = m by omega]
    · obtain rfl : m = 2 ^ 24 := by omega
      rw [if_neg (by omega), show (e * 2 ^ 23 + 2 ^ 24) / 2 ^ 23 - 1 = e + 1 by omega,
        show 2 ^ 23 + (e * 2 ^ 23 + 2 ^ 24) % 2 ^ 23 = 2 ^ 23 by omega, pow_succ]
      ring

/-- Every magnitude is a significand below 2^24 times a power of two, normalised above the lowest
binade. -/
theorem unitsAbs_fields (a : F32) : ∃ e m, fmagnitude a = e * 2 ^ 23 + m ∧ m < 2 ^ 24 ∧
    (e = 0 ∨ 2 ^ 23 ≤ m) ∧ unitsAbs a = m * 2 ^ e := by
  rcases Nat.eq_zero_or_pos (fmagnitude a / 2 ^ 23) with h | h
  · exact ⟨0, fmagnitude a, by omega, by omega, .inl rfl,
      unitsAbs_of_fields (e := 0) (by omega) (by omega) (.inl rfl)⟩
  · refine ⟨fmagnitude a / 2 ^ 23 - 1, 2 ^ 23 + fmagnitude a % 2 ^ 23, by omega, by omega,
      .inr (by omega), ?_⟩
    exact unitsAbs_of_fields (by omega) (by omega) (.inr (by omega))

/-! ### Clamping (R13) -/

/-- All that `clampf` can return. -/
theorem clampf_cases (v lo hi : F32) :
    (isnan v = true ∧ clampf v lo hi = canonicalNaN) ∨
    (isnan v = false ∧ flt v lo = true ∧ clampf v lo hi = lo) ∨
    (isnan v = false ∧ flt v lo = false ∧ flt hi v = true ∧ clampf v lo hi = hi) ∨
    (isnan v = false ∧ flt v lo = false ∧ flt hi v = false ∧ clampf v lo hi = v) := by
  unfold clampf fgt
  cases h1 : isnan v <;> cases h2 : flt v lo <;> cases h3 : flt hi v <;> simp

theorem flt_iff (a b : F32) :
    flt a b = true ↔ isnan a = false ∧ isnan b = false ∧ units a < units b := by
  simp [flt, and_assoc]

end Sys2Proof.Machine
end

