-- ==== Sys2Proof/Laws/Rounding.lean ====
section
/-! SUPPORT. `rne32` rounds to the nearest binary32 value, ties to even (00_scope R12), and a real
number between two that round to the same value rounds to it too. -/

namespace Sys2Proof.Machine

/-! ### Rounding a fraction to a whole number -/

/-- `divNearestEven` is within half of the quotient, and even where it is exactly half away. -/
theorem divNearestEven_spec (num den : Nat) (h : 0 < den) :
    2 * |(num : ℤ) - divNearestEven num den * den| ≤ den ∧
      (2 * |(num : ℤ) - divNearestEven num den * den| = den → divNearestEven num den % 2 = 0) := by
  have hq : (num : ℤ) = (num / den : ℕ) * den + (num % den : ℕ) := by
    exact_mod_cast (Nat.div_add_mod' num den).symm
  have hr : num % den < den := Nat.mod_lt _ h
  generalize num / den = q at hq
  generalize hrr : num % den = r at hq hr
  have h1 : divNearestEven num den = if den < 2 * r ∨ (2 * r = den ∧ (num / den) % 2 = 1)
      then num / den + 1 else num / den := by
    simp only [divNearestEven, hrr]
  have h2 : num / den = q := by
    have : num = den * q + r := by
      have : (num : ℤ) = ((den * q + r : ℕ) : ℤ) := by rw [hq]; push_cast; ring
      exact_mod_cast this
    rw [this, Nat.mul_add_div h, Nat.div_eq_of_lt hr, Nat.add_zero]
  rw [h1, h2]
  split
  · next hc =>
    have e : (num : ℤ) - ((q + 1 : ℕ) : ℤ) * den = (r : ℤ) - den := by rw [hq]; push_cast; ring
    rw [e, abs_of_neg (by omega)]
    exact ⟨by omega, fun h' => by omega⟩
  · next hc =>
    have e : (num : ℤ) - (q : ℤ) * den = (r : ℤ) := by rw [hq]; ring
    rw [e, abs_of_nonneg (by omega)]
    exact ⟨by omega, fun h' => by omega⟩

theorem divNearestEven_bounds (num den : Nat) :
    num / den ≤ divNearestEven num den ∧ divNearestEven num den ≤ num / den + 1 := by
  unfold divNearestEven
  simp only
  split <;> omega

/-- `divNearestEven` as a statement about the real quotient z: no whole number is nearer to z, and one
equally near leaves an even choice. -/
theorem divNearestEven_nearest (num den : Nat) (h : 0 < den) (j : ℤ) :
    |(num / den : ℝ) - divNearestEven num den| ≤ |(num / den : ℝ) - j| ∧
      (j ≠ divNearestEven num den → |(num / den : ℝ) - j| = |(num / den : ℝ) - divNearestEven num den| →
        divNearestEven num den % 2 = 0) := by
  obtain ⟨h1, h2⟩ := divNearestEven_spec num den h
  set m : ℕ := divNearestEven num den
  have hd : (0 : ℝ) < den := by exact_mod_cast h
  have scale : ∀ k : ℤ, |(num / den : ℝ) - k| = |(num : ℤ) - k * den| / den := by
    intro k
    rw [show (num / den : ℝ) - k = ((num : ℝ) - k * den) / den by field_simp, abs_div, abs_of_pos hd]
    push_cast
    rfl
  have sm : |(num / den : ℝ) - m| = |(num : ℤ) - m * den| / den := by
    have := scale m
    simpa using this
  have key : j ≠ m → (den : ℤ) - |(num : ℤ) - m * den| ≤ |(num : ℤ) - j * den| := by
    intro hj
    have h3 : (1 : ℤ) ≤ |(j : ℤ) - m| := Int.one_le_abs (sub_ne_zero.mpr hj)
    have h4 : |((j : ℤ) - m) * den| ≤ |(num : ℤ) - m * den| + |(num : ℤ) - j * den| := by
      rw [show ((j : ℤ) - m) * den = ((num : ℤ) - m * den) - ((num : ℤ) - j * den) by ring]
      exact abs_sub _ _
    rw [abs_mul, abs_of_pos (show (0 : ℤ) < den by exact_mod_cast h)] at h4
    nlinarith [show (0 : ℤ) < den by exact_mod_cast h]
  constructor
  · by_cases hj : j = m
    · rw [hj]; simp
    · have h3 : |(num : ℤ) - m * den| ≤ |(num : ℤ) - j * den| := by have := key hj; omega
      rw [sm, scale]
      exact div_le_div_of_nonneg_right (by exact_mod_cast h3) hd.le
  · intro hj he
    have := key hj
    rw [sm, scale, div_left_inj' hd.ne'] at he
    have he' : |(num : ℤ) - j * den| = |(num : ℤ) - m * den| := by exact_mod_cast he
    exact h2 (by omega)

/-! ### Rounding to a magnitude -/

/-- The significand and exponent `roundMagnitude` works with. The quotient is below 2^24 quanta, and
at least 2^23 above the lowest binade. -/
theorem roundMagnitude_fields (num den : Nat) (h : 0 < den) :
    ∃ e m, roundMagnitude num den = min (e * 2 ^ 23 + m) infMagnitude ∧
      m = divNearestEven num (den * 2 ^ e) ∧ m ≤ 2 ^ 24 ∧ (e = 0 ∨ 2 ^ 23 ≤ m) ∧
      num < den * 2 ^ e * 2 ^ 24 ∧ (e = 0 ∨ den * 2 ^ e * 2 ^ 23 ≤ num) := by
  set e := (num / den).log2 - 23 with he
  have hpos : 0 < den * 2 ^ e := by positivity
  have up : num / den < 2 ^ (e + 24) := by
    rcases Nat.eq_zero_or_pos (num / den) with h0 | h0
    · rw [h0]; positivity
    · exact lt_of_lt_of_le (Nat.lt_log2_self) (Nat.pow_le_pow_right (by norm_num) (by omega))
  have up' : num < den * 2 ^ e * 2 ^ 24 := by
    have := (Nat.div_lt_iff_lt_mul h).mp up
    calc num < 2 ^ (e + 24) * den := this
      _ = den * 2 ^ e * 2 ^ 24 := by rw [pow_add]; ring
  have lo : e = 0 ∨ den * 2 ^ e * 2 ^ 23 ≤ num := by
    rcases Nat.eq_zero_or_pos e with h0 | h0
    · exact .inl h0
    · right
      have hq : num / den ≠ 0 := by
        intro h1
        rw [h1] at he
        simp at he
        omega
      have h2 : 2 ^ (e + 23) ≤ num / den := by
        have := Nat.log2_self_le hq
        rwa [show (num / den).log2 = e + 23 by omega] at this
      have := (Nat.le_div_iff_mul_le h).mp h2
      calc den * 2 ^ e * 2 ^ 23 = 2 ^ (e + 23) * den := by rw [pow_add]; ring
        _ ≤ num := this
  have hb := divNearestEven_bounds num (den * 2 ^ e)
  refine ⟨e, divNearestEven num (den * 2 ^ e), rfl, rfl, ?_, ?_, up', lo⟩
  · have : num / (den * 2 ^ e) < 2 ^ 24 := (Nat.div_lt_iff_lt_mul hpos).mpr (by
      rw [mul_comm]; exact up')
    omega
  · rcases lo with h0 | h0
    · exact .inl h0
    · right
      refine le_trans ?_ hb.1
      exact (Nat.le_div_iff_mul_le hpos).mpr (by rw [mul_comm]; exact h0)

theorem f32Value_eq (a : F32) :
    ((f32Value a : ℚ) : ℝ) = (if fsign a then -1 else 1) * (unitsAbs a / 2 ^ 149) := by
  unfold f32Value units
  split <;> push_cast <;> ring

theorem abs_f32Value (a : F32) : |((f32Value a : ℚ) : ℝ)| = unitsAbs a / 2 ^ 149 := by
  rw [f32Value_eq, abs_mul]
  split <;> simp [abs_of_nonneg, div_nonneg]

/-- A finite magnitude is a multiple of a quantum 2^e units, or lies in a lower binade. -/
theorem unitsAbs_multiple (b : F32) (e : Nat) :
    (∃ j : ℕ, unitsAbs b = j * 2 ^ e) ∨ unitsAbs b < 2 ^ 23 * 2 ^ e := by
  obtain ⟨e', m', -, hm, -, hu⟩ := unitsAbs_fields b
  rcases Nat.lt_or_ge e' e with h | h
  · right
    rw [hu]
    calc m' * 2 ^ e' < 2 ^ 24 * 2 ^ e' := by
          apply Nat.mul_lt_mul_of_pos_right hm (by positivity)
      _ = 2 ^ 23 * 2 ^ (e' + 1) := by rw [pow_succ]; ring
      _ ≤ 2 ^ 23 * 2 ^ e := Nat.mul_le_mul_left _ (Nat.pow_le_pow_right (by norm_num) h)
  · left
    exact ⟨m' * 2 ^ (e' - e), by rw [hu, mul_assoc, ← pow_add]; congr 2; omega⟩

theorem divNearestEven_half (num den : Nat) (h : 0 < den) :
    |(num / den : ℝ) - divNearestEven num den| ≤ 1 / 2 := by
  obtain ⟨h1, -⟩ := divNearestEven_spec num den h
  have hd : (0 : ℝ) < den := by exact_mod_cast h
  rw [show (num / den : ℝ) - divNearestEven num den =
    ((num : ℝ) - divNearestEven num den * den) / den by field_simp, abs_div, abs_of_pos hd,
    div_le_div_iff₀ hd (by norm_num)]
  have : (2 : ℝ) * |(num : ℝ) - divNearestEven num den * den| ≤ den := by exact_mod_cast h1
  linarith

/-- The unsigned core of rounding, in units: with y the exact value, the rounded significand m and
quantum 2^e are at least as near to y as any finite magnitude, and evenly so on a tie. -/
theorem rounded_nearest {num den e m : Nat} (h : 0 < den) (hm : m = divNearestEven num (den * 2 ^ e))
    (lo : e = 0 ∨ den * 2 ^ e * 2 ^ 23 ≤ num) (u : Nat)
    (hu : (∃ j : ℕ, u = j * 2 ^ e) ∨ u < 2 ^ 23 * 2 ^ e) :
    |(num / den : ℝ) - (m * 2 ^ e : ℕ)| ≤ |(num / den : ℝ) - u| ∧
      (u ≠ m * 2 ^ e → |(num / den : ℝ) - u| = |(num / den : ℝ) - (m * 2 ^ e : ℕ)| → m % 2 = 0) := by
  have hd : (0 : ℝ) < den := by exact_mod_cast h
  have he : (0 : ℝ) < 2 ^ e := by positivity
  have hpos : 0 < den * 2 ^ e := by positivity
  set z : ℝ := num / (den * 2 ^ e : ℕ) with hz
  have hy : (num / den : ℝ) = z * 2 ^ e := by rw [hz]; push_cast; field_simp
  have near := divNearestEven_nearest num (den * 2 ^ e) hpos
  rw [← hm, ← hz] at near
  have scale : ∀ v : ℝ, |(num / den : ℝ) - v * 2 ^ e| = |z - v| * 2 ^ e := fun v => by
    rw [hy, ← sub_mul, abs_mul, abs_of_pos he]
  have sm : |(num / den : ℝ) - (m * 2 ^ e : ℕ)| = |z - m| * 2 ^ e := by
    rw [← scale]; push_cast; rfl
  rcases hu with ⟨j, rfl⟩ | hlt
  · obtain ⟨n1, n2⟩ := near j
    have sj : |(num / den : ℝ) - (j * 2 ^ e : ℕ)| = |z - j| * 2 ^ e := by
      rw [← scale]; push_cast; rfl
    rw [sm, sj]
    refine ⟨mul_le_mul_of_nonneg_right (by exact_mod_cast n1) he.le, fun hne heq => n2 ?_ ?_⟩
    · intro hj
      exact hne (by rw [show j = m by exact_mod_cast hj])
    · exact_mod_cast mul_right_cancel₀ he.ne' heq
  · rcases lo with rfl | hge
    · obtain ⟨n1, n2⟩ := near u
      have su : |(num / den : ℝ) - u| = |z - u| * 2 ^ 0 := by rw [← scale]; simp
      rw [sm, su]
      refine ⟨mul_le_mul_of_nonneg_right (by exact_mod_cast n1) he.le, fun hne heq => n2 ?_ ?_⟩
      · intro hj
        exact hne (by rw [show u = m by exact_mod_cast hj]; simp)
      · exact_mod_cast mul_right_cancel₀ he.ne' heq
    · have zge : (2 : ℝ) ^ 23 ≤ z := by
        rw [hz, le_div_iff₀ (by exact_mod_cast hpos)]
        have : ((den * 2 ^ e * 2 ^ 23 : ℕ) : ℝ) ≤ num := by exact_mod_cast hge
        push_cast at this ⊢
        linarith
      have n1 := (near (2 ^ 23)).1
      have hu' : (u : ℝ) < 2 ^ 23 * 2 ^ e := by exact_mod_cast hlt
      have strict : |(num / den : ℝ) - (m * 2 ^ e : ℕ)| < |(num / den : ℝ) - u| := by
        rw [sm]
        have e1 : |z - m| ≤ z - 2 ^ 23 := by
          rwa [Int.cast_pow, Int.cast_ofNat, abs_of_nonneg (sub_nonneg.mpr zge)] at n1
        calc |z - m| * 2 ^ e ≤ (z - 2 ^ 23) * 2 ^ e := mul_le_mul_of_nonneg_right e1 he.le
          _ = num / den - 2 ^ 23 * 2 ^ e := by rw [hy]; ring
          _ < num / den - u := by linarith
          _ ≤ |(num / den : ℝ) - u| := le_abs_self _
      exact ⟨strict.le, fun _ heq => absurd heq strict.ne'⟩

theorem two_pow_253 : (2 : ℝ) ^ 253 = 2 * 2 ^ 252 := (pow_succ' (2 : ℝ) 252)
theorem two_pow_276 : (2 : ℝ) ^ 276 = 2 ^ 24 * 2 ^ 252 := pow_add (2 : ℝ) 24 252
theorem two_pow_277 : (2 : ℝ) ^ 277 = 2 ^ 25 * 2 ^ 252 := pow_add (2 : ℝ) 25 252

theorem rne32_overflow {num den e m : Nat} (h : 0 < den)
    (hm : m = divNearestEven num (den * 2 ^ e)) (hm24 : m ≤ 2 ^ 24) (hem : e = 0 ∨ 2 ^ 23 ≤ m)
    (up : num < den * 2 ^ e * 2 ^ 24) (lo : e = 0 ∨ den * 2 ^ e * 2 ^ 23 ≤ num) :
    infMagnitude ≤ e * 2 ^ 23 + m ↔ (2 ^ 277 - 2 ^ 252 : ℝ) ≤ num / den := by
  have hd : (0 : ℝ) < den := by exact_mod_cast h
  have hpos : 0 < den * 2 ^ e := by positivity
  have hinf : infMagnitude = 255 * 2 ^ 23 := by decide
  have upR : (num / den : ℝ) < 2 ^ (e + 24) := by
    rw [div_lt_iff₀ hd]
    calc (num : ℝ) < ((den * 2 ^ e * 2 ^ 24 : ℕ) : ℝ) := by exact_mod_cast up
      _ = 2 ^ (e + 24) * den := by push_cast; rw [pow_add]; ring
  have half := divNearestEven_half num (den * 2 ^ e) hpos
  have near := divNearestEven_nearest num (den * 2 ^ e) hpos (2 ^ 24)
  rw [← hm] at half near
  rcases Nat.lt_trichotomy e 253 with hlt | rfl | hgt
  · constructor
    · intro hc; omega
    · intro hc
      exfalso
      have : (2 : ℝ) ^ (e + 24) ≤ 2 ^ 276 := pow_le_pow_right₀ (by norm_num) (by omega)
      rw [two_pow_276] at this
      rw [two_pow_277] at hc
      have hA : (0 : ℝ) < 2 ^ 252 := by positivity
      generalize (2 : ℝ) ^ 252 = A at *
      linarith
  · have hz : (num / (den * 2 ^ 253 : ℕ) : ℝ) = num / den / 2 ^ 253 := by
      rw [Nat.cast_mul, Nat.cast_pow, Nat.cast_ofNat, div_div]
    rw [hz] at half near
    have key : (2 ^ 277 - 2 ^ 252 : ℝ) ≤ num / den ↔ (2 ^ 24 - 1 / 2 : ℝ) ≤ num / den / 2 ^ 253 := by
      have hp : (0 : ℝ) < 2 ^ 253 := by positivity
      rw [le_div_iff₀ hp, two_pow_277, two_pow_253,
        show (2 ^ 24 - 1 / 2 : ℝ) * (2 * 2 ^ 252) = 2 ^ 25 * 2 ^ 252 - 2 ^ 252 by
          generalize (2 : ℝ) ^ 252 = A
          ring]
    rw [key]
    constructor
    · intro hc
      obtain rfl : m = 2 ^ 24 := by omega
      push_cast at half
      have := (abs_le.mp half).1
      linarith
    · intro hc
      by_contra hlt
      have hmle : m ≤ 2 ^ 24 - 1 := by omega
      have hmR : (m : ℝ) ≤ 2 ^ 24 - 1 := by
        have : ((m : ℕ) : ℝ) ≤ ((2 ^ 24 - 1 : ℕ) : ℝ) := by exact_mod_cast hmle
        norm_num at this ⊢
        exact this
      have h2 := (abs_le.mp half).2
      have hmeq : (m : ℝ) = 2 ^ 24 - 1 := by linarith
      have hzeq : (num / den / 2 ^ 253 : ℝ) = 2 ^ 24 - 1 / 2 := by linarith
      have hme : m = 2 ^ 24 - 1 := by
        have : ((m : ℕ) : ℝ) = ((2 ^ 24 - 1 : ℕ) : ℝ) := by rw [hmeq]; norm_num
        exact_mod_cast this
      have : m % 2 = 0 := near.2 (by omega) (by
        rw [hzeq, hmeq]; norm_num [abs_of_pos, abs_of_neg])
      omega
  · constructor
    · intro _
      have hge : den * 2 ^ e * 2 ^ 23 ≤ num := by rcases lo with h0 | h0 <;> [omega; exact h0]
      have : (2 : ℝ) ^ 277 ≤ num / den := by
        rw [le_div_iff₀ hd]
        calc (2 : ℝ) ^ 277 * den ≤ 2 ^ (e + 23) * den := by
              apply mul_le_mul_of_nonneg_right _ hd.le
              exact pow_le_pow_right₀ (by norm_num) (by omega)
          _ = ((den * 2 ^ e * 2 ^ 23 : ℕ) : ℝ) := by push_cast; rw [pow_add]; ring
          _ ≤ num := by exact_mod_cast hge
      have : (0 : ℝ) < 2 ^ 252 := by positivity
      exact le_trans (sub_le_self _ this.le) ‹(2 : ℝ) ^ 277 ≤ num / den›
    · intro _; omega

/-- `rne32` is RNE32 (R12): correct rounding of the exact value ± num/den units of 2^-149. -/
theorem rne32_isRNE (neg : Bool) (num den : Nat) (h : 0 < den) :
    IsRNE32 ((if neg then -1 else 1) * ((num / den : ℝ) / 2 ^ 149)) (rne32 neg num den) := by
  obtain ⟨e, m, hr, hm, hm24, hem, up, lo⟩ := roundMagnitude_fields num den h
  have hd : (0 : ℝ) < den := by exact_mod_cast h
  set r := rne32 neg num den with hrdef
  set y : ℝ := num / den with hy
  have hy0 : 0 ≤ y := by positivity
  have hmag : fmagnitude r = min (e * 2 ^ 23 + m) infMagnitude := by rw [hrdef, fmagnitude_rne32, hr]
  have hsig : fsign r = neg := fsign_rne32 _ _ _
  have habs : |(if neg then -1 else 1 : ℝ) * (y / 2 ^ 149)| = y / 2 ^ 149 := by
    rw [abs_mul, abs_of_nonneg (div_nonneg hy0 (by positivity))]
    cases neg <;> simp
  have hfin : isfinite r = true → unitsAbs r = m * 2 ^ e ∧ fmagnitude r = e * 2 ^ 23 + m := by
    intro hf
    have h1 := (isfinite_iff r).mp hf
    have h2 : fmagnitude r = e * 2 ^ 23 + m := by omega
    exact ⟨unitsAbs_of_fields h2 hm24 hem, h2⟩
  -- distance from the exact value to a finite f32, by sign
  have dist : ∀ b : F32, |(if neg then -1 else 1 : ℝ) * (y / 2 ^ 149) - f32Value b| =
      (if fsign b = neg then |y - unitsAbs b| else y + unitsAbs b) / 2 ^ 149 := by
    intro b
    rw [f32Value_eq]
    have hu0 : (0 : ℝ) ≤ unitsAbs b := by positivity
    by_cases hs : fsign b = neg
    · rw [if_pos hs, hs, ← mul_sub, abs_mul, ← sub_div, abs_div,
        abs_of_pos (show (0 : ℝ) < 2 ^ 149 by positivity)]
      cases neg <;> simp
    · rw [if_neg hs]
      have h3 : (if neg then -1 else 1 : ℝ) * (y / 2 ^ 149) -
          (if fsign b = true then -1 else 1) * ((unitsAbs b : ℝ) / 2 ^ 149) =
          (if neg then -1 else 1) * ((y + unitsAbs b) / 2 ^ 149) := by
        cases neg <;> cases hb : fsign b <;> simp_all <;> ring
      have hs0 : 0 ≤ (y + unitsAbs b) / 2 ^ 149 := div_nonneg (add_nonneg hy0 hu0) (by positivity)
      rw [h3, abs_mul, abs_of_nonneg hs0]
      cases neg <;> simp
  have distr : isfinite r = true → |(if neg then -1 else 1 : ℝ) * (y / 2 ^ 149) - f32Value r| =
      |y - (m * 2 ^ e : ℕ)| / 2 ^ 149 := by
    intro hf
    rw [dist, if_pos hsig, (hfin hf).1]
  have core := fun u hu => rounded_nearest (num := num) h hm lo u hu
  have zero := core 0 (.inl ⟨0, by simp⟩)
  rw [Nat.cast_zero, sub_zero, abs_of_nonneg hy0] at zero
  refine ⟨isnan_rne32 _ _ _, ?_, ?_, ?_, ?_, ?_⟩
  · have ov := rne32_overflow h hm hm24 hem up lo
    rw [habs, overflowBound, le_div_iff₀ (by positivity)]
    have : isinf r = true ↔ infMagnitude ≤ e * 2 ^ 23 + m := by
      rw [isinf, beq_iff_eq, hmag]; omega
    rw [this, ov, ← hy, sub_mul, ← pow_add, ← pow_add]
  · intro hf b _
    rw [distr hf, dist]
    apply div_le_div_of_nonneg_right _ (by positivity)
    split
    · exact (core _ (unitsAbs_multiple b e)).1
    · have : (0 : ℝ) ≤ unitsAbs b := by positivity
      linarith [zero.1]
  · intro hf b _ hne heq
    rw [distr hf, dist, div_left_inj' (by positivity)] at heq
    have even_m : m % 2 = 0 := by
      split at heq
      · next hs =>
        refine (core _ (unitsAbs_multiple b e)).2 (fun hu => hne ?_) heq
        unfold f32Value units
        rw [hs, hsig, hu, (hfin hf).1]
      · have hu0 : (0 : ℝ) ≤ unitsAbs b := by positivity
        have hub : (unitsAbs b : ℝ) = 0 := le_antisymm (by linarith [zero.1]) hu0
        have hub' : unitsAbs b = 0 := by exact_mod_cast hub
        refine zero.2 (fun hmz => hne ?_) (by rw [← heq, hub, add_zero])
        unfold f32Value units
        rw [hub', (hfin hf).1, ← hmz]
        simp
    rw [hrdef, rne32, hr, getLsbD_zero_mkF32, min_eq_left]
    · rw [decide_eq_false_iff_not]; omega
    · have := (isfinite_iff r).mp hf
      omega
  · intro hx
    rw [hsig]
    cases neg with
    | true => rfl
    | false =>
      exfalso
      have : 0 ≤ y / 2 ^ 149 := by positivity
      simp at hx
      linarith
  · intro hx
    rw [hsig]
    cases neg with
    | false => rfl
    | true =>
      exfalso
      have : 0 ≤ y / 2 ^ 149 := by positivity
      simp at hx
      linarith

/-- A real number between two that round to the same binary32 value rounds to it too. -/
theorem IsRNE32.between {lo hi x : ℝ} {r : F32} (hlo : IsRNE32 lo r) (hhi : IsRNE32 hi r)
    (h1 : lo ≤ x) (h2 : x ≤ hi) : IsRNE32 x r := by
  have hcls := f32_class r
  refine ⟨hlo.not_nan, ?_, ?_, ?_, fun h => hlo.neg (by linarith), fun h => hhi.pos (by linarith)⟩
  · constructor
    · intro hi'
      have a1 := hlo.overflow.mp hi'
      have a2 := hhi.overflow.mp hi'
      have hB : (0 : ℝ) < overflowBound := by unfold overflowBound; norm_num
      cases hs : fsign r with
      | true =>
        have : ¬ 0 < hi := fun h => by simp [hhi.pos h] at hs
        rw [abs_of_nonpos (by linarith)] at a2 ⊢
        linarith
      | false =>
        have : ¬ lo < 0 := fun h => by simp [hlo.neg h] at hs
        rw [abs_of_nonneg (by linarith)] at a1 ⊢
        linarith
    · intro hx
      by_contra hn
      have b1 := mt hlo.overflow.mpr hn
      have b2 := mt hhi.overflow.mpr hn
      rw [not_le, abs_lt] at b1 b2
      rcases le_abs.mp hx with h | h <;> linarith
  · intro hf b hb
    have n1 := hlo.nearest hf b hb
    have n2 := hhi.nearest hf b hb
    rcases lt_trichotomy ((f32Value r : ℚ) : ℝ) (f32Value b) with h | h | h
    · have : hi ≤ ((f32Value r : ℚ) + (f32Value b : ℚ) : ℝ) / 2 := by
        rcases le_total hi (((f32Value r : ℚ) + (f32Value b : ℚ) : ℝ) / 2) with h' | h'
        · exact h'
        · rcases abs_cases (hi - (f32Value r : ℝ)) with ⟨e1, _⟩ | ⟨e1, _⟩ <;>
          rcases abs_cases (hi - (f32Value b : ℝ)) with ⟨e2, _⟩ | ⟨e2, _⟩ <;>
          rw [e1, e2] at n2 <;> linarith
      rcases abs_cases (x - (f32Value r : ℝ)) with ⟨e1, _⟩ | ⟨e1, _⟩ <;>
      rcases abs_cases (x - (f32Value b : ℝ)) with ⟨e2, _⟩ | ⟨e2, _⟩ <;>
      rw [e1, e2] <;> linarith
    · rw [h]
    · have : ((f32Value r : ℚ) + (f32Value b : ℚ) : ℝ) / 2 ≤ lo := by
        rcases le_total (((f32Value r : ℚ) + (f32Value b : ℚ) : ℝ) / 2) lo with h' | h'
        · exact h'
        · rcases abs_cases (lo - (f32Value r : ℝ)) with ⟨e1, _⟩ | ⟨e1, _⟩ <;>
          rcases abs_cases (lo - (f32Value b : ℝ)) with ⟨e2, _⟩ | ⟨e2, _⟩ <;>
          rw [e1, e2] at n1 <;> linarith
      rcases abs_cases (x - (f32Value r : ℝ)) with ⟨e1, _⟩ | ⟨e1, _⟩ <;>
      rcases abs_cases (x - (f32Value b : ℝ)) with ⟨e2, _⟩ | ⟨e2, _⟩ <;>
      rw [e1, e2] <;> linarith
  · intro hf b hb hne heq
    have n1 := hlo.nearest hf b hb
    have n2 := hhi.nearest hf b hb
    have hne' : ((f32Value b : ℚ) : ℝ) ≠ f32Value r := by exact_mod_cast hne
    have hmid : x = ((f32Value r : ℚ) + (f32Value b : ℚ) : ℝ) / 2 := by
      rcases abs_eq_abs.mp heq with h | h
      · exact absurd (by linarith) hne'
      · linarith
    rcases lt_or_gt_of_ne hne' with h | h
    · refine hlo.even hf b hb hne (le_antisymm ?_ n1)
      rcases abs_cases (lo - (f32Value r : ℝ)) with ⟨e1, _⟩ | ⟨e1, _⟩ <;>
      rcases abs_cases (lo - (f32Value b : ℝ)) with ⟨e2, _⟩ | ⟨e2, _⟩ <;>
      rw [e1, e2] at n1 ⊢ <;> linarith
    · refine hhi.even hf b hb hne (le_antisymm ?_ n2)
      rcases abs_cases (hi - (f32Value r : ℝ)) with ⟨e1, _⟩ | ⟨e1, _⟩ <;>
      rcases abs_cases (hi - (f32Value b : ℝ)) with ⟨e2, _⟩ | ⟨e2, _⟩ <;>
      rw [e1, e2] at n2 ⊢ <;> linarith

end Sys2Proof.Machine
end

