-- ==== Sys2Proof/Laws/Constants.lean ====
section
/-! SUPPORT. The scaled constants of Machine/Coefs.lean are π and √2 to within two units: π by Machin's
formula and the arctangent series, √2 by a convergent. -/

namespace Sys2Proof.Machine

/-- The scale of attempt k, as a real number. -/
noncomputable abbrev scaleR (k : Nat) : ℝ := 2 ^ scaleBits k

theorem scaleR_pos (k : Nat) : 0 < scaleR k := by positivity

/-- A floored quotient is within one of the quotient. -/
theorem abs_floor_div_sub (n : ℤ) {d : ℤ} (hd : 0 < d) :
    |((n / d : ℤ) : ℝ) - (n : ℝ) / d| ≤ 1 := by
  have hd' : (0 : ℝ) < d := by exact_mod_cast hd
  have h1 : n / d * d ≤ n := Int.ediv_mul_le n hd.ne'
  have h2 : n < (n / d + 1) * d := Int.lt_ediv_add_one_mul_self n hd
  have h1' : ((n / d : ℤ) : ℝ) * d ≤ n := by exact_mod_cast h1
  have h2' : (n : ℝ) < ((n / d : ℤ) + 1) * d := by exact_mod_cast h2
  rw [abs_le]
  have l := (le_div_iff₀ hd').mpr h1'
  have u := (div_lt_iff₀ hd').mpr h2'
  constructor <;> linarith

/-! ### π -/

/-- The real number `arctanInv` computes, for x = 1/q. -/
noncomputable def arctanPartial (x : ℝ) (n k : Nat) : ℝ :=
  ∑ i ∈ Finset.range n, (-1) ^ i * x ^ (2 * i) / ((k + 2 * i : ℕ) : ℝ)

theorem arctanPartial_succ (x : ℝ) (n k : Nat) :
    arctanPartial x (n + 1) k = 1 / k - x ^ 2 * arctanPartial x n (k + 2) := by
  unfold arctanPartial
  rw [Finset.sum_range_succ', Finset.mul_sum, sub_eq_add_neg, ← Finset.sum_neg_distrib, add_comm]
  congr 1
  · simp
  · refine Finset.sum_congr rfl fun i _ => ?_
    rw [show k + 2 * (i + 1) = k + 2 + 2 * i by ring, pow_succ]
    ring

theorem arctanInv_eq {q : Nat} (hq : 0 < q) (n : Nat) {k : Nat} (hk : 0 < k) :
    0 < (arctanInv q n k).2 ∧
      ((arctanInv q n k).1 : ℝ) / (arctanInv q n k).2 = arctanPartial (q : ℝ)⁻¹ n k := by
  induction n generalizing k with
  | zero => simp [arctanInv, arctanPartial]
  | succ n ih =>
    obtain ⟨h1, h2⟩ := ih (k := k + 2) (by omega)
    have h1' : (0 : ℝ) < (arctanInv q n (k + 2)).2 := by exact_mod_cast h1
    have hk' : (0 : ℝ) < k := by exact_mod_cast hk
    have hq' : (0 : ℝ) < q := by exact_mod_cast hq
    refine ⟨by simp only [arctanInv]; positivity, ?_⟩
    rw [arctanPartial_succ, ← h2]
    simp only [arctanInv]
    push_cast
    field_simp

/-- The arctangent series is within a geometric tail of the arctangent. -/
theorem arctanPartial_error {x : ℝ} (x0 : 0 ≤ x) (x1 : x ≤ 1 / 2) (n : Nat) :
    |Real.arctan x - x * arctanPartial x n 1| ≤ 2 * x ^ (2 * n + 1) := by
  have hs := Real.hasSum_arctan (x := x) (by rw [Real.norm_of_nonneg x0]; linarith)
  have tail := (hasSum_nat_add_iff' n).mpr hs
  have geo : HasSum (fun k : ℕ => x ^ (2 * n + 1) * (1 / 2 : ℝ) ^ k) (x ^ (2 * n + 1) * 2) := by
    have := (hasSum_geometric_two).mul_left (x ^ (2 * n + 1))
    simpa using this
  have bound : ∀ k : ℕ, ‖(-1 : ℝ) ^ (k + n) * x ^ (2 * (k + n) + 1) / ((2 * (k + n) + 1 : ℕ) : ℝ)‖ ≤
      x ^ (2 * n + 1) * (1 / 2 : ℝ) ^ k := by
    intro k
    rw [norm_div, norm_mul, norm_pow, norm_neg, norm_one, one_pow, one_mul, norm_pow,
      Real.norm_of_nonneg x0, Real.norm_of_nonneg (by positivity)]
    calc x ^ (2 * (k + n) + 1) / ((2 * (k + n) + 1 : ℕ) : ℝ) ≤ x ^ (2 * (k + n) + 1) :=
          div_le_self (by positivity) (by push_cast; nlinarith [Nat.zero_le k, Nat.zero_le n])
      _ = x ^ (2 * n + 1) * (x ^ 2) ^ k := by rw [← pow_mul, ← pow_add]; congr 1; ring
      _ ≤ x ^ (2 * n + 1) * (1 / 2) ^ k := by
          gcongr
          nlinarith
  have := tail.norm_le_of_bounded geo bound
  rw [Real.norm_eq_abs] at this
  have e : x * arctanPartial x n 1 =
      ∑ i ∈ Finset.range n, (-1) ^ i * x ^ (2 * i + 1) / ((2 * i + 1 : ℕ) : ℝ) := by
    unfold arctanPartial
    rw [Finset.mul_sum]
    refine Finset.sum_congr rfl fun i _ => ?_
    rw [pow_succ, Nat.add_comm 1]
    ring
  rw [e]
  linarith

/-- Machin: π from the two series. -/
theorem pi_machin (n m : Nat) :
    |16 / 5 * arctanPartial 5⁻¹ n 1 - 4 / 239 * arctanPartial 239⁻¹ m 1 - Real.pi| ≤
      32 * (5⁻¹ : ℝ) ^ (2 * n + 1) + 8 * (239⁻¹ : ℝ) ^ (2 * m + 1) := by
  have h := Real.four_mul_arctan_inv_5_sub_arctan_inv_239
  have h5 := arctanPartial_error (x := 5⁻¹) (by norm_num) (by norm_num) n
  have h239 := arctanPartial_error (x := 239⁻¹) (by norm_num) (by norm_num) m
  rw [abs_le] at *
  constructor <;> linarith

/-- A ratio below 1/100 stays so when raised to a positive power. -/
theorem pow_small {r : ℝ} (h0 : 0 ≤ r) (h1 : r ≤ 1 / 100) {n : Nat} (hn : n ≠ 0) : r ^ n ≤ 1 / 100 :=
  le_trans (pow_le_of_le_one h0 (by linarith) hn) h1

/-- The terms left out of the two series of π weigh less than one unit of the scale. -/
theorem machin_error_scaled (k : Nat) :
    (32 * (5⁻¹ : ℝ) ^ (2 * (120 * 2 ^ k) + 1) + 8 * (239⁻¹ : ℝ) ^ (2 * (40 * 2 ^ k) + 1)) * scaleR k ≤
      1 := by
  unfold scaleR scaleBits
  obtain ⟨N, hN⟩ : ∃ N, N = 2 ^ k := ⟨_, rfl⟩
  have hk : 2 * N ≠ 0 := by rw [hN]; positivity
  rw [← hN]
  have a : (5⁻¹ : ℝ) ^ (2 * (120 * N) + 1) * 2 ^ (512 * N) = 5⁻¹ * (5⁻¹ ^ 120 * 2 ^ 256) ^ (2 * N) := by
    rw [mul_pow, ← pow_mul, ← pow_mul, pow_succ]; ring_nf
  have b : (239⁻¹ : ℝ) ^ (2 * (40 * N) + 1) * 2 ^ (512 * N) =
      239⁻¹ * (239⁻¹ ^ 40 * 2 ^ 256) ^ (2 * N) := by
    rw [mul_pow, ← pow_mul, ← pow_mul, pow_succ]; ring_nf
  have a' := pow_small (r := 5⁻¹ ^ 120 * 2 ^ 256) (by positivity) (by norm_num) hk
  have b' := pow_small (r := 239⁻¹ ^ 40 * 2 ^ 256) (by positivity) (by norm_num) hk
  rw [add_mul, mul_assoc, mul_assoc, a, b]
  generalize (5⁻¹ ^ 120 * 2 ^ 256 : ℝ) ^ (2 * N) = u at *
  generalize (239⁻¹ ^ 40 * 2 ^ 256 : ℝ) ^ (2 * N) = v at *
  linarith

/-- `piScaled` is π, scaled, to within two units. -/
theorem piScaled_error (k : Nat) : |(piScaled k : ℝ) - Real.pi * scaleR k| ≤ 2 := by
  obtain ⟨hx, ex⟩ := arctanInv_eq (q := 5) (by norm_num) (120 * 2 ^ k) (k := 1) one_pos
  obtain ⟨hy, ey⟩ := arctanInv_eq (q := 239) (by norm_num) (40 * 2 ^ k) (k := 1) one_pos
  have hm := pi_machin (120 * 2 ^ k) (40 * 2 ^ k)
  have hs := machin_error_scaled k
  have hP := scaleR_pos k
  rw [Nat.cast_ofNat] at ex ey
  rw [← ex, ← ey] at hm
  simp only [piScaled]
  generalize arctanInv 5 (120 * 2 ^ k) 1 = x at *
  generalize arctanInv 239 (40 * 2 ^ k) 1 = y at *
  have hx' : (0 : ℝ) < x.2 := by exact_mod_cast hx
  have hy' : (0 : ℝ) < y.2 := by exact_mod_cast hy
  have fl := abs_floor_div_sub ((16 * 239 * x.1 * y.2 - 4 * 5 * y.1 * x.2) * 2 ^ scaleBits k)
    (d := 5 * 239 * x.2 * y.2) (by positivity)
  have e : (((16 * 239 * x.1 * y.2 - 4 * 5 * y.1 * x.2) * 2 ^ scaleBits k : ℤ) : ℝ) /
      ((5 * 239 * x.2 * y.2 : ℤ) : ℝ) =
      (16 / 5 * (x.1 / x.2) - 4 / 239 * (y.1 / y.2)) * scaleR k := by
    push_cast
    field_simp
    ring
  rw [e] at fl
  have hm' := le_trans (mul_le_mul_of_nonneg_right hm hP.le) hs
  nth_rw 1 [← abs_of_pos hP] at hm'
  rw [← abs_mul, sub_mul] at hm'
  have := abs_sub_le _ _ _ |>.trans (add_le_add fl hm')
  linarith

/-! ### √2 -/

/-- The fraction solves Pell's equation, and its denominator has 2^n bits. -/
theorem sqrtTwoFraction_spec (n : Nat) :
    (sqrtTwoFraction n).1 ^ 2 = 2 * (sqrtTwoFraction n).2 ^ 2 + 1 ∧
      2 ^ 2 ^ n ≤ (sqrtTwoFraction n).2 := by
  induction n with
  | zero => decide
  | succ n ih =>
    obtain ⟨h1, h2⟩ := ih
    simp only [sqrtTwoFraction]
    generalize sqrtTwoFraction n = r at *
    have ge : r.2 ≤ r.1 := by nlinarith
    refine ⟨?_, ?_⟩
    · zify at h1 ⊢
      linear_combination ((r.1 : ℤ) ^ 2 - 2 * r.2 ^ 2 + 1) * h1
    rw [pow_succ, pow_mul]
    calc (2 ^ 2 ^ n) ^ 2 ≤ r.2 ^ 2 := Nat.pow_le_pow_left h2 2
      _ ≤ 2 * r.1 * r.2 := by nlinarith

/-- `sqrtTwoScaled` is √2, scaled, to within one unit. -/
theorem sqrtTwoScaled_error (k : Nat) : |(sqrtTwoScaled k : ℝ) - √2 * scaleR k| ≤ 1 := by
  obtain ⟨h1, h2⟩ := sqrtTwoFraction_spec (9 + k)
  have h2' : scaleR k ≤ (sqrtTwoFraction (9 + k)).2 := by
    have : 2 ^ scaleBits k = 2 ^ 2 ^ (9 + k) := by rw [scaleBits, pow_add]; rfl
    rw [← this] at h2
    unfold scaleR
    exact_mod_cast h2
  have hP := scaleR_pos k
  simp only [sqrtTwoScaled]
  generalize sqrtTwoFraction (9 + k) = r at *
  have d0 : (0 : ℝ) < r.2 := lt_of_lt_of_le hP h2'
  have h1' : (r.1 : ℝ) ^ 2 = 2 * (r.2 : ℝ) ^ 2 + 1 := by exact_mod_cast h1
  have hw : √2 ^ 2 = (2 : ℝ) := Real.sq_sqrt (by norm_num)
  have hw1 : 1 ≤ √2 := by rw [Real.one_le_sqrt]; norm_num
  have hprod : ((r.1 : ℝ) - √2 * r.2) * (r.1 + √2 * r.2) = 1 := by
    linear_combination h1' - (r.2 : ℝ) ^ 2 * hw
  have hsum : 0 < (r.1 : ℝ) + √2 * r.2 := by positivity
  have lo : 0 ≤ (r.1 : ℝ) - √2 * r.2 := by
    by_contra h
    nlinarith
  have hi : ((r.1 : ℝ) - √2 * r.2) * r.2 ≤ 1 := by
    rw [← hprod]
    apply mul_le_mul_of_nonneg_left _ lo
    nlinarith [show (0 : ℝ) ≤ r.1 from Nat.cast_nonneg _]
  have hd : (0 : ℤ) < r.2 := by exact_mod_cast d0
  have l := Int.ediv_mul_le ((r.1 : ℤ) * 2 ^ scaleBits k) hd.ne'
  have u := Int.lt_ediv_add_one_mul_self ((r.1 : ℤ) * 2 ^ scaleBits k) hd
  generalize (r.1 : ℤ) * 2 ^ scaleBits k / r.2 = f at *
  have l' : (f : ℝ) * r.2 ≤ r.1 * scaleR k := by unfold scaleR; exact_mod_cast l
  have u' : (r.1 : ℝ) * scaleR k < (f + 1) * r.2 := by unfold scaleR; exact_mod_cast u
  rw [abs_le]
  constructor
  · have : √2 * scaleR k * r.2 < (f + 1) * r.2 := by nlinarith
    have := lt_of_mul_lt_mul_right this d0.le
    linarith
  · have : f * (r.2 : ℝ) ≤ (√2 * scaleR k + 1) * r.2 := by
      have : ((r.1 : ℝ) - √2 * r.2) * scaleR k ≤ ((r.1 : ℝ) - √2 * r.2) * r.2 :=
        mul_le_mul_of_nonneg_left h2' lo
      have : (1 : ℝ) ≤ r.2 := by exact_mod_cast hd
      nlinarith
    have := le_of_mul_le_mul_right this d0
    linarith

end Sys2Proof.Machine
end

