-- ==== Sys2Proof/Laws/Taylor.lean ====
section
/-! SUPPORT. `taylor` evaluates the series of cos and sin exactly, and the terms it leaves out
weigh less than one unit of the scale. -/

namespace Sys2Proof.Machine

/-- The real number `taylor` computes: nested factors of the series in y = x². -/
noncomputable def horner (y : ℝ) : Nat → Nat → ℝ
  | 0, _ => 1
  | n + 1, k => 1 - y / ((k + 1 : ℝ) * (k + 2)) * horner y n (k + 2)

theorem taylor_horner (bits : Nat) (t : Int) (n k : Nat) :
    0 < (taylor bits t n k).2 ∧
      ((taylor bits t n k).1 : ℝ) / (taylor bits t n k).2 = horner (((t : ℝ) / 2 ^ bits) ^ 2) n k := by
  induction n generalizing k with
  | zero => simp [taylor, horner]
  | succ n ih =>
    obtain ⟨h1, h2⟩ := ih (k + 2)
    have h1' : (0 : ℝ) < (taylor bits t n (k + 2)).2 := by exact_mod_cast h1
    refine ⟨by simp only [taylor]; positivity, ?_⟩
    rw [horner, ← h2]
    simp only [taylor]
    push_cast
    have hp : (0 : ℝ) < 2 ^ bits := by positivity
    rw [pow_mul]
    rw [show ((2 : ℝ) ^ 2) ^ bits = (2 ^ bits) ^ 2 by rw [← pow_mul, ← pow_mul, mul_comm]]
    generalize (2 : ℝ) ^ bits = P at *
    field_simp

/-- The nested form is the partial sum of the series. -/
theorem horner_sum (x : ℝ) (n k : Nat) :
    horner (x ^ 2) n k * (x ^ k / k.factorial) =
      ∑ j ∈ Finset.range (n + 1), (-1) ^ j * (x ^ (k + 2 * j) / ((k + 2 * j).factorial : ℝ)) := by
  induction n generalizing k with
  | zero => simp [horner]
  | succ n ih =>
    rw [Finset.sum_range_succ']
    have e : ∀ j : ℕ, (-1 : ℝ) ^ (j + 1) * (x ^ (k + 2 * (j + 1)) / ((k + 2 * (j + 1)).factorial : ℝ)) =
        -((-1) ^ j * (x ^ (k + 2 + 2 * j) / ((k + 2 + 2 * j).factorial : ℝ))) := fun j => by
      rw [show k + 2 * (j + 1) = k + 2 + 2 * j by ring, pow_succ]; ring
    simp only [e, Finset.sum_neg_distrib, ← ih (k + 2), horner]
    have hf : ((k + 2).factorial : ℝ) = (k + 2) * ((k + 1) * k.factorial) := by
      rw [Nat.factorial_succ, Nat.factorial_succ]; push_cast; ring
    have hk : (0 : ℝ) < k.factorial := by exact_mod_cast k.factorial_pos
    rw [hf]
    simp only [pow_zero, Nat.mul_zero, Nat.add_zero, one_mul]
    field_simp
    ring

/-- The terms of a sine or cosine series past the N-th are below twice the first of them. -/
theorem series_tail {x s : ℝ} {k N : Nat} (x4 : |x| ≤ 4) (hN : 5 ≤ k + 2 * N)
    (hs : HasSum (fun j : ℕ => (-1 : ℝ) ^ j * (x ^ (k + 2 * j) / ((k + 2 * j).factorial : ℝ))) s) :
    |s - ∑ j ∈ Finset.range N, (-1) ^ j * (x ^ (k + 2 * j) / ((k + 2 * j).factorial : ℝ))| ≤
      2 * (4 ^ (k + 2 * N) / ((k + 2 * N).factorial : ℝ)) := by
  set m := k + 2 * N with hm
  have tail := (hasSum_nat_add_iff' N).mpr hs
  have term : ∀ i : ℕ, |x| ^ (m + 2 * i) / ((m + 2 * i).factorial : ℝ) ≤
      4 ^ m / (m.factorial : ℝ) * (1 / 2) ^ i := by
    intro i
    induction i with
    | zero =>
      simp only [Nat.mul_zero, Nat.add_zero, pow_zero, mul_one]
      gcongr
    | succ i ih =>
      have hf : ((m + 2 * (i + 1)).factorial : ℝ) =
          ((m + 2 * i : ℕ) + 2 : ℝ) * (((m + 2 * i : ℕ) + 1 : ℝ) * (m + 2 * i).factorial) := by
        rw [show m + 2 * (i + 1) = m + 2 * i + 1 + 1 by ring, Nat.factorial_succ, Nat.factorial_succ]
        push_cast; ring
      have hpos : (0 : ℝ) < (m + 2 * i).factorial := by exact_mod_cast (m + 2 * i).factorial_pos
      have hm5 : (5 : ℝ) ≤ (m + 2 * i : ℕ) := by exact_mod_cast (show 5 ≤ m + 2 * i by omega)
      generalize hM : ((m + 2 * i : ℕ) : ℝ) = M at hf hm5
      rw [hf, show m + 2 * (i + 1) = m + 2 * i + 2 by ring, pow_add,
        show |x| ^ (m + 2 * i) * |x| ^ 2 / ((M + 2) * ((M + 1) * ((m + 2 * i).factorial : ℝ))) =
          |x| ^ (m + 2 * i) / ((m + 2 * i).factorial : ℝ) * (|x| ^ 2 / ((M + 2) * (M + 1))) by
            field_simp]
      have ratio : |x| ^ 2 / ((M + 2) * (M + 1)) ≤ 1 / 2 := by
        rw [div_le_div_iff₀ (by positivity) (by norm_num)]
        nlinarith [abs_nonneg x]
      calc |x| ^ (m + 2 * i) / ((m + 2 * i).factorial : ℝ) * (|x| ^ 2 / ((M + 2) * (M + 1)))
          ≤ (4 ^ m / (m.factorial : ℝ) * (1 / 2) ^ i) * (1 / 2) := by gcongr
        _ = _ := by rw [pow_succ]; ring
  have geo : HasSum (fun i : ℕ => 4 ^ m / (m.factorial : ℝ) * (1 / 2 : ℝ) ^ i)
      (4 ^ m / (m.factorial : ℝ) * 2) := hasSum_geometric_two.mul_left _
  have := tail.norm_le_of_bounded geo fun i => by
    rw [norm_mul, norm_pow, norm_neg, norm_one, one_pow, one_mul, norm_div,
      norm_pow, Real.norm_eq_abs, Real.norm_natCast, show k + 2 * (i + N) = m + 2 * i by rw [hm]; ring]
    exact term i
  rw [Real.norm_eq_abs] at this
  linarith

theorem factorial_pow_le (n m : Nat) : n.factorial ^ m ≤ (n * m).factorial := by
  induction m with
  | zero => simp
  | succ m ih =>
    rw [pow_succ, Nat.mul_succ]
    exact le_trans (Nat.mul_le_mul_right _ ih)
      (Nat.le_of_dvd (Nat.factorial_pos _) (Nat.factorial_mul_factorial_dvd_factorial_add _ _))

theorem tail_small : 128 * (4 ^ 160 * 2 ^ 512) ≤ Nat.factorial 160 := by decide +kernel

/-- The first term left out weighs less than half a unit of the scale. -/
theorem tail_bound (k : Nat) {j : Nat} (hj : j ≤ 1) {m : Nat} (hm : m = j + 2 * (80 * 2 ^ k + 1)) :
    2 * (4 ^ m / (m.factorial : ℝ)) * scaleR k ≤ 1 := by
  unfold scaleR scaleBits
  obtain ⟨N, hN⟩ : ∃ N, N = 2 ^ k := ⟨_, rfl⟩
  have h0 : N ≠ 0 := by rw [hN]; positivity
  rw [← hN] at hm ⊢
  have hs := tail_small
  have key : 2 * 4 ^ m * 2 ^ (512 * N) ≤ m.factorial := by
    generalize hc : 4 ^ 160 * 2 ^ 512 = c at hs
    generalize hf : Nat.factorial 160 = f at hs
    calc 2 * 4 ^ m * 2 ^ (512 * N) ≤ 2 * 4 ^ (160 * N + 3) * 2 ^ (512 * N) := by
          gcongr
          · norm_num
          · omega
      _ = 128 * c ^ N := by rw [← hc, mul_pow, ← pow_mul, ← pow_mul, pow_add]; ring
      _ ≤ 128 ^ N * c ^ N := by gcongr; exact Nat.le_self_pow h0 _
      _ = (128 * c) ^ N := (mul_pow _ _ _).symm
      _ ≤ f ^ N := by gcongr
      _ ≤ (160 * N).factorial := hf ▸ factorial_pow_le 160 N
      _ ≤ m.factorial := Nat.factorial_le (by omega)
  have hpos : (0 : ℝ) < m.factorial := by exact_mod_cast m.factorial_pos
  rw [← mul_div_assoc, div_mul_eq_mul_div, div_le_one hpos]
  exact_mod_cast key

/-- cos, but for the terms left out. -/
theorem cos_horner (k : Nat) {x : ℝ} (x4 : |x| ≤ 4) :
    |horner (x ^ 2) (80 * 2 ^ k) 0 - Real.cos x| * scaleR k ≤ 1 := by
  have hs := Real.hasSum_cos x
  have e := horner_sum x (80 * 2 ^ k) 0
  simp only [pow_zero, Nat.factorial_zero, Nat.cast_one, div_one, mul_one] at e
  rw [e, abs_sub_comm]
  have tail := series_tail (k := 0) (N := 80 * 2 ^ k + 1) (s := Real.cos x) x4
    (by have := Nat.one_le_two_pow (n := k); omega)
    (by simpa only [Nat.zero_add, mul_div_assoc] using hs)
  exact le_trans (mul_le_mul_of_nonneg_right tail (scaleR_pos k).le)
    (tail_bound k (j := 0) (by omega) rfl)

/-- sin, but for the terms left out. -/
theorem sin_horner (k : Nat) {x : ℝ} (x4 : |x| ≤ 4) :
    |x * horner (x ^ 2) (80 * 2 ^ k) 1 - Real.sin x| * scaleR k ≤ 1 := by
  have hs := Real.hasSum_sin x
  have e := horner_sum x (80 * 2 ^ k) 1
  simp only [pow_one, Nat.factorial_one, Nat.cast_one, div_one] at e
  rw [mul_comm x, e, abs_sub_comm]
  have tail := series_tail (k := 1) (N := 80 * 2 ^ k + 1) (s := Real.sin x) x4
    (by have := Nat.one_le_two_pow (n := k); omega)
    (by simpa only [add_comm 1, mul_div_assoc] using hs)
  exact le_trans (mul_le_mul_of_nonneg_right tail (scaleR_pos k).le)
    (tail_bound k (j := 1) le_rfl rfl)

end Sys2Proof.Machine
end

