-- ==== Sys2Proof/Laws/Coefs.lean ====
section
/-! SUPPORT. In every attempt, each exact coefficient of 43_iir R182 lies in the enclosure that
Machine/Coefs.lean evaluates (`coef_enclosure`). -/

namespace Sys2Proof.Machine

open Config (Coef)

/-! ### The operands -/

/-- What `Valid` (R181) says of the operands' units. -/
theorem validParams_units {fc fs : F32} (h : validParams fc fs = true) :
    isfinite fc = true ∧ isfinite fs = true ∧ fsign fc = false ∧ fsign fs = false ∧
      0 < unitsAbs fc ∧ 2 * unitsAbs fc < unitsAbs fs := by
  simp only [validParams, Bool.and_eq_true, fgt, flt_iff, decide_eq_true_eq, units_posZero] at h
  obtain ⟨⟨⟨⟨h1, h2⟩, -, -, h3⟩, -, -, h4⟩, h5⟩ := h
  have s1 : fsign fc = false := by
    by_contra hs
    simp only [units, Bool.not_eq_false] at hs h3
    rw [if_pos hs] at h3
    omega
  have s2 : fsign fs = false := by
    by_contra hs
    simp only [units, Bool.not_eq_false] at hs h4
    rw [if_pos hs] at h4
    omega
  simp only [units, s1, s2, Bool.false_eq_true, if_false] at h3 h5
  exact ⟨h1, h2, s1, s2, by omega, by omega⟩

/-- The angle θ = 2π·fc/fs. -/
noncomputable def theta (fc fs : F32) : ℝ := 2 * Real.pi * unitsAbs fc / unitsAbs fs

theorem theta_bounds {fc fs : F32} (h : validParams fc fs = true) :
    0 < theta fc fs ∧ theta fc fs < Real.pi := by
  obtain ⟨-, -, -, -, h1, h2⟩ := validParams_units h
  have h1' : (0 : ℝ) < unitsAbs fc := by exact_mod_cast h1
  have h2' : (2 * unitsAbs fc : ℝ) < unitsAbs fs := by exact_mod_cast h2
  have hb : (0 : ℝ) < unitsAbs fs := by linarith
  have hpi := Real.pi_pos
  unfold theta
  constructor
  · positivity
  · rw [div_lt_iff₀ hb]
    nlinarith

/-- The scaled angle is θ, scaled, to within three units. -/
theorem thetaScaled_error (k : Nat) {fc fs : F32} (h : validParams fc fs = true) :
    |(thetaScaled k fc fs : ℝ) - theta fc fs * scaleR k| ≤ 3 := by
  obtain ⟨-, -, -, -, h1, h2⟩ := validParams_units h
  have hp := piScaled_error k
  have h1' : (0 : ℝ) < unitsAbs fc := by exact_mod_cast h1
  have h2' : (2 * unitsAbs fc : ℝ) < unitsAbs fs := by exact_mod_cast h2
  have hb : (0 : ℝ) < unitsAbs fs := by linarith
  have fl := abs_floor_div_sub (2 * piScaled k * unitsAbs fc) (d := unitsAbs fs)
    (by exact_mod_cast hb)
  have e : ((2 * piScaled k * unitsAbs fc : ℤ) : ℝ) / ((unitsAbs fs : ℤ) : ℝ) -
      theta fc fs * scaleR k =
      (2 * unitsAbs fc / unitsAbs fs) * ((piScaled k : ℝ) - Real.pi * scaleR k) := by
    unfold theta
    push_cast
    ring
  have q0 : 0 ≤ (2 * unitsAbs fc / unitsAbs fs : ℝ) := by positivity
  have q1 : (2 * unitsAbs fc / unitsAbs fs : ℝ) ≤ 1 := by
    rw [div_le_one hb]; exact h2'.le
  have b2 : |((2 * piScaled k * unitsAbs fc : ℤ) : ℝ) / ((unitsAbs fs : ℤ) : ℝ) -
      theta fc fs * scaleR k| ≤ 2 := by
    rw [e, abs_mul, abs_of_nonneg q0]
    calc _ ≤ 1 * (2 : ℝ) := by gcongr
      _ = 2 := one_mul 2
  have := abs_sub_le _ _ _ |>.trans (add_le_add fl b2)
  unfold thetaScaled
  linarith

/-! ### sin, cos and √2·sin -/

/-- The scale is large against the errors of an evaluation. -/
theorem scaleR_large (k : Nat) : 2 ^ 22 * 2 ^ enclosureBits k = scaleR k := by
  have : 512 ≤ scaleBits k := Nat.le_mul_of_pos_right _ (by positivity)
  rw [← pow_add, scaleR]
  congr 1
  unfold enclosureBits
  omega

theorem scaleR_ge (k : Nat) : 2 ^ 22 ≤ scaleR k := by
  rw [← scaleR_large k]
  exact le_mul_of_one_le_right (by positivity) (one_le_pow₀ (by norm_num))

theorem lipschitz_scaled (k : Nat) {f : ℝ → ℝ} (hf : ∀ x y, |f x - f y| ≤ |x - y|) {x y : ℝ}
    {e : ℝ} (h : |x * scaleR k - y * scaleR k| ≤ e) : |f x * scaleR k - f y * scaleR k| ≤ e := by
  rw [← sub_mul, abs_mul, abs_of_pos (scaleR_pos k)] at h ⊢
  exact le_trans (mul_le_mul_of_nonneg_right (hf x y) (scaleR_pos k).le) h

theorem abs_cos_sub_cos_le (x y : ℝ) : |Real.cos x - Real.cos y| ≤ |x - y| := by
  have := Real.lipschitzWith_cos.dist_le_mul x y
  simpa [Real.dist_eq] using this

theorem abs_sin_sub_sin_le (x y : ℝ) : |Real.sin x - Real.sin y| ≤ |x - y| := by
  have := Real.lipschitzWith_sin.dist_le_mul x y
  simpa [Real.dist_eq] using this

/-- The angle a scaled number stands for is within 4 when the scaled number is near one of [0, π]. -/
theorem scaled_angle_le {k : Nat} {t : Int} {x : ℝ} (x0 : 0 ≤ x) (xpi : x ≤ Real.pi)
    (h : |(t : ℝ) - x * scaleR k| ≤ 3) : |(t : ℝ) / scaleR k| ≤ 4 := by
  have hP := scaleR_pos k
  have hL := scaleR_ge k
  have hpi := Real.pi_lt_d2
  rw [abs_div, abs_of_pos hP, div_le_iff₀ hP]
  rw [abs_le] at h ⊢
  constructor <;> nlinarith

theorem cosScaled_error {k : Nat} {t : Int} {x : ℝ} (x0 : 0 ≤ x) (xpi : x ≤ Real.pi)
    (h : |(t : ℝ) - x * scaleR k| ≤ 3) :
    |(cosScaled k t : ℝ) - Real.cos x * scaleR k| ≤ 5 := by
  have y4 := scaled_angle_le x0 xpi h
  obtain ⟨dpos, hv⟩ := taylor_horner (scaleBits k) t (80 * 2 ^ k) 0
  have hP := scaleR_pos k
  set y : ℝ := t / scaleR k with hy
  have ty : y * scaleR k = t := div_mul_cancel₀ _ hP.ne'
  have a1 : |(cosScaled k t : ℝ) - horner (y ^ 2) (80 * 2 ^ k) 0 * scaleR k| ≤ 1 := by
    simp only [cosScaled]
    rw [hy, ← hv]
    generalize taylor (scaleBits k) t (80 * 2 ^ k) 0 = r at *
    have := abs_floor_div_sub (r.1 * 2 ^ scaleBits k) (d := r.2) (Int.natCast_pos.mpr dpos)
    rw [Int.cast_mul, Int.cast_pow, Int.cast_ofNat, Int.cast_natCast, mul_div_right_comm] at this
    exact this
  have a2 := cos_horner k y4
  nth_rw 1 [← abs_of_pos hP] at a2
  rw [← abs_mul, sub_mul] at a2
  have a3 : |Real.cos y * scaleR k - Real.cos x * scaleR k| ≤ 3 :=
    lipschitz_scaled k abs_cos_sub_cos_le (by rwa [ty])
  have := abs_sub_le _ _ _ |>.trans (add_le_add (abs_sub_le _ _ _ |>.trans (add_le_add a1 a2)) a3)
  linarith

theorem sinScaled_error {k : Nat} {t : Int} {x : ℝ} (x0 : 0 ≤ x) (xpi : x ≤ Real.pi)
    (h : |(t : ℝ) - x * scaleR k| ≤ 3) :
    |(sinScaled k t : ℝ) - Real.sin x * scaleR k| ≤ 5 := by
  have y4 := scaled_angle_le x0 xpi h
  obtain ⟨dpos, hv⟩ := taylor_horner (scaleBits k) t (80 * 2 ^ k) 1
  have hP := scaleR_pos k
  set y : ℝ := t / scaleR k with hy
  have ty : y * scaleR k = t := div_mul_cancel₀ _ hP.ne'
  have a1 : |(sinScaled k t : ℝ) - y * horner (y ^ 2) (80 * 2 ^ k) 1 * scaleR k| ≤ 1 := by
    simp only [sinScaled]
    rw [mul_right_comm, ty, hy, ← hv]
    generalize taylor (scaleBits k) t (80 * 2 ^ k) 1 = r at *
    have := abs_floor_div_sub (t * r.1) (d := r.2) (Int.natCast_pos.mpr dpos)
    rw [Int.cast_mul, Int.cast_natCast, mul_div_assoc] at this
    exact this
  have a2 := sin_horner k y4
  nth_rw 1 [← abs_of_pos hP] at a2
  rw [← abs_mul, sub_mul] at a2
  have a3 : |Real.sin y * scaleR k - Real.sin x * scaleR k| ≤ 3 :=
    lipschitz_scaled k abs_sin_sub_sin_le (by rwa [ty])
  have := abs_sub_le _ _ _ |>.trans (add_le_add (abs_sub_le _ _ _ |>.trans (add_le_add a1 a2)) a3)
  linarith

theorem sqrtTwo_le : √2 ≤ 3 / 2 := by
  rw [Real.sqrt_le_left (by norm_num)]; norm_num

theorem sqrtTwoSinScaled_error {k : Nat} {t : Int} {x : ℝ} (x0 : 0 ≤ x) (xpi : x ≤ Real.pi)
    (h : |(t : ℝ) - x * scaleR k| ≤ 3) :
    |(sqrtTwoSinScaled k t : ℝ) - √2 * Real.sin x * scaleR k| ≤ 12 := by
  have hs := sinScaled_error x0 xpi h
  have hw := sqrtTwoScaled_error k
  have hP := scaleR_pos k
  have hL := scaleR_ge k
  have a1 : |(sqrtTwoSinScaled k t : ℝ) - sqrtTwoScaled k * sinScaled k t / scaleR k| ≤ 1 := by
    have := abs_floor_div_sub (sqrtTwoScaled k * sinScaled k t) (d := 2 ^ scaleBits k)
      (by positivity)
    rw [Int.cast_mul, Int.cast_pow, Int.cast_ofNat] at this
    exact this
  have hw2 : |(sqrtTwoScaled k : ℝ)| / scaleR k ≤ 2 := by
    have := sqrtTwo_le
    have := Real.sqrt_nonneg (2 : ℝ)
    rw [div_le_iff₀ hP]
    rw [abs_le] at hw ⊢
    constructor <;> nlinarith
  have a2 : |(sqrtTwoScaled k : ℝ) * sinScaled k t / scaleR k - sqrtTwoScaled k * Real.sin x| ≤
      10 := by
    have e : (sqrtTwoScaled k : ℝ) * sinScaled k t / scaleR k - sqrtTwoScaled k * Real.sin x =
        sqrtTwoScaled k / scaleR k * (sinScaled k t - Real.sin x * scaleR k) := by
      field_simp
    rw [e, abs_mul, abs_div, abs_of_pos hP]
    calc _ ≤ 2 * (5 : ℝ) := by gcongr
      _ = 10 := by norm_num
  have a3 : |(sqrtTwoScaled k : ℝ) * Real.sin x - √2 * Real.sin x * scaleR k| ≤ 1 := by
    have e : (sqrtTwoScaled k : ℝ) * Real.sin x - √2 * Real.sin x * scaleR k =
        Real.sin x * (sqrtTwoScaled k - √2 * scaleR k) := by ring
    rw [e, abs_mul]
    calc _ ≤ 1 * (1 : ℝ) := by gcongr; exact Real.abs_sin_le_one x
      _ = 1 := one_mul 1
  have := abs_sub_le _ _ _ |>.trans (add_le_add (abs_sub_le _ _ _ |>.trans (add_le_add a1 a2)) a3)
  linarith

/-! ### The quotients -/

/-- The exact numerator of a coefficient, in sin and cos of θ. -/
noncomputable def trigNum (c : Coef) (x : ℝ) : ℝ :=
  match c with
  | .b0 => 1 - Real.cos x
  | .b1 => 2 * (1 - Real.cos x)
  | .b2 => 1 - Real.cos x
  | .a1 => -4 * Real.cos x
  | .a2 => 2 - √2 * Real.sin x

/-- The exact denominator of every coefficient, in sin of θ. -/
noncomputable def trigDen (x : ℝ) : ℝ := 2 + √2 * Real.sin x

theorem coefNum_error {k : Nat} {t : Int} {x : ℝ} (c : Coef) (x0 : 0 ≤ x)
    (xpi : x ≤ Real.pi) (h : |(t : ℝ) - x * scaleR k| ≤ 3) :
    |(coefNum c k t : ℝ) - trigNum c x * scaleR k| ≤ 20 := by
  have hc := cosScaled_error x0 xpi h
  have hs := sqrtTwoSinScaled_error x0 xpi h
  rw [abs_le] at hc hs ⊢
  have e : ((2 ^ scaleBits k : ℤ) : ℝ) = scaleR k := by push_cast; rfl
  cases c <;>
    simp only [coefNum, trigNum, Int.cast_sub, Int.cast_mul, Int.cast_neg, Int.cast_ofNat, e] <;>
    constructor <;> linarith

theorem trigNum_le (c : Coef) (x : ℝ) : |trigNum c x| ≤ 4 := by
  have h1 := Real.neg_one_le_cos x
  have h2 := Real.cos_le_one x
  have h3 := Real.neg_one_le_sin x
  have h4 := Real.sin_le_one x
  have h5 := sqrtTwo_le
  have h6 : 0 ≤ √2 := Real.sqrt_nonneg _
  rw [abs_le]
  cases c <;> simp only [trigNum] <;> constructor <;> nlinarith

/-- With the angle known to three units, the denominator is positive and the quotient is within the
enclosure's width of the exact one. -/
theorem quotient_error {k : Nat} {t : Int} {x : ℝ} (c : Coef) (x0 : 0 ≤ x)
    (xpi : x ≤ Real.pi) (h : |(t : ℝ) - x * scaleR k| ≤ 3) :
    0 < coefDen k t ∧
      |trigNum c x / trigDen x - (coefNum c k t : ℝ) / coefDen k t| ≤ 1 / 2 ^ enclosureBits k := by
  have hn := coefNum_error c x0 xpi h
  have hs := sqrtTwoSinScaled_error x0 xpi h
  have hN := trigNum_le c x
  have hP := scaleR_pos k
  have hD : 2 ≤ trigDen x := by
    unfold trigDen
    have : 0 ≤ √2 * Real.sin x :=
      mul_nonneg (Real.sqrt_nonneg _) (Real.sin_nonneg_of_nonneg_of_le_pi x0 xpi)
    linarith
  have bigP := scaleR_large k
  have hE : (1 : ℝ) ≤ 2 ^ enclosureBits k := one_le_pow₀ (by norm_num)
  have hd : |((2 * 2 ^ scaleBits k + sqrtTwoSinScaled k t : ℤ) : ℝ) - trigDen x * scaleR k| ≤ 12 := by
    have e : ((2 * 2 ^ scaleBits k + sqrtTwoSinScaled k t : ℤ) : ℝ) - trigDen x * scaleR k =
        sqrtTwoSinScaled k t - √2 * Real.sin x * scaleR k := by
      unfold trigDen; push_cast; ring
    rw [e]; exact hs
  have dge : scaleR k ≤ ((2 * 2 ^ scaleBits k + sqrtTwoSinScaled k t : ℤ) : ℝ) := by
    rw [abs_le] at hd
    nlinarith
  have dpos : 0 < 2 * 2 ^ scaleBits k + sqrtTwoSinScaled k t := by
    have : (0 : ℝ) < ((2 * 2 ^ scaleBits k + sqrtTwoSinScaled k t : ℤ) : ℝ) := lt_of_lt_of_le hP dge
    exact_mod_cast this
  have dcast : ((coefDen k t : ℕ) : ℝ) = ((2 * 2 ^ scaleBits k + sqrtTwoSinScaled k t : ℤ) : ℝ) := by
    unfold coefDen
    rw [← Int.cast_natCast, Int.toNat_of_nonneg dpos.le]
  refine ⟨by unfold coefDen; omega, ?_⟩
  rw [← dcast] at hd dge
  clear dcast dpos hs h x0 xpi
  generalize (coefNum c k t : ℝ) = n at *
  generalize ((coefDen k t : ℕ) : ℝ) = d at *
  generalize trigNum c x = N at *
  generalize trigDen x = D at *
  generalize scaleR k = P at *
  generalize (2 : ℝ) ^ enclosureBits k = E at *
  have d0 : 0 < d := by linarith
  have D0 : 0 < D := by linarith
  have e : N / D - n / d = (N * (d - D * P) - D * (n - N * P)) / (D * d) := by
    field_simp
    ring
  rw [e, abs_div, abs_of_pos (mul_pos D0 d0), div_le_div_iff₀ (mul_pos D0 d0) (by linarith), one_mul]
  have b1 : |N * (d - D * P) - D * (n - N * P)| ≤ 48 + 20 * D := by
    refine le_trans (abs_sub _ _) ?_
    rw [abs_mul, abs_mul, abs_of_pos D0]
    have : |N| * |d - D * P| ≤ 4 * 12 := by gcongr
    have : D * |n - N * P| ≤ D * 20 := by gcongr
    linarith
  have b2 : 48 + 20 * D ≤ 44 * D := by linarith
  calc |N * (d - D * P) - D * (n - N * P)| * E ≤ 44 * D * E := by
        apply mul_le_mul_of_nonneg_right (le_trans b1 b2) (by linarith)
    _ ≤ D * d := by
        have : 44 * E ≤ d := by nlinarith
        nlinarith

/-- R182's quotients in tan(θ/2) are the quotients in sin θ and cos θ. -/
theorem exactCoef_eq {fc fs : F32} (h : validParams fc fs = true) (c : Coef) :
    exactCoef c fc fs = trigNum c (theta fc fs) / trigDen (theta fc fs) := by
  obtain ⟨-, -, s1, s2, h1, h2⟩ := validParams_units h
  obtain ⟨t0, tpi⟩ := theta_bounds h
  have hb : (0 : ℝ) < unitsAbs fs := by exact_mod_cast (by omega : 0 < unitsAbs fs)
  have harg : Real.pi * f32Value fc / f32Value fs = theta fc fs / 2 := by
    unfold theta
    rw [f32Value_eq, f32Value_eq, s1, s2, if_neg Bool.false_ne_true]
    have q : (0 : ℝ) < 2 ^ 149 := by positivity
    generalize (2 : ℝ) ^ 149 = Q at *
    field_simp
  set φ := theta fc fs / 2 with hφ
  have cpos : 0 < Real.cos φ := Real.cos_pos_of_mem_Ioo ⟨by linarith, by linarith⟩
  have spos : 0 < Real.sin φ := Real.sin_pos_of_pos_of_lt_pi (by linarith) (by linarith)
  have r2 : 0 < √2 := by positivity
  have hsq := Real.sin_sq_add_cos_sq φ
  have hsin : Real.sin (theta fc fs) = 2 * Real.sin φ * Real.cos φ := by
    rw [← Real.sin_two_mul, hφ]; congr 1; ring
  have hcos : Real.cos (theta fc fs) = Real.cos φ ^ 2 - Real.sin φ ^ 2 := by
    rw [← Real.cos_two_mul', hφ]; congr 1; ring
  have hk : prewarp fc fs = Real.sin φ / Real.cos φ := by
    unfold prewarp
    rw [harg, Real.tan_eq_sin_div_cos]
  have hD : trigDen (theta fc fs) = 2 * Real.cos φ ^ 2 * biquadDenominator (prewarp fc fs) := by
    unfold trigDen biquadDenominator
    rw [hk, hsin]
    field_simp
    linear_combination (-1 : ℝ) * hsq
  have hden : 0 < biquadDenominator (prewarp fc fs) := by
    unfold biquadDenominator
    rw [hk]
    positivity
  have key : ∀ q : ℝ, trigNum c (theta fc fs) = 2 * Real.cos φ ^ 2 * q →
      q / biquadDenominator (prewarp fc fs) = trigNum c (theta fc fs) / trigDen (theta fc fs) := by
    intro q hq
    rw [hq, hD, mul_div_mul_left _ _ (by positivity)]
  unfold exactCoef
  cases c <;> simp only <;> apply key <;> simp only [trigNum] <;> rw [hk]
  · rw [hcos]; field_simp; linear_combination (-1 : ℝ) * hsq
  · rw [hcos]; field_simp; linear_combination (-1 : ℝ) * hsq
  · rw [hcos]; field_simp; linear_combination (-1 : ℝ) * hsq
  · rw [hcos]; field_simp; ring
  · rw [hsin]; field_simp; linear_combination (-1 : ℝ) * hsq

/-- The enclosure of attempt k: the denominator is positive, and each exact coefficient of R182 lies
within `2^-(enclosureBits k)` of the evaluated fraction. -/
theorem coef_enclosure (k : Nat) {fc fs : F32} (h : validParams fc fs = true) (c : Coef) :
    0 < coefDen k (thetaScaled k fc fs) ∧
      |exactCoef c fc fs - (coefNum c k (thetaScaled k fc fs) : ℝ) / coefDen k (thetaScaled k fc fs)| ≤
        1 / 2 ^ enclosureBits k := by
  obtain ⟨t0, tpi⟩ := theta_bounds h
  rw [exactCoef_eq h]
  exact quotient_error c t0.le tpi.le (thetaScaled_error k h)

/-- The exact B0, B1, B2 and A2 are not negative. -/
theorem exactCoef_nonneg {fc fs : F32} (h : validParams fc fs = true) {c : Coef} (hc : c ≠ .a1) :
    0 ≤ exactCoef c fc fs := by
  obtain ⟨t0, tpi⟩ := theta_bounds h
  have hs := Real.sin_nonneg_of_nonneg_of_le_pi t0.le tpi.le
  have h2 := sqrtTwo_le
  have h3 := Real.sin_le_one (theta fc fs)
  have h4 := Real.cos_le_one (theta fc fs)
  have h5 : 0 ≤ √2 := Real.sqrt_nonneg _
  rw [exactCoef_eq h]
  apply div_nonneg
  · cases c <;> simp only [trigNum] <;> first | exact absurd rfl hc | nlinarith
  · unfold trigDen
    have := mul_nonneg h5 hs
    linarith

end Sys2Proof.Machine
end

