-- ==== Sys2Proof/Laws/State.lean ====
section
/-! SUPPORT. One lemma per field per update of `State`, so that no proof unfolds a record update. -/

namespace Sys2Proof.Machine

variable (s : State)

@[simp] theorem setPending_params (v : List BusEvent) : (s.setPending v).params = s.params := rfl
@[simp] theorem setPending_pending (v : List BusEvent) : (s.setPending v).pending = v := rfl
@[simp] theorem setPending_readData (v : List BusEvent) : (s.setPending v).readData = s.readData := rfl
@[simp] theorem setPending_cmd (v : List BusEvent) : (s.setPending v).cmd = s.cmd := rfl
@[simp] theorem setPending_code (v : List BusEvent) : (s.setPending v).code = s.code := rfl
@[simp] theorem setPending_busErr (v : List BusEvent) : (s.setPending v).busErr = s.busErr := rfl
@[simp] theorem setPending_arg (v : List BusEvent) : (s.setPending v).arg = s.arg := rfl
@[simp] theorem setPending_res (v : List BusEvent) : (s.setPending v).res = s.res := rfl
@[simp] theorem setPending_cmdSeq (v : List BusEvent) : (s.setPending v).cmdSeq = s.cmdSeq := rfl
@[simp] theorem setPending_rx (v : List BusEvent) : (s.setPending v).rx = s.rx := rfl
@[simp] theorem setPending_fbuf (v : List BusEvent) : (s.setPending v).fbuf = s.fbuf := rfl
@[simp] theorem setPending_pbuf (v : List BusEvent) : (s.setPending v).pbuf = s.pbuf := rfl
@[simp] theorem setPending_iir (v : List BusEvent) : (s.setPending v).iir = s.iir := rfl
@[simp] theorem setPending_pid (v : List BusEvent) : (s.setPending v).pid = s.pid := rfl

@[simp] theorem setReadData_params (v : Word) : (s.setReadData v).params = s.params := rfl
@[simp] theorem setReadData_pending (v : Word) : (s.setReadData v).pending = s.pending := rfl
@[simp] theorem setReadData_readData (v : Word) : (s.setReadData v).readData = v := rfl
@[simp] theorem setReadData_cmd (v : Word) : (s.setReadData v).cmd = s.cmd := rfl
@[simp] theorem setReadData_code (v : Word) : (s.setReadData v).code = s.code := rfl
@[simp] theorem setReadData_busErr (v : Word) : (s.setReadData v).busErr = s.busErr := rfl
@[simp] theorem setReadData_arg (v : Word) : (s.setReadData v).arg = s.arg := rfl
@[simp] theorem setReadData_res (v : Word) : (s.setReadData v).res = s.res := rfl
@[simp] theorem setReadData_cmdSeq (v : Word) : (s.setReadData v).cmdSeq = s.cmdSeq := rfl
@[simp] theorem setReadData_rx (v : Word) : (s.setReadData v).rx = s.rx := rfl
@[simp] theorem setReadData_fbuf (v : Word) : (s.setReadData v).fbuf = s.fbuf := rfl
@[simp] theorem setReadData_pbuf (v : Word) : (s.setReadData v).pbuf = s.pbuf := rfl
@[simp] theorem setReadData_iir (v : Word) : (s.setReadData v).iir = s.iir := rfl
@[simp] theorem setReadData_pid (v : Word) : (s.setReadData v).pid = s.pid := rfl

@[simp] theorem setCmd_params (v : Word) : (s.setCmd v).params = s.params := rfl
@[simp] theorem setCmd_pending (v : Word) : (s.setCmd v).pending = s.pending := rfl
@[simp] theorem setCmd_readData (v : Word) : (s.setCmd v).readData = s.readData := rfl
@[simp] theorem setCmd_cmd (v : Word) : (s.setCmd v).cmd = v := rfl
@[simp] theorem setCmd_code (v : Word) : (s.setCmd v).code = s.code := rfl
@[simp] theorem setCmd_busErr (v : Word) : (s.setCmd v).busErr = s.busErr := rfl
@[simp] theorem setCmd_arg (v : Word) : (s.setCmd v).arg = s.arg := rfl
@[simp] theorem setCmd_res (v : Word) : (s.setCmd v).res = s.res := rfl
@[simp] theorem setCmd_cmdSeq (v : Word) : (s.setCmd v).cmdSeq = s.cmdSeq := rfl
@[simp] theorem setCmd_rx (v : Word) : (s.setCmd v).rx = s.rx := rfl
@[simp] theorem setCmd_fbuf (v : Word) : (s.setCmd v).fbuf = s.fbuf := rfl
@[simp] theorem setCmd_pbuf (v : Word) : (s.setCmd v).pbuf = s.pbuf := rfl
@[simp] theorem setCmd_iir (v : Word) : (s.setCmd v).iir = s.iir := rfl
@[simp] theorem setCmd_pid (v : Word) : (s.setCmd v).pid = s.pid := rfl

@[simp] theorem setCode_params (v : StatusCode) : (s.setCode v).params = s.params := rfl
@[simp] theorem setCode_pending (v : StatusCode) : (s.setCode v).pending = s.pending := rfl
@[simp] theorem setCode_readData (v : StatusCode) : (s.setCode v).readData = s.readData := rfl
@[simp] theorem setCode_cmd (v : StatusCode) : (s.setCode v).cmd = s.cmd := rfl
@[simp] theorem setCode_code (v : StatusCode) : (s.setCode v).code = v := rfl
@[simp] theorem setCode_busErr (v : StatusCode) : (s.setCode v).busErr = s.busErr := rfl
@[simp] theorem setCode_arg (v : StatusCode) : (s.setCode v).arg = s.arg := rfl
@[simp] theorem setCode_res (v : StatusCode) : (s.setCode v).res = s.res := rfl
@[simp] theorem setCode_cmdSeq (v : StatusCode) : (s.setCode v).cmdSeq = s.cmdSeq := rfl
@[simp] theorem setCode_rx (v : StatusCode) : (s.setCode v).rx = s.rx := rfl
@[simp] theorem setCode_fbuf (v : StatusCode) : (s.setCode v).fbuf = s.fbuf := rfl
@[simp] theorem setCode_pbuf (v : StatusCode) : (s.setCode v).pbuf = s.pbuf := rfl
@[simp] theorem setCode_iir (v : StatusCode) : (s.setCode v).iir = s.iir := rfl
@[simp] theorem setCode_pid (v : StatusCode) : (s.setCode v).pid = s.pid := rfl

@[simp] theorem setBusErr_params (v : Bool) : (s.setBusErr v).params = s.params := rfl
@[simp] theorem setBusErr_pending (v : Bool) : (s.setBusErr v).pending = s.pending := rfl
@[simp] theorem setBusErr_readData (v : Bool) : (s.setBusErr v).readData = s.readData := rfl
@[simp] theorem setBusErr_cmd (v : Bool) : (s.setBusErr v).cmd = s.cmd := rfl
@[simp] theorem setBusErr_code (v : Bool) : (s.setBusErr v).code = s.code := rfl
@[simp] theorem setBusErr_busErr (v : Bool) : (s.setBusErr v).busErr = v := rfl
@[simp] theorem setBusErr_arg (v : Bool) : (s.setBusErr v).arg = s.arg := rfl
@[simp] theorem setBusErr_res (v : Bool) : (s.setBusErr v).res = s.res := rfl
@[simp] theorem setBusErr_cmdSeq (v : Bool) : (s.setBusErr v).cmdSeq = s.cmdSeq := rfl
@[simp] theorem setBusErr_rx (v : Bool) : (s.setBusErr v).rx = s.rx := rfl
@[simp] theorem setBusErr_fbuf (v : Bool) : (s.setBusErr v).fbuf = s.fbuf := rfl
@[simp] theorem setBusErr_pbuf (v : Bool) : (s.setBusErr v).pbuf = s.pbuf := rfl
@[simp] theorem setBusErr_iir (v : Bool) : (s.setBusErr v).iir = s.iir := rfl
@[simp] theorem setBusErr_pid (v : Bool) : (s.setBusErr v).pid = s.pid := rfl

@[simp] theorem setArg_params (v : Quad) : (s.setArg v).params = s.params := rfl
@[simp] theorem setArg_pending (v : Quad) : (s.setArg v).pending = s.pending := rfl
@[simp] theorem setArg_readData (v : Quad) : (s.setArg v).readData = s.readData := rfl
@[simp] theorem setArg_cmd (v : Quad) : (s.setArg v).cmd = s.cmd := rfl
@[simp] theorem setArg_code (v : Quad) : (s.setArg v).code = s.code := rfl
@[simp] theorem setArg_busErr (v : Quad) : (s.setArg v).busErr = s.busErr := rfl
@[simp] theorem setArg_arg (v : Quad) : (s.setArg v).arg = v := rfl
@[simp] theorem setArg_res (v : Quad) : (s.setArg v).res = s.res := rfl
@[simp] theorem setArg_cmdSeq (v : Quad) : (s.setArg v).cmdSeq = s.cmdSeq := rfl
@[simp] theorem setArg_rx (v : Quad) : (s.setArg v).rx = s.rx := rfl
@[simp] theorem setArg_fbuf (v : Quad) : (s.setArg v).fbuf = s.fbuf := rfl
@[simp] theorem setArg_pbuf (v : Quad) : (s.setArg v).pbuf = s.pbuf := rfl
@[simp] theorem setArg_iir (v : Quad) : (s.setArg v).iir = s.iir := rfl
@[simp] theorem setArg_pid (v : Quad) : (s.setArg v).pid = s.pid := rfl

@[simp] theorem setRes_params (v : Quad) : (s.setRes v).params = s.params := rfl
@[simp] theorem setRes_pending (v : Quad) : (s.setRes v).pending = s.pending := rfl
@[simp] theorem setRes_readData (v : Quad) : (s.setRes v).readData = s.readData := rfl
@[simp] theorem setRes_cmd (v : Quad) : (s.setRes v).cmd = s.cmd := rfl
@[simp] theorem setRes_code (v : Quad) : (s.setRes v).code = s.code := rfl
@[simp] theorem setRes_busErr (v : Quad) : (s.setRes v).busErr = s.busErr := rfl
@[simp] theorem setRes_arg (v : Quad) : (s.setRes v).arg = s.arg := rfl
@[simp] theorem setRes_res (v : Quad) : (s.setRes v).res = v := rfl
@[simp] theorem setRes_cmdSeq (v : Quad) : (s.setRes v).cmdSeq = s.cmdSeq := rfl
@[simp] theorem setRes_rx (v : Quad) : (s.setRes v).rx = s.rx := rfl
@[simp] theorem setRes_fbuf (v : Quad) : (s.setRes v).fbuf = s.fbuf := rfl
@[simp] theorem setRes_pbuf (v : Quad) : (s.setRes v).pbuf = s.pbuf := rfl
@[simp] theorem setRes_iir (v : Quad) : (s.setRes v).iir = s.iir := rfl
@[simp] theorem setRes_pid (v : Quad) : (s.setRes v).pid = s.pid := rfl

@[simp] theorem setCmdSeq_params (v : Half) : (s.setCmdSeq v).params = s.params := rfl
@[simp] theorem setCmdSeq_pending (v : Half) : (s.setCmdSeq v).pending = s.pending := rfl
@[simp] theorem setCmdSeq_readData (v : Half) : (s.setCmdSeq v).readData = s.readData := rfl
@[simp] theorem setCmdSeq_cmd (v : Half) : (s.setCmdSeq v).cmd = s.cmd := rfl
@[simp] theorem setCmdSeq_code (v : Half) : (s.setCmdSeq v).code = s.code := rfl
@[simp] theorem setCmdSeq_busErr (v : Half) : (s.setCmdSeq v).busErr = s.busErr := rfl
@[simp] theorem setCmdSeq_arg (v : Half) : (s.setCmdSeq v).arg = s.arg := rfl
@[simp] theorem setCmdSeq_res (v : Half) : (s.setCmdSeq v).res = s.res := rfl
@[simp] theorem setCmdSeq_cmdSeq (v : Half) : (s.setCmdSeq v).cmdSeq = v := rfl
@[simp] theorem setCmdSeq_rx (v : Half) : (s.setCmdSeq v).rx = s.rx := rfl
@[simp] theorem setCmdSeq_fbuf (v : Half) : (s.setCmdSeq v).fbuf = s.fbuf := rfl
@[simp] theorem setCmdSeq_pbuf (v : Half) : (s.setCmdSeq v).pbuf = s.pbuf := rfl
@[simp] theorem setCmdSeq_iir (v : Half) : (s.setCmdSeq v).iir = s.iir := rfl
@[simp] theorem setCmdSeq_pid (v : Half) : (s.setCmdSeq v).pid = s.pid := rfl

@[simp] theorem setRx_params (v : List Byte) : (s.setRx v).params = s.params := rfl
@[simp] theorem setRx_pending (v : List Byte) : (s.setRx v).pending = s.pending := rfl
@[simp] theorem setRx_readData (v : List Byte) : (s.setRx v).readData = s.readData := rfl
@[simp] theorem setRx_cmd (v : List Byte) : (s.setRx v).cmd = s.cmd := rfl
@[simp] theorem setRx_code (v : List Byte) : (s.setRx v).code = s.code := rfl
@[simp] theorem setRx_busErr (v : List Byte) : (s.setRx v).busErr = s.busErr := rfl
@[simp] theorem setRx_arg (v : List Byte) : (s.setRx v).arg = s.arg := rfl
@[simp] theorem setRx_res (v : List Byte) : (s.setRx v).res = s.res := rfl
@[simp] theorem setRx_cmdSeq (v : List Byte) : (s.setRx v).cmdSeq = s.cmdSeq := rfl
@[simp] theorem setRx_rx (v : List Byte) : (s.setRx v).rx = v := rfl
@[simp] theorem setRx_fbuf (v : List Byte) : (s.setRx v).fbuf = s.fbuf := rfl
@[simp] theorem setRx_pbuf (v : List Byte) : (s.setRx v).pbuf = s.pbuf := rfl
@[simp] theorem setRx_iir (v : List Byte) : (s.setRx v).iir = s.iir := rfl
@[simp] theorem setRx_pid (v : List Byte) : (s.setRx v).pid = s.pid := rfl

@[simp] theorem setFbuf_params (v : Memory) : (s.setFbuf v).params = s.params := rfl
@[simp] theorem setFbuf_pending (v : Memory) : (s.setFbuf v).pending = s.pending := rfl
@[simp] theorem setFbuf_readData (v : Memory) : (s.setFbuf v).readData = s.readData := rfl
@[simp] theorem setFbuf_cmd (v : Memory) : (s.setFbuf v).cmd = s.cmd := rfl
@[simp] theorem setFbuf_code (v : Memory) : (s.setFbuf v).code = s.code := rfl
@[simp] theorem setFbuf_busErr (v : Memory) : (s.setFbuf v).busErr = s.busErr := rfl
@[simp] theorem setFbuf_arg (v : Memory) : (s.setFbuf v).arg = s.arg := rfl
@[simp] theorem setFbuf_res (v : Memory) : (s.setFbuf v).res = s.res := rfl
@[simp] theorem setFbuf_cmdSeq (v : Memory) : (s.setFbuf v).cmdSeq = s.cmdSeq := rfl
@[simp] theorem setFbuf_rx (v : Memory) : (s.setFbuf v).rx = s.rx := rfl
@[simp] theorem setFbuf_fbuf (v : Memory) : (s.setFbuf v).fbuf = v := rfl
@[simp] theorem setFbuf_pbuf (v : Memory) : (s.setFbuf v).pbuf = s.pbuf := rfl
@[simp] theorem setFbuf_iir (v : Memory) : (s.setFbuf v).iir = s.iir := rfl
@[simp] theorem setFbuf_pid (v : Memory) : (s.setFbuf v).pid = s.pid := rfl

@[simp] theorem setPbuf_params (v : Memory) : (s.setPbuf v).params = s.params := rfl
@[simp] theorem setPbuf_pending (v : Memory) : (s.setPbuf v).pending = s.pending := rfl
@[simp] theorem setPbuf_readData (v : Memory) : (s.setPbuf v).readData = s.readData := rfl
@[simp] theorem setPbuf_cmd (v : Memory) : (s.setPbuf v).cmd = s.cmd := rfl
@[simp] theorem setPbuf_code (v : Memory) : (s.setPbuf v).code = s.code := rfl
@[simp] theorem setPbuf_busErr (v : Memory) : (s.setPbuf v).busErr = s.busErr := rfl
@[simp] theorem setPbuf_arg (v : Memory) : (s.setPbuf v).arg = s.arg := rfl
@[simp] theorem setPbuf_res (v : Memory) : (s.setPbuf v).res = s.res := rfl
@[simp] theorem setPbuf_cmdSeq (v : Memory) : (s.setPbuf v).cmdSeq = s.cmdSeq := rfl
@[simp] theorem setPbuf_rx (v : Memory) : (s.setPbuf v).rx = s.rx := rfl
@[simp] theorem setPbuf_fbuf (v : Memory) : (s.setPbuf v).fbuf = s.fbuf := rfl
@[simp] theorem setPbuf_pbuf (v : Memory) : (s.setPbuf v).pbuf = v := rfl
@[simp] theorem setPbuf_iir (v : Memory) : (s.setPbuf v).iir = s.iir := rfl
@[simp] theorem setPbuf_pid (v : Memory) : (s.setPbuf v).pid = s.pid := rfl

@[simp] theorem setIir_params (v : IirUnit) : (s.setIir v).params = s.params := rfl
@[simp] theorem setIir_pending (v : IirUnit) : (s.setIir v).pending = s.pending := rfl
@[simp] theorem setIir_readData (v : IirUnit) : (s.setIir v).readData = s.readData := rfl
@[simp] theorem setIir_cmd (v : IirUnit) : (s.setIir v).cmd = s.cmd := rfl
@[simp] theorem setIir_code (v : IirUnit) : (s.setIir v).code = s.code := rfl
@[simp] theorem setIir_busErr (v : IirUnit) : (s.setIir v).busErr = s.busErr := rfl
@[simp] theorem setIir_arg (v : IirUnit) : (s.setIir v).arg = s.arg := rfl
@[simp] theorem setIir_res (v : IirUnit) : (s.setIir v).res = s.res := rfl
@[simp] theorem setIir_cmdSeq (v : IirUnit) : (s.setIir v).cmdSeq = s.cmdSeq := rfl
@[simp] theorem setIir_rx (v : IirUnit) : (s.setIir v).rx = s.rx := rfl
@[simp] theorem setIir_fbuf (v : IirUnit) : (s.setIir v).fbuf = s.fbuf := rfl
@[simp] theorem setIir_pbuf (v : IirUnit) : (s.setIir v).pbuf = s.pbuf := rfl
@[simp] theorem setIir_iir (v : IirUnit) : (s.setIir v).iir = v := rfl
@[simp] theorem setIir_pid (v : IirUnit) : (s.setIir v).pid = s.pid := rfl

@[simp] theorem setPid_params (v : PidUnit) : (s.setPid v).params = s.params := rfl
@[simp] theorem setPid_pending (v : PidUnit) : (s.setPid v).pending = s.pending := rfl
@[simp] theorem setPid_readData (v : PidUnit) : (s.setPid v).readData = s.readData := rfl
@[simp] theorem setPid_cmd (v : PidUnit) : (s.setPid v).cmd = s.cmd := rfl
@[simp] theorem setPid_code (v : PidUnit) : (s.setPid v).code = s.code := rfl
@[simp] theorem setPid_busErr (v : PidUnit) : (s.setPid v).busErr = s.busErr := rfl
@[simp] theorem setPid_arg (v : PidUnit) : (s.setPid v).arg = s.arg := rfl
@[simp] theorem setPid_res (v : PidUnit) : (s.setPid v).res = s.res := rfl
@[simp] theorem setPid_cmdSeq (v : PidUnit) : (s.setPid v).cmdSeq = s.cmdSeq := rfl
@[simp] theorem setPid_rx (v : PidUnit) : (s.setPid v).rx = s.rx := rfl
@[simp] theorem setPid_fbuf (v : PidUnit) : (s.setPid v).fbuf = s.fbuf := rfl
@[simp] theorem setPid_pbuf (v : PidUnit) : (s.setPid v).pbuf = s.pbuf := rfl
@[simp] theorem setPid_iir (v : PidUnit) : (s.setPid v).iir = s.iir := rfl
@[simp] theorem setPid_pid (v : PidUnit) : (s.setPid v).pid = v := rfl

/-! Writing a field twice keeps the last value, and writing back what it holds changes nothing. -/

@[simp] theorem setPending_setPending (v w : List BusEvent) : (s.setPending v).setPending w = s.setPending w := rfl
@[simp] theorem setPending_self : s.setPending s.pending = s := rfl
@[simp] theorem setReadData_setReadData (v w : Word) : (s.setReadData v).setReadData w = s.setReadData w := rfl
@[simp] theorem setReadData_self : s.setReadData s.readData = s := rfl
@[simp] theorem setCmd_setCmd (v w : Word) : (s.setCmd v).setCmd w = s.setCmd w := rfl
@[simp] theorem setCmd_self : s.setCmd s.cmd = s := rfl
@[simp] theorem setCode_setCode (v w : StatusCode) : (s.setCode v).setCode w = s.setCode w := rfl
@[simp] theorem setCode_self : s.setCode s.code = s := rfl
@[simp] theorem setBusErr_setBusErr (v w : Bool) : (s.setBusErr v).setBusErr w = s.setBusErr w := rfl
@[simp] theorem setBusErr_self : s.setBusErr s.busErr = s := rfl
@[simp] theorem setArg_setArg (v w : Quad) : (s.setArg v).setArg w = s.setArg w := rfl
@[simp] theorem setArg_self : s.setArg s.arg = s := rfl
@[simp] theorem setRes_setRes (v w : Quad) : (s.setRes v).setRes w = s.setRes w := rfl
@[simp] theorem setRes_self : s.setRes s.res = s := rfl
@[simp] theorem setCmdSeq_setCmdSeq (v w : Half) : (s.setCmdSeq v).setCmdSeq w = s.setCmdSeq w := rfl
@[simp] theorem setCmdSeq_self : s.setCmdSeq s.cmdSeq = s := rfl
@[simp] theorem setRx_setRx (v w : List Byte) : (s.setRx v).setRx w = s.setRx w := rfl
@[simp] theorem setRx_self : s.setRx s.rx = s := rfl
@[simp] theorem setFbuf_setFbuf (v w : Memory) : (s.setFbuf v).setFbuf w = s.setFbuf w := rfl
@[simp] theorem setFbuf_self : s.setFbuf s.fbuf = s := rfl
@[simp] theorem setPbuf_setPbuf (v w : Memory) : (s.setPbuf v).setPbuf w = s.setPbuf w := rfl
@[simp] theorem setPbuf_self : s.setPbuf s.pbuf = s := rfl
@[simp] theorem setIir_setIir (v w : IirUnit) : (s.setIir v).setIir w = s.setIir w := rfl
@[simp] theorem setIir_self : s.setIir s.iir = s := rfl
@[simp] theorem setPid_setPid (v w : PidUnit) : (s.setPid v).setPid w = s.setPid w := rfl
@[simp] theorem setPid_self : s.setPid s.pid = s := rfl

@[simp] theorem setRes0_params (v : Word) : (setRes0 v s).params = s.params := rfl
@[simp] theorem setRes0_pending (v : Word) : (setRes0 v s).pending = s.pending := rfl
@[simp] theorem setRes0_readData (v : Word) : (setRes0 v s).readData = s.readData := rfl
@[simp] theorem setRes0_cmd (v : Word) : (setRes0 v s).cmd = s.cmd := rfl
@[simp] theorem setRes0_code (v : Word) : (setRes0 v s).code = s.code := rfl
@[simp] theorem setRes0_busErr (v : Word) : (setRes0 v s).busErr = s.busErr := rfl
@[simp] theorem setRes0_arg (v : Word) : (setRes0 v s).arg = s.arg := rfl
@[simp] theorem setRes0_cmdSeq (v : Word) : (setRes0 v s).cmdSeq = s.cmdSeq := rfl
@[simp] theorem setRes0_rx (v : Word) : (setRes0 v s).rx = s.rx := rfl
@[simp] theorem setRes0_fbuf (v : Word) : (setRes0 v s).fbuf = s.fbuf := rfl
@[simp] theorem setRes0_pbuf (v : Word) : (setRes0 v s).pbuf = s.pbuf := rfl
@[simp] theorem setRes0_iir (v : Word) : (setRes0 v s).iir = s.iir := rfl
@[simp] theorem setRes0_pid (v : Word) : (setRes0 v s).pid = s.pid := rfl
@[simp] theorem setRes0_res (v : Word) : (setRes0 v s).res = { s.res with w0 := v } := rfl

end Sys2Proof.Machine
end

