-- ==== Sys2Proof/Laws/Frame.lean ====
section
/-! SUPPORT. What the shared operations of the framer and the receive engine can do, each said once:
BuildFrame, ParseCore, FindStart and the resynchronisation loop. -/

namespace Sys2Proof.Machine

/-! ### How a command ends -/

@[simp] theorem finish_eq (c : StatusCode) (s : State) : finish c s = .next (s.setCode c) := rfl

@[simp] theorem raise_eq (c : StatusCode) (s : State) : raise c s = .next (s.setCode c) := rfl

@[simp] theorem endWith_error (s : State) (c : StatusCode) :
    endWith s (.error c) = .next (s.setCode c) := rfl

@[simp] theorem endWith_ok (s t : State) : endWith s (.ok t) = .next (t.setCode .ok) := rfl

/-- A command that ends by `endWith` has either raised a code and written nothing else, or made its
writes and ended in OK. -/
theorem endWith_cases (s : State) (r : Except StatusCode State) :
    (∃ c, r = .error c ∧ endWith s r = .next (s.setCode c)) ∨
      ∃ t, r = .ok t ∧ endWith s r = .next (t.setCode .ok) := by
  cases r with
  | error c => exact .inl ⟨c, rfl, rfl⟩
  | ok t => exact .inr ⟨t, rfl, rfl⟩

/-! ### Bytes of a u16 -/

@[simp] theorem length_le16 (v : Half) : (le16 v).length = 2 := rfl

@[simp] theorem u16Of_bytes (v : Half) : u16Of (v.extractLsb' 0 8) (v.extractLsb' 8 8) = v := by
  apply BitVec.eq_of_getLsbD_eq
  intro k hk
  simp only [u16Of, BitVec.getLsbD_append, BitVec.getLsbD_extractLsb']
  interval_cases k <;> simp

theorem u16Of_inj {a b c d : Byte} (h : u16Of a b = u16Of c d) : a = c ∧ b = d := by
  have key : ∀ k, (if k < 8 then a.getLsbD k else b.getLsbD (k - 8)) =
      if k < 8 then c.getLsbD k else d.getLsbD (k - 8) := fun k => by
    have := congrArg (fun v => BitVec.getLsbD v k) h
    simpa only [u16Of, BitVec.getLsbD_append] using this
  constructor
  · exact BitVec.eq_of_getLsbD_eq fun k hk => by simpa [hk] using key k
  · exact BitVec.eq_of_getLsbD_eq fun k hk => by simpa using key (8 + k)

/-! ### BuildFrame (R112) -/

@[simp] theorem length_crcSpan (p : Params) (t : Byte) (payload : List Byte) :
    (crcSpan p t payload).length = 4 + payload.length := by
  simp [crcSpan]; omega

@[simp] theorem length_frameBytes (p : Params) (t : Byte) (payload : List Byte) :
    (frameBytes p t payload).length = 8 + payload.length := by
  simp [frameBytes]; omega

/-- All that BuildFrame can do: BAD_ARG past FBUF, BUFFER_TOO_SMALL below the frame's length, or the
frame at the front of FBUF and its length in RES0. -/
theorem buildFrame_cases (t : Byte) (payload : List Byte) (n : Nat) (s : State) :
    (256 < n ∧ buildFrame t payload n s = .error .badArg) ∨
    (n ≤ 256 ∧ n < 8 + payload.length ∧ buildFrame t payload n s = .error .bufferTooSmall) ∨
    (n ≤ 256 ∧ 8 + payload.length ≤ n ∧ buildFrame t payload n s =
      .ok (setRes0 (BitVec.ofNat 32 (8 + payload.length))
        (s.setFbuf (s.fbuf.writeBytes 0 (frameBytes s.params t payload))))) := by
  unfold buildFrame
  by_cases h1 : n > Config.fbufSize
  · exact .inl ⟨h1, if_pos h1⟩
  · rw [if_neg h1]
    by_cases h2 : n < Config.minFrame + payload.length
    · exact .inr (.inl ⟨Nat.le_of_not_lt h1, h2, if_pos h2⟩)
    · exact .inr (.inr ⟨Nat.le_of_not_lt h1, Nat.le_of_not_lt h2, if_neg h2⟩)

/-! ### ParseCore (R120) -/

/-- When ParseCore accepts: every stage of R120 passed. -/
theorem parseCore_ok_iff (p : Params) (b : List Byte) (expect : Option Kind) (k : Kind) (len : Nat) :
    parseCore p b expect = .ok (k, len) ↔
      8 + len ≤ b.length ∧ byteAt b 0 = p.sync0 ∧ byteAt b 1 = p.sync1 ∧ byteAt b 2 = p.version ∧
      acceptedKind p expect (byteAt b 3) = some k ∧ (u16At b 4).toNat = len ∧ lenOK k len = true ∧
      u16At b (6 + len) = crc16 ((b.drop 2).take (4 + len)) := by
  have hm : Config.minFrame = 8 := rfl
  unfold parseCore
  by_cases h1 : b.length < Config.minFrame
  · simp only [if_pos h1, reduceCtorEq, false_iff, not_and]
    omega
  rw [if_neg h1]
  by_cases h2 : byteAt b 0 ≠ p.sync0 ∨ byteAt b 1 ≠ p.sync1
  · simp only [if_pos h2, reduceCtorEq, false_iff, not_and]
    intro _ h h'
    exact absurd h2 (by simp [h, h'])
  rw [if_neg h2]
  push Not at h2
  by_cases h3 : byteAt b 2 ≠ p.version
  · simp only [if_pos h3, reduceCtorEq, false_iff, not_and]
    intro _ _ _ h
    exact absurd h h3
  rw [if_neg h3]
  push Not at h3
  cases hk : acceptedKind p expect (byteAt b 3) with
  | none => simp
  | some k' =>
    simp only
    by_cases h5 : lenOK k' (u16At b 4).toNat = false
    · simp only [if_pos h5, reduceCtorEq, false_iff, not_and]
      rintro _ _ _ _ ⟨⟩ rfl h
      simp [h] at h5
    rw [if_neg h5]
    by_cases h6 : b.length < Config.minFrame + (u16At b 4).toNat
    · simp only [if_pos h6, reduceCtorEq, false_iff, not_and]
      rintro h _ _ _ _ rfl
      omega
    rw [if_neg h6]
    by_cases h7 : u16At b (6 + (u16At b 4).toNat) ≠ crc16 ((b.drop 2).take (4 + (u16At b 4).toNat))
    · simp only [if_pos h7, reduceCtorEq, false_iff, not_and]
      rintro _ _ _ _ _ rfl _ h
      exact absurd h h7
    rw [if_neg h7]
    push Not at h7
    simp only [Except.ok.injEq, Prod.mk.injEq]
    constructor
    · rintro ⟨rfl, rfl⟩
      exact ⟨by omega, h2.1, h2.2, h3, rfl, rfl, by simpa using h5, h7⟩
    · rintro ⟨_, _, _, _, h, h', _⟩
      exact ⟨Option.some.inj h, h'⟩

/-- The codes ParseCore can raise (R120). -/
theorem parseCore_error {p : Params} {b : List Byte} {expect : Option Kind} {c : StatusCode}
    (h : parseCore p b expect = .error c) :
    c = .insufficientData ∨ c = .invalidPrefix ∨ c = .invalidVersion ∨ c = .invalidType ∨
      c = .invalidPayloadLength ∨ c = .crcMismatch := by
  unfold parseCore at h
  repeat' split at h
  all_goals simp_all
  all_goals
    split at h
    · simp_all
    · split at h
      · simp_all
      · split at h <;> simp_all

/-- A payload an accepted length allows is at most LOG_MAX bytes (R111). -/
theorem lenOK_le {k : Kind} {len : Nat} (h : lenOK k len = true) : len ≤ 200 := by
  cases k <;> simp only [lenOK, beq_iff_eq, decide_eq_true_eq] at h
  · exact h.trans_le (by decide)
  · exact h.trans_le (by decide)
  · omega
  · omega
  · exact h

/-! ### FindStart (R126) -/

theorem findPrefix_cons (p : Params) (x y : Byte) (rest : List Byte) :
    findPrefix p (x :: y :: rest) =
      if x = p.sync0 ∧ y = p.sync1 then some 0 else (findPrefix p (y :: rest)).map (· + 1) := rfl

/-- A found prefix is a prefix, wholly inside the sequence, and no earlier index holds one. -/
theorem findPrefix_some {p : Params} {b : List Byte} {i : Nat} (h : findPrefix p b = some i) :
    i + 1 < b.length ∧ byteAt b i = p.sync0 ∧ byteAt b (i + 1) = p.sync1 ∧
      ∀ j < i, ¬ (byteAt b j = p.sync0 ∧ byteAt b (j + 1) = p.sync1) := by
  induction b generalizing i with
  | nil => simp [findPrefix] at h
  | cons x b ih =>
    cases b with
    | nil => simp [findPrefix] at h
    | cons y rest =>
      rw [findPrefix_cons] at h
      split at h
      · next hp =>
        obtain rfl : 0 = i := Option.some.inj h
        exact ⟨by simp, hp.1, hp.2, fun j hj => absurd hj (Nat.not_lt_zero j)⟩
      · next hp =>
        obtain ⟨k, hk, rfl⟩ := Option.map_eq_some_iff.mp h
        obtain ⟨h1, h2, h3, h4⟩ := ih hk
        refine ⟨by simp at h1 ⊢; omega, h2, h3, fun j hj => ?_⟩
        cases j with
        | zero => exact hp
        | succ j => exact h4 j (by omega)

/-- No prefix is found only where there is none. -/
theorem findPrefix_none {p : Params} {b : List Byte} (h : findPrefix p b = none) :
    ∀ j, j + 1 < b.length → ¬ (byteAt b j = p.sync0 ∧ byteAt b (j + 1) = p.sync1) := by
  induction b with
  | nil => intro j hj; simp at hj
  | cons x b ih =>
    cases b with
    | nil => intro j hj; simp at hj
    | cons y rest =>
      rw [findPrefix_cons] at h
      split at h
      · cases h
      · next hp =>
        intro j hj
        cases j with
        | zero => exact hp
        | succ j => exact ih (by simpa using h) j (by simp at hj ⊢; omega)

/-! ### The resynchronisation loop (R163, R166) -/

/-- One iteration of the loop. -/
theorem pollLoop_succ (p : Params) (fuel : Nat) (rx : List Byte) :
    pollLoop p (fuel + 1) rx =
      match findPrefix p rx with
      | none => ⟨if rx.length = Config.rxCap then discard rx.length rx else rx, none⟩
      | some k =>
        match parseCore p (discard k rx) none with
        | .error .insufficientData => ⟨discard k rx, none⟩
        | .error _ => pollLoop p fuel (discard 1 (discard k rx))
        | .ok (_, len) =>
          ⟨discard (Config.minFrame + len) (discard k rx),
            some ((discard k rx).take (Config.minFrame + len), byteAt (discard k rx) 3)⟩ := rfl

/-- The loop never runs out: with RX_COUNT + 1 iterations it ends as with any greater number (R166). -/
theorem pollLoop_fuel (p : Params) (rx : List Byte) (fuel : Nat) (h : rx.length < fuel) :
    pollLoop p fuel rx = pollLoop p (rx.length + 1) rx := by
  induction hl : rx.length using Nat.strong_induction_on generalizing rx fuel with
  | _ n ih =>
    subst hl
    obtain ⟨f, rfl⟩ : ∃ f, fuel = f + 1 := ⟨fuel - 1, by omega⟩
    rw [pollLoop_succ, pollLoop_succ]
    cases hk : findPrefix p rx with
    | none => rfl
    | some k =>
      have hlen := (findPrefix_some hk).1
      have hd : (discard 1 (discard k rx)).length < rx.length := by
        simp [discard]; omega
      have key : pollLoop p f (discard 1 (discard k rx)) =
          pollLoop p rx.length (discard 1 (discard k rx)) :=
        (ih _ hd _ f (by omega) rfl).trans (ih _ hd _ rx.length hd rfl).symm
      simp only [key]

end Sys2Proof.Machine
end

