-- ==== Sys2Proof/Laws/PerInstr.lean ====
section
/-! SUPPORT. The per-instruction family `TableMatch`: the word of a command matches its own row of
spec/opcode_table.json, bit for bit under the row's mask (30_encoding R83). -/

namespace Sys2Proof.Laws

/-- The command's word agrees with its row's match under its row's mask, and its row's match is its
opcode. -/
def TableMatch.Statement (i : Instr) : Prop :=
  encode i &&& (matchMask i).2 = (matchMask i).1 ∧ (matchMask i).1 = (opcodeOf i).setWidth 32

theorem mask_count (n : Half) (op : Byte) :
    (n ++ ((0 : Byte) ++ op)) &&& (0x0000FFFF : Word) = op.setWidth 32 := by
  apply BitVec.eq_of_getLsbD_eq
  intro k hk
  simp only [BitVec.getLsbD_and, BitVec.getLsbD_append, BitVec.getLsbD_setWidth]
  interval_cases k <;> simp [BitVec.getLsbD_of_ge]

theorem mask_byte (b op : Byte) :
    ((0 : Half) ++ (b ++ op)) &&& (0xFFFF00FF : Word) = op.setWidth 32 := by
  apply BitVec.eq_of_getLsbD_eq
  intro k hk
  simp only [BitVec.getLsbD_and, BitVec.getLsbD_append, BitVec.getLsbD_setWidth]
  interval_cases k <;> simp [BitVec.getLsbD_of_ge]

namespace TableMatch

theorem nop : Statement .nop := ⟨by decide, rfl⟩
theorem crc16 (n : Nat) : Statement (.crc16 n) := ⟨mask_count _ _, rfl⟩
theorem buildCmd (n : Nat) : Statement (.buildCmd n) := ⟨mask_count _ _, rfl⟩
theorem buildTlm (n : Nat) : Statement (.buildTlm n) := ⟨mask_count _ _, rfl⟩
theorem buildPing (n : Nat) : Statement (.buildPing n) := ⟨mask_count _ _, rfl⟩
theorem buildPong (n : Nat) : Statement (.buildPong n) := ⟨mask_count _ _, rfl⟩
theorem buildLog (n : Nat) : Statement (.buildLog n) := ⟨mask_count _ _, rfl⟩
theorem parseCmd (n : Nat) : Statement (.parseCmd n) := ⟨mask_count _ _, rfl⟩
theorem parseTlm (n : Nat) : Statement (.parseTlm n) := ⟨mask_count _ _, rfl⟩
theorem parsePing (n : Nat) : Statement (.parsePing n) := ⟨mask_count _ _, rfl⟩
theorem parsePong (n : Nat) : Statement (.parsePong n) := ⟨mask_count _ _, rfl⟩
theorem parseLog (n : Nat) : Statement (.parseLog n) := ⟨mask_count _ _, rfl⟩
theorem findStart (n : Nat) : Statement (.findStart n) := ⟨mask_count _ _, rfl⟩
theorem rxPush (b : Byte) : Statement (.rxPush b) := ⟨mask_byte _ _, rfl⟩
theorem rxPoll : Statement .rxPoll := ⟨by decide, rfl⟩
theorem iirSetparams : Statement .iirSetparams := ⟨by decide, rfl⟩
theorem iirStep : Statement .iirStep := ⟨by decide, rfl⟩
theorem iirReset : Statement .iirReset := ⟨by decide, rfl⟩
theorem pidSetGains : Statement .pidSetGains := ⟨by decide, rfl⟩
theorem pidSetLimits : Statement .pidSetLimits := ⟨by decide, rfl⟩
theorem pidStep : Statement .pidStep := ⟨by decide, rfl⟩
theorem pidReset : Statement .pidReset := ⟨by decide, rfl⟩

end TableMatch

end Sys2Proof.Laws
end

