-- ==== Sys2Proof/Laws/Separation.lean ====
section
/-! SUPPORT. An exact coefficient of 43_iir R182 keeps a distance, with an explicit bound, from every
multiple of 2^-150, where RNE32 has its rounding boundaries (`exactCoef_separated`). The one exception is
the zero A1 of fs = 4·fc. -/

namespace Sys2Proof.Machine

open Polynomial
open Config (Coef)

/-! ### No exact coefficient is a multiple of 2^-150 -/

/-- θ as a rational multiple of π. -/
theorem theta_eq_rat (fc fs : F32) : ∃ r : ℚ, theta fc fs = r * Real.pi :=
  ⟨2 * unitsAbs fc / unitsAbs fs, by unfold theta; push_cast; ring⟩

theorem trigDen_pos {x : ℝ} (h : 0 < Real.sin x) : 0 < trigDen x := by
  unfold trigDen
  positivity

/-- cos θ is zero for fs = 4·fc only. -/
theorem cos_theta_eq_zero {fc fs : F32} (h : validParams fc fs = true)
    (hc : Real.cos (theta fc fs) = 0) : 4 * unitsAbs fc = unitsAbs fs := by
  obtain ⟨t0, tpi⟩ := theta_bounds h
  obtain ⟨-, -, -, -, h1, h2⟩ := validParams_units h
  have hb : (0 : ℝ) < unitsAbs fs := by exact_mod_cast (by omega : 0 < unitsAbs fs)
  have ht : theta fc fs = Real.pi / 2 := by
    refine Real.injOn_cos ⟨t0.le, tpi.le⟩ ⟨by positivity, by linarith [Real.pi_pos]⟩ ?_
    rw [hc, Real.cos_pi_div_two]
  unfold theta at ht
  rw [div_eq_iff hb.ne'] at ht
  have : (4 * unitsAbs fc : ℝ) = unitsAbs fs := by
    have := Real.pi_pos
    have : Real.pi * (4 * unitsAbs fc) = Real.pi * unitsAbs fs := by linarith
    exact mul_left_cancel₀ Real.pi_ne_zero this
  exact_mod_cast this

theorem exactCoef_ne_dyadic {fc fs : F32} (h : validParams fc fs = true) (c : Coef)
    (hx : ¬ (c = .a1 ∧ 4 * unitsAbs fc = unitsAbs fs)) (m : ℤ) :
    2 ^ 150 * trigNum c (theta fc fs) ≠ m * trigDen (theta fc fs) := by
  obtain ⟨t0, tpi⟩ := theta_bounds h
  have hs : 0 < Real.sin (theta fc fs) := Real.sin_pos_of_pos_of_lt_pi t0 tpi
  have hd := trigDen_pos hs
  have hcos : Real.cos (theta fc fs) < 1 := by
    have := Real.cos_lt_cos_of_nonneg_of_le_pi le_rfl tpi.le t0
    rwa [Real.cos_zero] at this
  have hzero := cos_theta_eq_zero h
  intro e
  have mpos : 0 < trigNum c (theta fc fs) → 0 < m := fun hn => by
    have hm : 0 < (m : ℝ) * trigDen (theta fc fs) := by
      rw [← e]
      exact mul_pos (by positivity) hn
    exact Int.cast_pos.mp ((pos_iff_pos_of_mul_pos hm).mpr hd)
  obtain ⟨r, hr⟩ := theta_eq_rat fc fs
  generalize theta fc fs = t at *
  subst hr
  unfold trigDen at e
  cases c
  · refine b0_ne_rat hs (q := m / 2 ^ 150) ?_ ?_
    · have := mpos (by simp only [trigNum]; linarith only [hcos])
      positivity
    · simp only [trigNum] at e
      push_cast
      linarith
  · refine b0_ne_rat hs (q := m / 2 ^ 151) ?_ ?_
    · have := mpos (by simp only [trigNum]; linarith only [hcos])
      positivity
    · simp only [trigNum] at e
      push_cast
      linarith
  · refine b0_ne_rat hs (q := m / 2 ^ 150) ?_ ?_
    · have := mpos (by simp only [trigNum]; linarith only [hcos])
      positivity
    · simp only [trigNum] at e
      push_cast
      linarith
  · refine a1_ne_rat hs (q := m / 2 ^ 150) ?_ ?_
    · intro h0
      have m0 : m = 0 := by simpa using h0
      subst m0
      apply hx ⟨rfl, hzero ?_⟩
      simp only [trigNum] at e
      push_cast at e ⊢
      linarith
    · simp only [trigNum] at e
      push_cast
      linarith
  · refine a2_ne_rat hs (q := m / 2 ^ 150) ?_ ?_
    · intro h0
      rw [div_eq_div_iff (by positivity) (by norm_num)] at h0
      have h3 : m * 3 = 1 * 2 ^ 150 := by exact_mod_cast h0
      omega
    · simp only [trigNum] at e
      push_cast
      linarith

/-! ### Numerator and denominator as polynomials in a root of unity -/

/-- The root of unity of order 8b. -/
noncomputable def zeta (b : ℕ) : ℂ := Complex.exp (2 * Real.pi * Complex.I / (8 * b : ℕ))

theorem zeta_pow {b : ℕ} (hb : 0 < b) (k : ℕ) {x : ℝ} (hx : x * (8 * b) = 2 * Real.pi * k) :
    zeta b ^ k = Real.cos x + Real.sin x * Complex.I := by
  have hb' : ((8 * b : ℕ) : ℂ) ≠ 0 := by exact_mod_cast (by omega : 8 * b ≠ 0)
  have hx' : (x : ℂ) * ((8 * b : ℕ) : ℂ) = 2 * Real.pi * k := by exact_mod_cast hx
  rw [zeta, ← Complex.exp_nat_mul, Complex.ofReal_cos, Complex.ofReal_sin, ← Complex.exp_mul_I]
  congr 1
  field_simp
  linear_combination -hx'

/-- 2·cos θ. -/
noncomputable def cosPoly (a b : ℕ) : ℤ[X] := X ^ (8 * a) + X ^ (8 * (b - a))

/-- 2·√2·sin θ. -/
noncomputable def sinPoly (a b : ℕ) : ℤ[X] :=
  (X ^ b + X ^ (7 * b)) * (X ^ (6 * b) * (X ^ (8 * a) - X ^ (8 * (b - a))))

/-- Twice the numerator of a coefficient. -/
noncomputable def numPoly (c : Coef) (a b : ℕ) : ℤ[X] :=
  match c with
  | .b0 => 2 - cosPoly a b
  | .b1 => 4 - 2 * cosPoly a b
  | .b2 => 2 - cosPoly a b
  | .a1 => -4 * cosPoly a b
  | .a2 => 4 - sinPoly a b

/-- Twice the denominator. -/
noncomputable def denPoly (a b : ℕ) : ℤ[X] := 4 + sinPoly a b

section
variable {a b : ℕ} (hab : 2 * a < b)
include hab

theorem aeval_parts : aeval (zeta b) (cosPoly a b) = ((2 * Real.cos (2 * Real.pi * a / b) : ℝ) : ℂ) ∧
    aeval (zeta b) (sinPoly a b) = ((2 * (√2 * Real.sin (2 * Real.pi * a / b)) : ℝ) : ℂ) := by
  have hb : 0 < b := by omega
  have hb' : (0 : ℝ) < b := by exact_mod_cast hb
  have e1 := zeta_pow hb (8 * a) (x := 2 * Real.pi * a / b) (by push_cast; field_simp)
  have e2 := zeta_pow hb (8 * (b - a)) (x := 2 * Real.pi - 2 * Real.pi * a / b) (by
    rw [Nat.cast_mul, Nat.cast_sub (by omega)]; push_cast; field_simp)
  have e3 := zeta_pow hb b (x := Real.pi / 4) (by ring)
  have e4 := zeta_pow hb (7 * b) (x := 2 * Real.pi - Real.pi / 4) (by push_cast; ring)
  have e5 := zeta_pow hb (6 * b) (x := Real.pi / 2 + Real.pi) (by push_cast; ring)
  rw [Real.cos_two_pi_sub, Real.sin_two_pi_sub] at e2 e4
  rw [Real.cos_pi_div_four, Real.sin_pi_div_four] at e3 e4
  rw [Real.cos_add_pi, Real.sin_add_pi, Real.cos_pi_div_two, Real.sin_pi_div_two] at e5
  simp only [cosPoly, sinPoly, map_add, map_mul, map_sub, map_pow, aeval_X, e1, e2, e3, e4, e5]
  push_cast
  refine ⟨by ring, ?_⟩
  linear_combination (-2 * (√2 : ℂ) * Complex.sin (2 * Real.pi * a / b)) * Complex.I_sq

theorem aeval_numPoly (c : Coef) :
    aeval (zeta b) (numPoly c a b) = ((2 * trigNum c (2 * Real.pi * a / b) : ℝ) : ℂ) := by
  obtain ⟨h1, h2⟩ := aeval_parts hab
  cases c <;> simp only [numPoly, trigNum, map_sub, map_mul, map_neg, map_ofNat, h1, h2] <;>
    push_cast <;> ring

theorem aeval_denPoly :
    aeval (zeta b) (denPoly a b) = ((2 * trigDen (2 * Real.pi * a / b) : ℝ) : ℂ) := by
  obtain ⟨-, h2⟩ := aeval_parts hab
  simp only [denPoly, trigDen, map_add, map_ofNat, h2]
  push_cast
  ring

end

theorem polys_bounded (a b : ℕ) (c : Coef) {z : ℂ} (hz : ‖z‖ = 1) :
    ‖aeval z (numPoly c a b)‖ ≤ 8 ∧ ‖aeval z (denPoly a b)‖ ≤ 8 := by
  have hp : ∀ k : ℕ, ‖z ^ k‖ = 1 := fun k => by rw [norm_pow, hz, one_pow]
  have h1 : ‖aeval z (cosPoly a b)‖ ≤ 2 := by
    simp only [cosPoly, map_add, map_pow, aeval_X]
    refine le_trans (norm_add_le _ _) ?_
    rw [hp, hp]; norm_num
  have h2 : ‖aeval z (sinPoly a b)‖ ≤ 4 := by
    simp only [sinPoly, map_add, map_mul, map_sub, map_pow, aeval_X]
    rw [norm_mul, norm_mul, hp, one_mul]
    have l : ‖z ^ b + z ^ (7 * b)‖ ≤ 2 := by
      refine le_trans (norm_add_le _ _) ?_
      rw [hp, hp]; norm_num
    have r : ‖z ^ (8 * a) - z ^ (8 * (b - a))‖ ≤ 2 := by
      refine le_trans (norm_sub_le _ _) ?_
      rw [hp, hp]; norm_num
    calc _ ≤ 2 * (2 : ℝ) := by gcongr
      _ = 4 := by norm_num
  have n2 : ‖(2 : ℂ)‖ = 2 := by simp
  have n4 : ‖(4 : ℂ)‖ = 4 := by simp
  constructor
  · cases c <;> simp only [numPoly, map_sub, map_mul, map_neg, map_ofNat]
    · exact le_trans (norm_sub_le _ _) (by rw [n2]; linarith)
    · exact le_trans (norm_sub_le _ _) (by rw [norm_mul, n2, n4]; linarith)
    · exact le_trans (norm_sub_le _ _) (by rw [n2]; linarith)
    · rw [norm_mul, norm_neg, n4]; linarith
    · exact le_trans (norm_sub_le _ _) (by rw [n4]; linarith)
  · simp only [denPoly, map_add, map_ofNat]
    exact le_trans (norm_add_le _ _) (by rw [n4]; linarith)

/-! ### The distance -/

/-- The distance of an exact coefficient from a multiple of 2^-150 of magnitude at most 8. -/
theorem exactCoef_separated {fc fs : F32} (h : validParams fc fs = true) (c : Coef)
    (hx : ¬ (c = .a1 ∧ 4 * unitsAbs fc = unitsAbs fs)) {m : ℤ} (hm : |m| ≤ 2 ^ 153) :
    1 ≤ |exactCoef c fc fs - m / 2 ^ 150| * (2 ^ 153 * (2 ^ 157) ^ (8 * unitsAbs fs)) := by
  obtain ⟨-, -, -, -, -, h2⟩ := validParams_units h
  obtain ⟨t0, tpi⟩ := theta_bounds h
  have hs : 0 < Real.sin (theta fc fs) := Real.sin_pos_of_pos_of_lt_pi t0 tpi
  have hne := exactCoef_ne_dyadic h c hx m
  rw [exactCoef_eq h]
  have hd := trigDen_pos hs
  have hd4 : trigDen (theta fc fs) ≤ 4 := by
    unfold trigDen
    nlinarith [sqrtTwo_le, Real.sqrt_nonneg (2 : ℝ), Real.sin_le_one (theta fc fs)]
  have hn : 8 * unitsAbs fs ≠ 0 := by omega
  have hζ : IsPrimitiveRoot (zeta (unitsAbs fs)) (8 * unitsAbs fs) :=
    Complex.isPrimitiveRoot_exp _ hn
  have hP : aeval (zeta (unitsAbs fs)) (2 ^ 150 * numPoly c (unitsAbs fc) (unitsAbs fs) -
      C m * denPoly (unitsAbs fc) (unitsAbs fs)) =
      ((2 * (2 ^ 150 * trigNum c (theta fc fs) - m * trigDen (theta fc fs)) : ℝ) : ℂ) := by
    rw [map_sub, map_mul, map_mul, aeval_numPoly h2, aeval_denPoly h2, map_pow, map_ofNat, aeval_C]
    unfold theta
    push_cast
    simp only [algebraMap_int_eq, eq_intCast]
    ring
  have key := one_le_norm_mul_pow hn hζ (P := 2 ^ 150 * numPoly c (unitsAbs fc) (unitsAbs fs) -
      C m * denPoly (unitsAbs fc) (unitsAbs fs)) (B := 2 ^ 157) (by
    rw [hP]
    exact_mod_cast mul_ne_zero two_ne_zero (sub_ne_zero.mpr hne)) (fun z hz => by
      obtain ⟨b1, b2⟩ := polys_bounded (unitsAbs fc) (unitsAbs fs) c hz
      rw [map_sub, map_mul, map_mul, map_pow, map_ofNat, aeval_C]
      refine le_trans (norm_sub_le _ _) ?_
      have hm' : ‖(algebraMap ℤ ℂ) m‖ ≤ 2 ^ 153 := by
        simp only [algebraMap_int_eq, eq_intCast, Complex.norm_intCast]
        exact_mod_cast hm
      have n2 : ‖(2 : ℂ) ^ 150‖ = 2 ^ 150 := by simp
      rw [norm_mul, norm_mul, n2]
      calc _ ≤ 2 ^ 150 * 8 + 2 ^ 153 * (8 : ℝ) := by gcongr
        _ ≤ 2 ^ 157 := by norm_num) (by norm_num)
  rw [hP, Complex.norm_real, Real.norm_eq_abs] at key
  refine le_trans key ?_
  rw [← mul_assoc]
  refine mul_le_mul_of_nonneg_right ?_ (by positivity)
  generalize trigDen (theta fc fs) = D at *
  generalize trigNum c (theta fc fs) = N at *
  have e : 2 ^ 150 * N - m * D = (N / D - m / 2 ^ 150) * (D * 2 ^ 150) := by field_simp
  rw [e, abs_mul, abs_mul, abs_two, abs_of_pos (by positivity : 0 < D * 2 ^ 150)]
  have := abs_nonneg (N / D - m / 2 ^ 150)
  calc 2 * (|N / D - m / 2 ^ 150| * (D * 2 ^ 150)) = |N / D - m / 2 ^ 150| * (2 * (D * 2 ^ 150)) := by
        ring
    _ ≤ |N / D - m / 2 ^ 150| * 2 ^ 153 := by
        apply mul_le_mul_of_nonneg_left _ this
        linarith

end Sys2Proof.Machine
end

