-- ==== Sys2Proof/Laws/Search.lean ====
section
/-! SUPPORT. The search of Machine/Coefs.lean ends in an attempt whose two ends round alike, for every
valid fc and fs and every coefficient but the zero A1 of fs = 4·fc (`coef_settles`). -/

namespace Sys2Proof.Machine

open Config (Coef)

/-! ### Ends that round apart have a rounding boundary between them -/

theorem divNearestEven_congr {n₁ d₁ n₂ d₂ j : ℕ} (e : ℕ) (h₁ : j * d₁ < 2 * n₁)
    (h₁' : 2 * n₁ < (j + 1) * d₁) (h₂ : j * d₂ < 2 * n₂) (h₂' : 2 * n₂ < (j + 1) * d₂) :
    divNearestEven n₁ (d₁ * 2 ^ e) = divNearestEven n₂ (d₂ * 2 ^ e) := by
  have key : ∀ n d : ℕ, j * d < 2 * n → 2 * n < (j + 1) * d → divNearestEven n (d * 2 ^ e) =
      if (2 * (j / 2 / 2 ^ e) + 1) * 2 ^ e ≤ j then j / 2 / 2 ^ e + 1 else j / 2 / 2 ^ e := by
    intro n d h h'
    have hq : n / (d * 2 ^ e) = j / 2 / 2 ^ e := by
      rw [← Nat.div_div_eq_div_mul, show n / d = j / 2 from ?_]
      have a : 2 * (j / 2) ≤ j := Nat.mul_div_le j 2
      have b : j < 2 * (j / 2) + 2 := by omega
      apply Nat.div_eq_of_lt_le <;> nlinarith
    have hr := Nat.div_add_mod n (d * 2 ^ e)
    unfold divNearestEven
    simp only
    rw [hq] at hr ⊢
    generalize n % (d * 2 ^ e) = r at *
    generalize j / 2 / 2 ^ e = q at *
    have hc : (d * 2 ^ e < 2 * r ∨ 2 * r = d * 2 ^ e ∧ q % 2 = 1) ↔ (2 * q + 1) * 2 ^ e ≤ j := by
      generalize 2 ^ e = D at *
      constructor
      · intro hor
        have : (2 * q + 1) * D * d < (j + 1) * d := by rcases hor with h | ⟨h, -⟩ <;> nlinarith
        have := Nat.lt_of_mul_lt_mul_right this
        omega
      · intro hle
        left
        have := Nat.mul_le_mul_right d hle
        nlinarith
    simp only [hc]
  rw [key _ _ h₁ h₁', key _ _ h₂ h₂']

/-- Two fractions strictly between the same two multiples of half a unit round alike. -/
theorem roundMagnitude_congr {n₁ d₁ n₂ d₂ j : ℕ} (h₁ : j * d₁ < 2 * n₁)
    (h₁' : 2 * n₁ < (j + 1) * d₁) (h₂ : j * d₂ < 2 * n₂) (h₂' : 2 * n₂ < (j + 1) * d₂) :
    roundMagnitude n₁ d₁ = roundMagnitude n₂ d₂ := by
  have hq : ∀ n d : ℕ, j * d < 2 * n → 2 * n < (j + 1) * d → n / d = j / 2 := by
    intro n d h h'
    have a : 2 * (j / 2) ≤ j := Nat.mul_div_le j 2
    have b : j < 2 * (j / 2) + 2 := by omega
    apply Nat.div_eq_of_lt_le <;> nlinarith
  simp only [roundMagnitude, hq _ _ h₁ h₁', hq _ _ h₂ h₂']
  rw [divNearestEven_congr _ h₁ h₁' h₂ h₂']

theorem roundFraction_congr {n₁ n₂ m : ℤ} {d₁ d₂ : ℕ} (h₁ : m * d₁ < n₁ * 2 ^ 150)
    (h₁' : n₁ * 2 ^ 150 < (m + 1) * d₁) (h₂ : m * d₂ < n₂ * 2 ^ 150)
    (h₂' : n₂ * 2 ^ 150 < (m + 1) * d₂) : roundFraction n₁ d₁ = roundFraction n₂ d₂ := by
  have hu : (2 : ℤ) ^ 150 = 2 * unitsOne := by norm_num [unitsOne]
  have u0 : (0 : ℤ) < unitsOne := by norm_num [unitsOne]
  rw [hu] at h₁ h₁' h₂ h₂'
  unfold roundFraction rne32
  generalize unitsOne = u at *
  have hd : ∀ {d : ℕ}, (0 : ℤ) ≤ d := Int.natCast_nonneg _
  rcases le_or_gt 0 m with hm | hm
  · have p₁ : 0 < n₁ := by
      have : 0 ≤ m * d₁ := mul_nonneg hm hd
      nlinarith
    have p₂ : 0 < n₂ := by
      have : 0 ≤ m * d₂ := mul_nonneg hm hd
      nlinarith
    lift m to ℕ using hm
    lift n₁ to ℕ using p₁.le
    lift n₂ to ℕ using p₂.le
    simp only [Int.natAbs_natCast]
    rw [decide_eq_false (by omega), decide_eq_false (by omega)]
    refine congrArg (mkF32 false) (roundMagnitude_congr (j := m) ?_ ?_ ?_ ?_) <;> zify <;> linarith
  · have p₁ : n₁ < 0 := by
      have : (m + 1) * d₁ ≤ 0 := mul_nonpos_of_nonpos_of_nonneg (by omega) hd
      nlinarith
    have p₂ : n₂ < 0 := by
      have : (m + 1) * d₂ ≤ 0 := mul_nonpos_of_nonpos_of_nonneg (by omega) hd
      nlinarith
    obtain ⟨j, rfl⟩ : ∃ j : ℕ, m = -(j + 1 : ℕ) := ⟨(-m - 1).toNat, by omega⟩
    obtain ⟨a, rfl⟩ : ∃ a : ℕ, n₁ = -a := ⟨(-n₁).toNat, by omega⟩
    obtain ⟨b, rfl⟩ : ∃ b : ℕ, n₂ = -b := ⟨(-n₂).toNat, by omega⟩
    simp only [Int.natAbs_neg, Int.natAbs_natCast]
    rw [decide_eq_true p₁, decide_eq_true p₂]
    push_cast at h₁ h₁' h₂ h₂'
    refine congrArg (mkF32 true) (roundMagnitude_congr (j := j) ?_ ?_ ?_ ?_) <;> zify <;> linarith

/-- `roundFraction` is RNE32 of the fraction. -/
theorem roundFraction_isRNE (n : ℤ) {d : ℕ} (h : 0 < d) :
    IsRNE32 ((n : ℝ) / d) (roundFraction n d) := by
  have key := rne32_isRNE (decide (n < 0)) (n.natAbs * unitsOne) d h
  have hu : ((unitsOne : ℕ) : ℝ) = 2 ^ 149 := by norm_num [unitsOne]
  have e : (if decide (n < 0) = true then (-1 : ℝ) else 1) *
      ((n.natAbs * unitsOne : ℕ) / d / 2 ^ 149) = n / d := by
    push_cast
    rw [hu, Nat.cast_natAbs]
    rcases lt_or_ge n 0 with hn | hn
    · rw [if_pos (decide_eq_true hn), abs_of_neg hn]
      push_cast
      field_simp
    · rw [if_neg (by simpa using hn), abs_of_nonneg hn]
      field_simp
  rw [e] at key
  exact key

/-- If two fractions round apart, a multiple of 2^-150 lies between them or is one of them. -/
theorem boundary_between {n₁ n₂ : ℤ} {d₁ d₂ : ℕ} (hd₁ : 0 < d₁) (hd₂ : 0 < d₂)
    (hle : (n₁ / d₁ : ℝ) ≤ n₂ / d₂) (hne : roundFraction n₁ d₁ ≠ roundFraction n₂ d₂) :
    ∃ m : ℤ, (n₁ / d₁ : ℝ) ≤ m / 2 ^ 150 ∧ (m / 2 ^ 150 : ℝ) ≤ n₂ / d₂ := by
  have hd₁' : (0 : ℝ) < d₁ := by exact_mod_cast hd₁
  have hd₂' : (0 : ℝ) < d₂ := by exact_mod_cast hd₂
  have hh : (0 : ℝ) < 2 ^ 150 := by positivity
  by_contra hno
  push Not at hno
  have l := Int.floor_le ((n₁ / d₁ : ℝ) * 2 ^ 150)
  have u := Int.lt_floor_add_one ((n₁ / d₁ : ℝ) * 2 ^ 150)
  generalize ⌊(n₁ / d₁ : ℝ) * 2 ^ 150⌋ = m at l u
  have l' : (m : ℝ) < n₁ / d₁ * 2 ^ 150 := by
    refine lt_of_le_of_ne l fun e => ?_
    have := hno m (by rw [le_div_iff₀ hh]; exact e.ge)
    rw [lt_div_iff₀ hh] at this
    nlinarith
  have u' : (n₂ / d₂ : ℝ) * 2 ^ 150 < m + 1 := by
    have := hno (m + 1) (by rw [le_div_iff₀ hh]; push_cast; exact u.le)
    rw [lt_div_iff₀ hh] at this
    push_cast at this
    exact this
  have mid : (n₁ / d₁ : ℝ) * 2 ^ 150 ≤ n₂ / d₂ * 2 ^ 150 := by gcongr
  have l₂ := lt_of_lt_of_le l' mid
  rw [div_mul_eq_mul_div, lt_div_iff₀ hd₁'] at l'
  rw [div_mul_eq_mul_div, lt_div_iff₀ hd₂'] at l₂
  rw [div_mul_eq_mul_div, div_lt_iff₀ hd₁'] at u
  rw [div_mul_eq_mul_div, div_lt_iff₀ hd₂'] at u'
  exact hne (roundFraction_congr (m := m) (by exact_mod_cast l') (by exact_mod_cast u)
    (by exact_mod_cast l₂) (by exact_mod_cast u'))

/-! ### The search -/

theorem abs_exactCoef_le {fc fs : F32} (h : validParams fc fs = true) (c : Coef) :
    |exactCoef c fc fs| ≤ 2 := by
  obtain ⟨t0, tpi⟩ := theta_bounds h
  have hD : 2 ≤ trigDen (theta fc fs) := by
    unfold trigDen
    have := mul_nonneg (Real.sqrt_nonneg 2) (Real.sin_nonneg_of_nonneg_of_le_pi t0.le tpi.le)
    linarith
  rw [exactCoef_eq h, abs_div, abs_of_pos (by linarith : 0 < trigDen (theta fc fs)),
    div_le_iff₀ (by linarith)]
  linarith [trigNum_le c (theta fc fs)]

/-- The two ends of an attempt, as real numbers, enclose the exact coefficient. -/
theorem coef_ends (k : Nat) {fc fs : F32} (h : validParams fc fs = true) (c : Coef) :
    let t := thetaScaled k fc fs
    let lo : ℝ := ((coefNum c k t * 2 ^ enclosureBits k - coefDen k t : ℤ) : ℝ) /
      ((coefDen k t * 2 ^ enclosureBits k : ℕ) : ℝ)
    let hi : ℝ := ((coefNum c k t * 2 ^ enclosureBits k + coefDen k t : ℤ) : ℝ) /
      ((coefDen k t * 2 ^ enclosureBits k : ℕ) : ℝ)
    0 < coefDen k t * 2 ^ enclosureBits k ∧ lo ≤ exactCoef c fc fs ∧ exactCoef c fc fs ≤ hi ∧
      hi - lo = 2 / 2 ^ enclosureBits k := by
  intro t lo hi
  obtain ⟨d0, he⟩ := coef_enclosure k h c
  have d0' : (0 : ℝ) < coefDen k t := by exact_mod_cast d0
  have lo_eq : lo = coefNum c k t / coefDen k t - 1 / 2 ^ enclosureBits k := by
    simp only [lo]; push_cast; field_simp
  have hi_eq : hi = coefNum c k t / coefDen k t + 1 / 2 ^ enclosureBits k := by
    simp only [hi]; push_cast; field_simp
  rw [abs_le] at he
  refine ⟨by positivity, ?_, ?_, ?_⟩
  · rw [lo_eq]; linarith [he.1]
  · rw [hi_eq]; linarith [he.2]
  · rw [lo_eq, hi_eq]; ring

/-- An attempt with enough bits has ends that round alike. -/
theorem attempt_settles {fc fs : F32} (h : validParams fc fs = true) (c : Coef)
    (hx : ¬ (c = .a1 ∧ 4 * unitsAbs fc = unitsAbs fs)) {k : Nat}
    (hk : 154 + 157 * (8 * unitsAbs fs) < enclosureBits k) :
    coefLower c k (thetaScaled k fc fs) = coefUpper c k (thetaScaled k fc fs) := by
  by_contra hne
  obtain ⟨d0, hlo, hhi, hw⟩ := coef_ends k h c
  obtain ⟨m, h1, h2⟩ := boundary_between d0 d0 (le_trans hlo hhi) hne
  have hE := abs_exactCoef_le h c
  have hsep := exactCoef_separated h c hx (m := m)
  have dist : |exactCoef c fc fs - m / 2 ^ 150| ≤ 2 / 2 ^ enclosureBits k := by
    rw [← hw, abs_le]
    constructor <;> linarith
  clear hw hlo hhi hne h1 h2 d0
  generalize exactCoef c fc fs = E at *
  generalize 8 * unitsAbs fs = n at *
  have small : (2 : ℝ) / 2 ^ enclosureBits k * 2 ^ (153 + 157 * n) < 1 := by
    rw [div_mul_eq_mul_div, div_lt_one (by positivity), ← pow_succ']
    exact pow_lt_pow_right₀ (by norm_num) (by omega)
  have hm : |m| ≤ 2 ^ 153 := by
    have one : (2 : ℝ) / 2 ^ enclosureBits k ≤ 1 := by
      refine le_trans ?_ small.le
      exact le_mul_of_one_le_right (by positivity) (one_le_pow₀ (by norm_num))
    have : |(m : ℝ)| ≤ 2 ^ 153 := by
      rw [abs_le] at *
      have e : (m : ℝ) = m / 2 ^ 150 * 2 ^ 150 := by field_simp
      generalize (m : ℝ) / 2 ^ 150 = y at *
      rw [e]
      constructor <;> linarith [dist.1, dist.2, hE.1, hE.2]
    exact_mod_cast this
  have := hsep hm
  rw [← pow_mul, ← pow_add] at this
  have := mul_le_mul_of_nonneg_right dist (by positivity : (0 : ℝ) ≤ 2 ^ (153 + 157 * n))
  linarith

theorem unitsAbs_lt {b : F32} (h : isfinite b = true) : unitsAbs b < 2 ^ 277 := by
  obtain ⟨e, m, hm, hm24, hem, hu⟩ := unitsAbs_fields b
  rw [isfinite_iff, hm] at h
  have he : e ≤ 253 := by
    simp only [infMagnitude] at h
    omega
  rw [hu, show (277 : ℕ) = 24 + 253 from rfl, pow_add]
  calc m * 2 ^ e < 2 ^ 24 * 2 ^ e := by gcongr
    _ ≤ 2 ^ 24 * 2 ^ 253 := Nat.mul_le_mul_left _ (Nat.pow_le_pow_right (by norm_num) he)

/-- Attempt 280 has enough bits, whatever fs is. -/
theorem enough_bits {fs : F32} (h : isfinite fs = true) :
    154 + 157 * (8 * unitsAbs fs) < enclosureBits 280 := by
  have arith : ∀ u q : ℕ, u < q → 154 + 157 * (8 * u) < 4096 * q - 22 := by omega
  have e : scaleBits 280 = 4096 * 2 ^ 277 := by
    rw [scaleBits, show (280 : ℕ) = 3 + 277 from rfl, pow_add, ← Nat.mul_assoc,
      show 512 * 2 ^ 3 = 4096 from rfl]
  unfold enclosureBits
  rw [e]
  exact arith _ _ (unitsAbs_lt h)

/-- The search answers the first settled attempt, where there is one in its range. -/
theorem coefSearch_settled {c : Coef} {fc fs : F32} {n k j : Nat} (h1 : k ≤ j) (h2 : j < k + n)
    (h : coefLower c j (thetaScaled j fc fs) = coefUpper c j (thetaScaled j fc fs)) :
    ∃ i, coefLower c i (thetaScaled i fc fs) = coefUpper c i (thetaScaled i fc fs) ∧
      coefSearch c fc fs n k = coefLower c i (thetaScaled i fc fs) := by
  induction n generalizing k with
  | zero => omega
  | succ n ih =>
    unfold coefSearch
    split
    · next hs => exact ⟨k, hs, rfl⟩
    · next hs =>
      have : k ≠ j := fun e => hs (e ▸ h)
      exact ih (by omega) (by omega)

/-- Each coefficient, but for the zero A1 of fs = 4·fc, is the common rounding of the two ends of an
attempt. -/
theorem coef_settles {fc fs : F32} (h : validParams fc fs = true) {c : Coef}
    (hx : ¬ (c = .a1 ∧ 4 * unitsAbs fc = unitsAbs fs)) :
    ∃ k, coefLower c k (thetaScaled k fc fs) = coefUpper c k (thetaScaled k fc fs) ∧
      coef c fc fs = coefLower c k (thetaScaled k fc fs) := by
  obtain ⟨-, hfs, -⟩ := validParams_units h
  have hs := attempt_settles h c hx (enough_bits hfs)
  rw [coef, if_neg hx]
  exact coefSearch_settled (Nat.zero_le 280) (by decide) hs

end Sys2Proof.Machine
end

