-- ==== Sys2Proof/Laws/Step.lean ====
section
/-! SUPPORT. What taking an event can come to, said once: the lemmas that a proof about a step cites
instead of unfolding `take`. -/

namespace Sys2Proof.Machine

/-- An offset inside the window is decoded as itself (R60). -/
theorem windowOffset_base (p : Params) {off : Nat} (h : off < 0x400) :
    windowOffset p (p.base + off) = some off := by
  have h' : p.base + off < p.base + Config.windowSize := Nat.add_lt_add_left h _
  simp [windowOffset, h']

theorem windowOffset_some {p : Params} {addr off : Nat} (h : windowOffset p addr = some off) :
    addr = p.base + off ∧ off < 0x400 := by
  unfold windowOffset at h
  split at h
  · rename_i hb
    have : addr - p.base = off := Option.some.inj h
    have hw : Config.windowSize = 0x400 := rfl
    omega
  · cases h

theorem windowOffset_none {p : Params} {addr : Nat} (h : windowOffset p addr = none) :
    addr < p.base ∨ p.base + 0x400 ≤ addr := by
  unfold windowOffset at h
  split at h
  · cases h
  · rename_i hb
    have hw : Config.windowSize = 0x400 := rfl
    omega

/-- Taking a read inside the window. -/
theorem take_read {s : State} {off size : Nat} {rest : List BusEvent} (h : off < 0x400)
    (hp : s.pending = .read (s.params.base + off) size :: rest) :
    take s = .done (busRead off size (s.setPending rest)) := by
  unfold take
  rw [hp]
  simp only [windowOffset_base _ h]

/-- Taking a write inside the window. -/
theorem take_write {s : State} {off size : Nat} {v : Word} {rest : List BusEvent} (h : off < 0x400)
    (hp : s.pending = .write (s.params.base + off) size v :: rest) :
    take s = busWrite off size v (s.setPending rest) := by
  unfold take
  rw [hp]
  simp only [windowOffset_base _ h]

/-- Everything that taking an event without a command can come to. -/
theorem take_done_cases {s t : State} (h : take s = .done t) :
    (s.pending = [] ∧ t = s) ∨
    (∃ rest, s.pending = .reset :: rest ∧ t = resetEvent (s.setPending rest)) ∨
    (∃ off size rest, off < 0x400 ∧ s.pending = .read (s.params.base + off) size :: rest ∧
      t = busRead off size (s.setPending rest)) ∨
    ∃ off size v rest, off < 0x400 ∧ s.pending = .write (s.params.base + off) size v :: rest ∧
      ((unsupported off size = true ∧ t = (s.setPending rest).setBusErr true) ∨
        (unsupported off size = false ∧ off ≠ 0 ∧ t = memWrite off v (s.setPending rest))) := by
  unfold take at h
  split at h
  · rename_i hp
    cases h
    exact .inl ⟨hp, rfl⟩
  · rename_i rest hp
    cases h
    exact .inr (.inl ⟨rest, hp, rfl⟩)
  · rename_i addr size rest hp
    split at h
    · cases h
    · rename_i off hw
      cases h
      obtain ⟨ha, ho⟩ := windowOffset_some hw
      exact .inr (.inr (.inl ⟨off, size, rest, ho, by rw [hp, ha], rfl⟩))
  · rename_i addr size v rest hp
    split at h
    · cases h
    · rename_i off hw
      obtain ⟨ha, ho⟩ := windowOffset_some hw
      refine .inr (.inr (.inr ⟨off, size, v, rest, ho, by rw [hp, ha], ?_⟩))
      unfold busWrite at h
      split at h
      · rename_i hu
        cases h
        exact .inl ⟨hu, rfl⟩
      · rename_i hu
        split at h
        · cases h
        · rename_i hc
          cases h
          exact .inr ⟨Bool.eq_false_iff.mpr hu, hc, rfl⟩

/-- The one way a command starts: a supported write to CMD, with the word stored (R80). -/
theorem take_command_cases {s t : State} {w : Word} (h : take s = .command w t) :
    ∃ rest, s.pending = .write s.params.base 4 w :: rest ∧ t = (s.setPending rest).setCmd w := by
  unfold take at h
  split at h
  · cases h
  · cases h
  · split at h <;> cases h
  · rename_i addr size v rest hp
    split at h
    · cases h
    · rename_i off hw
      obtain ⟨ha, ho⟩ := windowOffset_some hw
      unfold busWrite at h
      split at h
      · cases h
      · rename_i hu
        split at h
        · rename_i hc
          have h0 : off = 0 := hc
          subst h0
          simp only [unsupported, Bool.or_eq_true, bne_iff_ne, ne_eq, not_or, not_not] at hu
          cases h
          exact ⟨rest, by rw [hp, ha, hu.1]; rfl, rfl⟩
        · cases h

/-- Only an access outside the window is outside (R60). -/
theorem take_outside_cases {s : State} (h : take s = .outside) :
    ∃ addr size rest, (addr < s.params.base ∨ s.params.base + 0x400 ≤ addr) ∧
      (s.pending = .read addr size :: rest ∨ ∃ v, s.pending = .write addr size v :: rest) := by
  unfold take at h
  split at h
  · cases h
  · cases h
  · rename_i addr size rest hp
    split at h
    · rename_i hw
      exact ⟨addr, size, rest, windowOffset_none hw, .inl hp⟩
    · cases h
  · rename_i addr size v rest hp
    split at h
    · rename_i hw
      exact ⟨addr, size, rest, windowOffset_none hw, .inr ⟨v, hp⟩⟩
    · unfold busWrite at h
      split at h
      · cases h
      · split at h <;> cases h

/-- Everything that a supported write outside CMD can change (R37, R38): STATUS.BUSERR, an ARG
register, FBUF or PBUF. -/
theorem memWrite_cases (off : Nat) (v : Word) (s : State) (h : off ≠ 0) :
    memWrite off v s = s ∨
    (off = 0x004 ∧ memWrite off v s = writeStatus v s) ∨
    (∃ a, memWrite off v s = s.setArg a) ∨
    (0x100 ≤ off ∧ off < 0x200 ∧
      memWrite off v s = s.setFbuf (s.fbuf.writeWord (off - 0x100) v)) ∨
    (0x200 ≤ off ∧ off < 0x300 ∧
      memWrite off v s = s.setPbuf (s.pbuf.writeWord (off - 0x200) v)) := by
  unfold memWrite
  split
  · split
    · rename_i r hr
      have hoff : regOffset r = off := by
        simpa using List.find?_some hr
      cases r <;>
        first
        | exact .inl rfl
        | exact absurd hoff.symm h
        | exact .inr (.inl ⟨hoff.symm, rfl⟩)
        | exact .inr (.inr (.inl ⟨_, rfl⟩))
    · exact .inl rfl
  · split
    · exact .inr (.inr (.inr (.inl ⟨by omega, by assumption, rfl⟩)))
    · split
      · exact .inr (.inr (.inr (.inr ⟨by omega, by assumption, rfl⟩)))
      · exact .inl rfl

end Sys2Proof.Machine
end

