-- ==== Sys2Proof/Tests/Slice0.lean ====
section
/-! SUPPORT. Tests. Every expected value is the spec's: a vector V-… of spec/95_test_vectors.md, a
rule's worked example, or a word written out from the encoding table of R81 and R83. Each `witness_…`
shows a concrete state and operands that meet the hypotheses of the obligation it is named after. -/

namespace Sys2Proof.Tests

open Sys2Proof.Machine
open Sys2Proof.Config (Coef)

-- One test at a time: elaborated at once, this file's tests need more threads than the limit allows.
set_option Elab.async false

/-! ### Small states -/

/-- The next state, if there is one. -/
def nextOf (o : Outcome) : Option State :=
  match o with
  | .next t => some t
  | .fault _ => none
  | .refused _ => none

/-- The state after reset, with these bytes in FBUF. -/
def withFbuf (b : List Byte) : State := State.reset.setFbuf (Memory.writeBytes [] 0 b)

/-- The state after reset, with these operands. -/
def withArg (a0 a1 a2 a3 : Word) : State := State.reset.setArg ⟨a0, a1, a2, a3⟩

/-- The state after reset, with these bytes in RX. -/
def withRx (b : List Byte) : State := State.reset.setRx b

/-- The state after reset, with one event pending. -/
def pend (e : BusEvent) : State := State.reset.setPending [e]

/-- V-B1's frame. -/
def cmdFrame : List Byte :=
  [0xAA, 0x55, 0x01, 0x01, 0x06, 0x00, 0x00, 0x00, 0xFF, 0x3F, 0x01, 0xE0, 0xAC, 0x78]

/-- V-B3's frame. -/
def tlmFrame : List Byte :=
  [0xAA, 0x55, 0x01, 0x02, 0x0F, 0x00, 0x34, 0x12, 0x05, 0xE8, 0x03, 0x18, 0xFC, 0x00, 0x00, 0xFA,
   0x00, 0x00, 0x80, 0xFF, 0x7F, 0x0F, 0x2F]

/-- V-B4's frame. -/
def pingFrame : List Byte := [0xAA, 0x55, 0x01, 0x03, 0x00, 0x00, 0xF1, 0xD8]

/-- V-B5's frame. -/
def pongFrame : List Byte := [0xAA, 0x55, 0x01, 0x04, 0x00, 0x00, 0x40, 0x19]

/-- V-B6's frame. -/
def logFrame : List Byte := [0xAA, 0x55, 0x01, 0x05, 0x02, 0x00, 0x68, 0x69, 0x23, 0x9C]

/-- The filter configured as in R183's example. -/
def configured : State :=
  State.reset.setIir ⟨true, 0x3C5AE08C, 0x3CDAE08C, 0x3C5AE08C, 0xBFD2DFF8, 0x3F336DF9, 0, 0, 0, 0⟩

/-- The controller of R202's example. -/
def controller : State :=
  (withArg 0x3F800000 0x3C23D70A 0 0).setPid
    ⟨0x40000000, 0x3F000000, 0x3DCCCCCD, 0x3F800000, 0x41200000, 0, 0, true⟩

/-! ### WellFormed refuses what is ill-formed (R81, R8) -/

theorem test_count_too_big : ¬ (Instr.crc16 65536).WellFormed := by decide
theorem test_capacity_too_big : ¬ (Instr.buildLog 65536).WellFormed := by decide
theorem test_count_fits : (Instr.crc16 65535).WellFormed := by decide
theorem test_params_base : ¬ Params.WellFormed { Params.tp1 with base := 0x200 } := by decide
theorem test_params_types : ¬ Params.WellFormed { Params.tp1 with typeLog := 0x01 } := by decide
theorem test_params_equal_syncs : Params.WellFormed { Params.tp1 with sync1 := 0xAA } := by decide

/-! ### Decoding: words written out from R81 and R83 -/

theorem test_decode_nop : decode 0x00000000 = .ok .nop := by decide
theorem test_decode_crc16 : decode 0x00090010 = .ok (.crc16 9) := by decide
theorem test_decode_build_cmd : decode 0x000E0011 = .ok (.buildCmd 14) := by decide
theorem test_decode_build_tlm : decode 0x00170012 = .ok (.buildTlm 23) := by decide
theorem test_decode_build_ping : decode 0x00080013 = .ok (.buildPing 8) := by decide
theorem test_decode_build_pong : decode 0x01000014 = .ok (.buildPong 256) := by decide
theorem test_decode_build_log : decode 0x00D00015 = .ok (.buildLog 208) := by decide
theorem test_decode_parse_cmd : decode 0x000E0018 = .ok (.parseCmd 14) := by decide
theorem test_decode_parse_tlm : decode 0x00170019 = .ok (.parseTlm 23) := by decide
theorem test_decode_parse_ping : decode 0x0008001A = .ok (.parsePing 8) := by decide
theorem test_decode_parse_pong : decode 0xFFFF001B = .ok (.parsePong 65535) := by decide
theorem test_decode_parse_log : decode 0x000A001C = .ok (.parseLog 10) := by decide
theorem test_decode_find_start : decode 0x8000001D = .ok (.findStart 32768) := by decide
theorem test_decode_rx_push : decode 0x0000AA20 = .ok (.rxPush 0xAA) := by decide
theorem test_decode_rx_poll : decode 0x00000021 = .ok .rxPoll := by decide
theorem test_decode_iir_setparams : decode 0x00000030 = .ok .iirSetparams := by decide
theorem test_decode_iir_step : decode 0x00000031 = .ok .iirStep := by decide
theorem test_decode_iir_reset : decode 0x00000032 = .ok .iirReset := by decide
theorem test_decode_pid_set_gains : decode 0x00000040 = .ok .pidSetGains := by decide
theorem test_decode_pid_set_limits : decode 0x00000041 = .ok .pidSetLimits := by decide
theorem test_decode_pid_step : decode 0x00000042 = .ok .pidStep := by decide
theorem test_decode_pid_reset : decode 0x00000043 = .ok .pidReset := by decide
/-- V-E: an OP between two assigned ones, a nonzero SEL, a nonzero N. -/
theorem test_decode_illegal :
    decode 0x00000016 = .error .unassignedOp ∧ decode 0x00000110 = .error .selNotZero ∧
    decode 0x00010020 = .error .nNotZero ∧ decode 0x00000100 = .error .selNotZero := by decide

/-! ### One step of each command -/

/-- R100's example: CODE returns to OK, BUSERR stays. -/
theorem test_nop :
    (nextOf (exec .nop ((State.reset.setCode .crcMismatch).setBusErr true))).map statusWord =
      some 0x100 := by decide

/-- V-C7. -/
theorem test_crc16 :
    (nextOf (exec (.crc16 9)
      (withFbuf [0x31, 0x32, 0x33, 0x34, 0x35, 0x36, 0x37, 0x38, 0x39]))).map
        (fun t => (t.res.w0, t.code)) = some (0x4B37, .ok) := by decide +kernel

/-- V-C10: the sum is taken without wrap. -/
theorem test_crc16_no_wrap :
    (nextOf (exec (.crc16 1) (withArg 0xFFFFFFFF 0 0 0))).map (fun t => (t.res.w0, t.code)) =
      some (0, .badArg) := by decide +kernel

/-- V-B1. -/
theorem test_build_cmd :
    (nextOf (exec (.buildCmd 14) (withArg 0x3F000000 0xBE800000 0 0))).map
      (fun t => (t.fbuf.slice 0 14, t.res.w0, t.cmdSeq, t.code)) =
        some (cmdFrame, 14, 1, .ok) := by decide +kernel

/-- V-B14: CMD_SEQ wraps, and the frame carries it as it was. -/
theorem test_build_cmd_wraps :
    (nextOf (exec (.buildCmd 256) (State.reset.setCmdSeq 0xFFFF))).map
      (fun t => (t.fbuf.slice 6 2, t.cmdSeq)) = some ([0xFF, 0xFF], 0) := by decide +kernel

/-- V-B3. -/
theorem test_build_tlm :
    (nextOf (exec (.buildTlm 23) (withArg 0x00051234 0xFC1803E8 0x00FA0000 0x7FFF8000))).map
      (fun t => (t.fbuf.slice 0 23, t.res.w0, t.code)) = some (tlmFrame, 23, .ok) := by
  decide +kernel

/-- V-B4. -/
theorem test_build_ping :
    (nextOf (exec (.buildPing 8) State.reset)).map
      (fun t => (t.fbuf.slice 0 8, t.res.w0, t.code)) = some (pingFrame, 8, .ok) := by
  decide +kernel

/-- V-B11. -/
theorem test_build_ping_small :
    nextOf (exec (.buildPing 7) State.reset) = some (State.reset.setCode .bufferTooSmall) := by
  decide +kernel

/-- V-B5. -/
theorem test_build_pong :
    (nextOf (exec (.buildPong 8) State.reset)).map
      (fun t => (t.fbuf.slice 0 8, t.res.w0, t.code)) = some (pongFrame, 8, .ok) := by
  decide +kernel

/-- V-B6. -/
theorem test_build_log :
    (nextOf (exec (.buildLog 10)
      ((withArg 2 0 0 0).setPbuf (Memory.writeBytes [] 0 [0x68, 0x69])))).map
        (fun t => (t.fbuf.slice 0 10, t.res.w0, t.code)) = some (logFrame, 10, .ok) := by
  decide +kernel

/-- V-B8 and V-B12: a length above 200 is truncated, and the capacity test uses the truncated one. -/
theorem test_build_log_truncates :
    (nextOf (exec (.buildLog 208) (withArg 1000 0 0 0))).map (fun t => (t.res.w0, t.code)) =
      some (208, .ok) ∧
    nextOf (exec (.buildLog 207) (withArg 1000 0 0 0)) =
      some ((withArg 1000 0 0 0).setCode .bufferTooSmall) := by decide +kernel

/-- R121's example. -/
theorem test_parse_cmd :
    (nextOf (exec (.parseCmd 14) (withFbuf cmdFrame))).map (fun t => (t.res, t.code)) =
      some (⟨0, 0x3EFFFE00, 0xBE7FFA00, 0⟩, .ok) := by decide +kernel

/-- V-P2: a changed CRC byte. -/
theorem test_parse_cmd_crc :
    (nextOf (exec (.parseCmd 14) (withFbuf (cmdFrame.set 12 0xAD)))).map
      (fun t => (t.res, t.code)) = some (⟨0, 0, 0, 0⟩, .crcMismatch) := by decide +kernel

/-- R122's example. -/
theorem test_parse_tlm :
    (nextOf (exec (.parseTlm 23) (withFbuf tlmFrame))).map (fun t => (t.res, t.code)) =
      some (⟨0x00051234, 0xFC1803E8, 0x00FA0000, 0x7FFF8000⟩, .ok) := by decide +kernel

/-- R123's example. -/
theorem test_parse_ping :
    (nextOf (exec (.parsePing 8) (withFbuf pingFrame))).map State.code = some .ok ∧
    (nextOf (exec (.parsePong 8) (withFbuf pingFrame))).map State.code = some .invalidType := by
  decide +kernel

/-- R124's example. -/
theorem test_parse_pong :
    (nextOf (exec (.parsePong 8) (withFbuf pongFrame))).map State.code = some .ok := by
  decide +kernel

/-- R125's example. -/
theorem test_parse_log :
    (nextOf (exec (.parseLog 10) (withFbuf logFrame))).map (fun t => (t.res.w0, t.code)) =
      some (2, .ok) := by decide +kernel

/-- R126's two examples. -/
theorem test_find_start :
    (nextOf (exec (.findStart 5) (withFbuf [0x00, 0xAA, 0x55, 0x01, 0x01]))).map
      (fun t => (t.res.w0, t.code)) = some (1, .ok) ∧
    (nextOf (exec (.findStart 3) (withFbuf [0x00, 0x00, 0xAA]))).map
      (fun t => (t.res.w0, t.code)) = some (0, .notFound) := by decide +kernel

/-- R160's example. -/
theorem test_rx_push :
    (nextOf (exec (.rxPush 0xAA) State.reset)).map (fun t => (t.rx, t.code)) =
      some ([0xAA], .ok) := by decide

/-- R160: a push into a full RX loses the byte. -/
theorem test_rx_push_full :
    (nextOf (exec (.rxPush 0xAA) (withRx (List.replicate 256 0)))).map
      (fun t => (t.rx.length, t.code)) = some (256, .rxFull) := by decide +kernel

/-- R163's example: a false prefix and header, then V-B1's frame. -/
theorem test_rx_poll :
    (nextOf (exec .rxPoll (withRx ([0xAA, 0x55, 0x01, 0x01, 0x06, 0x00] ++ cmdFrame)))).map
      (fun t => (t.fbuf.slice 0 15, t.res, t.rx, t.code)) =
        some (cmdFrame ++ [0x00], ⟨14, 1, 0, 0⟩, [], .ok) := by decide +kernel

/-- R163: a full buffer without a prefix is discarded whole. -/
theorem test_rx_poll_full :
    (nextOf (exec .rxPoll (withRx (List.replicate 256 0)))).map (fun t => (t.rx, t.code)) =
      some ([], .noFrame) := by decide +kernel

/-- R183's example. -/
theorem test_iir_setparams :
    (nextOf (exec .iirSetparams (withArg 0x41A00000 0x43FA0000 0 0))).map
      (fun t => (t.iir, t.code)) = some (configured.iir, .ok) := by decide +kernel

/-- The smallest fc and the largest fs, by hand: K² is below 2^-550, so B0 rounds to +0.0, A1 to −2.0 and
A2 to 1.0. B0 takes a second attempt. -/
theorem test_coef_second_attempt :
    [Config.Coef.b0, .a1, .a2].map (fun c => coef c 0x00000001 0x7F7FFFFF) =
      [0x00000000, 0xC0000000, 0x3F800000] := by decide +kernel

/-- R183: fc = fs/2 exactly is rejected, and the old coefficients stay. -/
theorem test_iir_setparams_rejects :
    (nextOf (exec .iirSetparams (configured.setArg ⟨0x437A0000, 0x43FA0000, 0, 0⟩))).map
      (fun t => (t.iir, t.code)) =
        some ({ configured.iir with configured := false }, .paramRejected) := by decide +kernel

/-- R185's example. -/
theorem test_iir_step :
    (nextOf (exec .iirStep (configured.setArg ⟨0x3F800000, 0, 0, 0⟩))).map
      (fun t => (t.res.w0, t.iir.x1, t.iir.x2, t.iir.y1, t.iir.y2)) =
        some (0x3C5AE08C, 0x3F800000, 0, 0x3C5AE08C, 0) := by decide +kernel

/-- R185: the passthrough keeps a NaN's payload. -/
theorem test_iir_step_passthrough :
    (nextOf (exec .iirStep (withArg 0x7F800001 0 0 0))).map
      (fun t => (t.res.w0, t.iir.x1, t.iir.y1)) = some (0x7F800001, 0x7F800001, 0x7F800001) := by
  decide +kernel

/-- R186's example. -/
theorem test_iir_reset :
    (nextOf (exec .iirReset (configured.setIir
      { configured.iir with x1 := 0x3F800000, y1 := 0x3C5AE08C }))).map
        (fun t => (t.iir, t.code)) = some (configured.iir, .ok) := by decide +kernel

/-- R200's example. -/
theorem test_pid_set_gains :
    (nextOf (exec .pidSetGains (withArg 0x40000000 0x3F000000 0x3DCCCCCD 0))).map
      (fun t => (t.pid.kp, t.pid.ki, t.pid.kd, t.code)) =
        some (0x40000000, 0x3F000000, 0x3DCCCCCD, .ok) := by decide +kernel

/-- R201's first example. -/
theorem test_pid_set_limits :
    (nextOf (exec .pidSetLimits (withArg 0x3F800000 0x41200000 0 0))).map
      (fun t => (t.pid.maxI, t.pid.maxO, t.code)) = some (0x3F800000, 0x41200000, .ok) := by
  decide +kernel

/-- R201's second example, and −0.0 stored as +0.0. -/
theorem test_pid_set_limits_corners :
    (nextOf (exec .pidSetLimits (withArg 0xBF800000 0x41200000 0 0))).map
      (fun t => (t.pid.maxO, t.code)) = some (0, .badArg) ∧
    (nextOf (exec .pidSetLimits (withArg 0x80000000 0x7F800000 0 0))).map
      (fun t => (t.pid.maxI, t.pid.maxO, t.code)) = some (0, 0x7F800000, .ok) := by decide +kernel

/-- R202's example. -/
theorem test_pid_step :
    (nextOf (exec .pidStep controller)).map
      (fun t => (t.res.w0, t.pid.integ, t.pid.prev, t.pid.first)) =
        some (0x400051EC, 0x3C23D70A, 0x3F800000, false) := by decide +kernel

/-- R202: a NaN dt writes RES0 = +0.0 and nothing else. -/
theorem test_pid_step_nan_dt :
    (nextOf (exec .pidStep (controller.setArg ⟨0x3F800000, 0x7FC00000, 0, 0⟩))).map
      (fun t => (t.res.w0, t.pid, t.code)) = some (0, controller.pid, .dtIgnored) := by
  decide +kernel

/-- R203's example. -/
theorem test_pid_reset :
    (nextOf (exec .pidReset (controller.setPid
      { controller.pid with integ := 0x3C75C28F, prev := 0x3F000000, first := false }))).map
        State.pid = some controller.pid := by decide +kernel

/-! ### The bus -/

/-- R64 and R37: a write to FBUF's first word, and a read of it. -/
theorem test_bus_fbuf :
    (nextOf (step (pend (.write 0x100 4 0xD91100C9)))).map
      (fun t => (t.fbuf.slice 0 4, memRead 0x100 t)) =
        some ([0xC9, 0x00, 0x11, 0xD9], 0xD91100C9) := by decide +kernel

/-- R63: a halfword write sets BUSERR and is ignored. -/
theorem test_bus_unsupported :
    nextOf (step (pend (.write 0x008 2 0x1234))) =
      some (State.reset.setBusErr true) := by decide +kernel

/-- R80 and R84: an illegal word is stored in CMD and reported. -/
theorem test_bus_illegal_word :
    nextOf (step (State.reset.withFetchWord 32 0x16)) =
      some ((State.reset.setCmd 0x16).setCode .illegalOp) := by decide +kernel

/-- `withFetchWord`: the very next step runs the command. -/
theorem test_fetch_word :
    nextOf (step (State.reset.withFetchWord 32 0x0000AA20)) =
      some (((State.reset.setCmd 0x0000AA20).setRx [0xAA]).setCode .ok) := by decide +kernel

/-! ### Binary32: V-Q vectors -/

/-- V-Q1a to V-Q1h. -/
theorem test_quant :
    ([0x3F000000, 0xBE800000, 0x3F800000, 0xBF800000, 0x40000000, 0x7F800000, 0x7FC00000,
      0x80000000].map (fun v => (quant v).toInt)) =
        [16383, -8191, 32767, -32767, 32767, 32767, 0, 0] := by decide +kernel

/-- V-Q2: −32768 decodes to −1.0. -/
theorem test_dequant_clamps : dequant 0x8000 = 0xBF800000 := by decide +kernel

/-! ### Witnesses: states and operands that meet the obligations' hypotheses -/

theorem witness_DecodeOfEncode :
    (Instr.crc16 65535).WellFormed ∧ (Instr.crc16 0).WellFormed ∧ (Instr.rxPush 0xFF).WellFormed ∧
      Instr.nop.WellFormed := by decide

theorem witness_EncodeOfDecode :
    decode 0xFFFF0010 = .ok (.crc16 65535) ∧ decode 0x0000FF20 = .ok (.rxPush 0xFF) := by decide

theorem witness_DecodeMatchesTable :
    (0xFFFF0010 : Word) &&& (matchMask (.crc16 65535)).2 = (matchMask (.crc16 65535)).1 ∧
    (0x0000FF20 : Word) &&& (matchMask (.rxPush 0)).2 = (matchMask (.rxPush 0)).1 := by decide

/-- Each of the three illegal forms, at the opcodes next to assigned ones, and a legal word. -/
theorem witness_IllegalWordsSetIllegalOp :
    (pend (.write 0 4 0x00000044)).pending = [.write (State.reset.params.base) 4 0x00000044] ∧
    opField 0x00000044 = 0x44 ∧ opField 0x0000001E = 0x1E ∧
    selField 0x00000110 ≠ 0 ∧ opField 0x00000110 ≠ 0x20 ∧
    nField 0x00010020 ≠ 0 ∧ opField 0x00010020 = 0x20 ∧
    selField 0x00000043 = 0 ∧ nField 0x00000043 = 0 ∧ opField 0x00000043 = 0x43 := by decide

theorem witness_StepRunsDecodedCommand :
    (pend (.write 0 4 0x00000043)).pending = [.write (State.reset.params.base) 4 0x00000043] ∧
    decode 0x00000043 = .ok .pidReset ∧ (Instr.crc16 65535).WellFormed := by decide

/-- A legal word, an illegal one, and a step that takes neither a CMD write nor a reset. -/
theorem witness_CmdHoldsLastWordWritten :
    (pend (.write 0 4 0x00000016)).pending = [.write (State.reset.params.base) 4 0x00000016] ∧
    decode 0x00000000 = .ok .nop ∧
    nextOf (exec .nop State.reset) = some State.reset ∧
    nextOf (step (pend (.read 0x3FC 4))) = some State.reset := by decide +kernel

theorem witness_SupportedReadChangesNothing :
    (0x3FC : Nat) < 0x400 ∧ 0x3FC % 4 = 0 ∧
    (pend (.read 0x3FC 4)).pending = [.read (State.reset.params.base + 0x3FC) 4] := by decide

/-- A wrong size at an aligned offset, and a misaligned offset at the window's end. -/
theorem witness_UnsupportedAccessSetsBusErr :
    (0 : Nat) < 0x400 ∧ (2 : Nat) ≠ 4 ∧ (0x3FF : Nat) < 0x400 ∧ 0x3FF % 4 ≠ 0 ∧
    (pend (.read 0 2)).pending = [.read (State.reset.params.base + 0) 2] ∧
    (pend (.write 0x3FF 4 7)).pending = [.write (State.reset.params.base + 0x3FF) 4 7] := by decide

theorem witness_StatusFieldsAndStickiness :
    (0x100 : Word).getLsbD 8 = true ∧ (0xFFFFFEFF : Word).getLsbD 8 = false ∧
    (pend (.write 4 4 0x100)).pending = [.write (State.reset.params.base + 0x004) 4 0x100] ∧
    nextOf (exec .nop State.reset) = some State.reset ∧
    nextOf (step (State.reset.setBusErr true)) = some (State.reset.setBusErr true) := by
  decide +kernel

theorem witness_RegisterMapReads :
    State.reset.rx.length ≤ 256 ∧ (withRx (List.replicate 256 7)).rx.length ≤ 256 := by
  decide +kernel

/-- The last words of FBUF and PBUF. -/
theorem witness_BufferWordAccess :
    (63 : Nat) < 64 ∧
    (pend (.write 0x1FC 4 7)).pending =
      [.write (State.reset.params.base + (0x100 + 4 * 63)) 4 7] ∧
    (pend (.write 0x2FC 4 7)).pending =
      [.write (State.reset.params.base + (0x200 + 4 * 63)) 4 7] := by decide

theorem witness_RxWindowShowsRx :
    (63 : Nat) < 64 ∧
    (pend (.write 0x3FC 4 7)).pending =
      [.write (State.reset.params.base + (0x300 + 4 * 63)) 4 7] := by decide

/-- The first and last read-only register offsets, the last reserved one, RXBUF's ends, STATUS. -/
theorem witness_ReadOnlyWritesIgnored :
    ([0x018, 0x074, 0x0FC, 0x300, 0x3FC].all (fun off =>
      decide (((0x018 ≤ off ∧ off < 0x100) ∨ (0x300 ≤ off ∧ off < 0x400)) ∧ off % 4 = 0 ∧
        (pend (.write off 4 7)).pending = [.write (State.reset.params.base + off) 4 7]))) = true ∧
    (pend (.write 4 4 0xFF)).pending = [.write (State.reset.params.base + 0x004) 4 0xFF] ∧
    (0x078 : Nat) ≤ 0x0FC ∧ (0x0FC : Nat) < 0x100 := by decide

theorem witness_OperandRegisterWrites :
    (pend (.write 0x008 4 7)).pending = [.write (State.reset.params.base + 0x008) 4 7] ∧
    (pend (.write 0x00C 4 7)).pending = [.write (State.reset.params.base + 0x00C) 4 7] ∧
    (pend (.write 0x010 4 7)).pending = [.write (State.reset.params.base + 0x010) 4 7] ∧
    (pend (.write 0x014 4 7)).pending = [.write (State.reset.params.base + 0x014) 4 7] ∧
    nextOf (exec .nop State.reset) = some State.reset := by decide +kernel

theorem witness_CommandsKeepHostState :
    nextOf (exec (.rxPush 7) State.reset) = some (State.reset.setRx [7]) := by decide +kernel

/-- One address on each side of a window that does not start at 0. -/
theorem witness_IdleAndOutsideWindow :
    State.reset.pending = [] ∧
    (let s := State.resetWith { Params.tp1 with base := 0x400 }
     (0x3FF < s.params.base ∨ s.params.base + 0x400 ≤ 0x3FF) ∧
     (0x800 < s.params.base ∨ s.params.base + 0x400 ≤ 0x800) ∧
     (s.setPending [.read 0x3FF 4]).pending = [.read 0x3FF 4] ∧
     (s.setPending [.write 0x800 4 7]).pending = [.write 0x800 4 7]) := by decide

theorem witness_ResetEventValues : (pend .reset).pending = [.reset] := by decide

theorem witness_ResetSatisfiesInv : Params.tp1.WellFormed := by decide

/-- The invariant's parts at reset, for the witnesses below. -/
theorem witness_inv : State.reset.Inv where
  params := by decide
  fbuf := by decide
  pbuf := by decide
  rx := by decide
  gains := by decide
  limits := by decide

theorem witness_StepKeepsInv :
    State.reset.Inv ∧ nextOf (step State.reset) = some State.reset := ⟨witness_inv, by decide⟩

/-- An outcome of the error class and one of the outcome class. -/
theorem witness_CommandsEndInListedCodes :
    nextOf (exec (.crc16 257) State.reset) = some (State.reset.setCode .badArg) ∧
    isErrorClass .badArg = true ∧
    nextOf (exec .rxPoll State.reset) = some (State.reset.setCode .noFrame) ∧
    isErrorClass .noFrame = false := by decide +kernel

/-- One command of each unit, and a state that agrees with another on the unit but not elsewhere. -/
theorem witness_UnitsAreIndependent :
    (unitOf .nop = .control ∧ (nextOf (exec .nop State.reset)).isSome) ∧
    (unitOf (.rxPush 7) = .framer ∧ (nextOf (exec (.rxPush 7) State.reset)).isSome ∧
      writesFbuf (.rxPush 7) = false ∧ configured.params = State.reset.params ∧
      configured.arg = State.reset.arg ∧ configured.res = State.reset.res ∧
      configured.cmdSeq = State.reset.cmdSeq ∧ configured.rx = State.reset.rx ∧
      configured.fbuf = State.reset.fbuf ∧ configured.pbuf = State.reset.pbuf ∧
      configured ≠ State.reset) ∧
    (unitOf .iirStep = .filter ∧ (nextOf (exec .iirStep State.reset)).isSome ∧
      (withRx [7]).arg = State.reset.arg ∧ (withRx [7]).res = State.reset.res ∧
      (withRx [7]).iir = State.reset.iir) ∧
    (unitOf .pidStep = .controller ∧ (nextOf (exec .pidStep State.reset)).isSome ∧
      configured.arg = State.reset.arg ∧ configured.res = State.reset.res ∧
      configured.pid = State.reset.pid) := by decide +kernel

theorem witness_NopSetsOkOnly : opField 0x00000100 = 0x00 ∧ (0x00000100 : Word) ≠ 0 := by decide

/-- The largest span that fits and the smallest that does not. -/
theorem witness_Crc16ResultOrBadArg :
    (256 : Nat) < 2 ^ 16 ∧ (withArg 0 0 0 0).arg.w0.toNat + 256 ≤ 256 ∧
    256 < (withArg 1 0 0 0).arg.w0.toNat + 256 := by decide

/-- The capacities where the three clauses of each BUILD_* meet. -/
theorem witness_BuildCmdWritesFrame :
    (257 : Nat) < 2 ^ 16 ∧ 14 ≤ 14 ∧ 14 ≤ 256 ∧ 256 ≤ 256 ∧ 256 < 257 ∧ 13 < 14 := by decide

theorem witness_BuildTlmWritesFrame :
    (257 : Nat) < 2 ^ 16 ∧ 23 ≤ 23 ∧ 23 ≤ 256 ∧ 256 ≤ 256 ∧ 256 < 257 ∧ 22 < 23 := by decide

theorem witness_BuildPingPongWriteFrame :
    (257 : Nat) < 2 ^ 16 ∧ 8 ≤ 8 ∧ 8 ≤ 256 ∧ 256 ≤ 256 ∧ 256 < 257 ∧ 7 < 8 := by decide

theorem witness_BuildLogWritesFrame :
    (let len := min (withArg 1000 0 0 0).arg.w0.toNat 200
     8 + len ≤ 208 ∧ 208 ≤ 256 ∧ 207 < 8 + len) ∧
    (let len := min (withArg 0 0 0 0).arg.w0.toNat 200
     8 + len ≤ 8 ∧ 8 ≤ 256 ∧ 7 < 8 + len ∧ 256 < 257) := by decide

/-- A buffer for each clause of R120, each differing from V-B1's frame in the byte its stage looks
at: seven bytes; a wrong prefix; a wrong version; a type byte of no kind; a wrong length; a frame cut
by one byte; a wrong CRC; the frame. -/
theorem witness_ParseStages :
    Params.tp1.WellFormed ∧ (cmdFrame.take 7).length < 8 ∧ 8 ≤ (cmdFrame.take 8).length ∧
    byteAt (cmdFrame.set 1 0x00) 1 ≠ Params.tp1.sync1 ∧
    byteAt (cmdFrame.set 2 0x00) 2 ≠ Params.tp1.version ∧
    (∀ k ∈ [Kind.cmd, .tlm, .ping, .pong, .log], typeByte Params.tp1 k ≠ byteAt (cmdFrame.set 3 0x06) 3) ∧
    KindAccepted Params.tp1 none (byteAt cmdFrame 3) .cmd ∧
    KindAccepted Params.tp1 (some .cmd) (byteAt cmdFrame 3) .cmd ∧
    ¬ LenAllowed .cmd ((byteAt (cmdFrame.set 4 7) 4).toNat + 256 * (byteAt (cmdFrame.set 4 7) 5).toNat) ∧
    LenAllowed .cmd ((byteAt cmdFrame 4).toNat + 256 * (byteAt cmdFrame 5).toNat) ∧
    (cmdFrame.take 13).length < 8 + 6 ∧ 8 + 6 ≤ cmdFrame.length ∧
    (byteAt (cmdFrame.set 12 0) 12).toNat + 256 * (byteAt (cmdFrame.set 12 0) 13).toNat ≠
      (crc16 ((cmdFrame.drop 2).take (4 + 6))).toNat ∧
    (byteAt cmdFrame 12).toNat + 256 * (byteAt cmdFrame 13).toNat =
      (crc16 ((cmdFrame.drop 2).take (4 + 6))).toNat := by
  refine ⟨by decide, by decide, by decide, by decide, by decide, by decide, ⟨by decide, .inl rfl⟩,
    ⟨by decide, .inr rfl⟩, ?_, ?_, by decide, by decide, by decide +kernel, by decide +kernel⟩
  · unfold LenAllowed; decide
  · unfold LenAllowed; decide

theorem witness_ParseAcceptsExactlyFrames :
    Params.tp1.WellFormed ∧
    parseCore Params.tp1 ((withFbuf cmdFrame).fbuf.slice 0 14) (some .cmd) = .ok (.cmd, 6) ∧
    parseCore Params.tp1 ((withFbuf cmdFrame).fbuf.slice 0 256) none = .ok (.cmd, 6) := by
  decide +kernel

/-- FBUF with V-B1's frame holds that frame. -/
theorem holds_cmdFrame : HoldsFrame Params.tp1 (withFbuf cmdFrame).fbuf Params.tp1.typeCmd
    [0x00, 0x00, 0xFF, 0x3F, 0x01, 0xE0] := by
  constructor <;> decide +kernel

theorem holds_tlmFrame : HoldsFrame Params.tp1 (withFbuf tlmFrame).fbuf Params.tp1.typeTlm
    [0x34, 0x12, 0x05, 0xE8, 0x03, 0x18, 0xFC, 0x00, 0x00, 0xFA, 0x00, 0x00, 0x80, 0xFF, 0x7F] := by
  constructor <;> decide +kernel

theorem holds_pingFrame :
    HoldsFrame Params.tp1 (withFbuf pingFrame).fbuf Params.tp1.typePing [] := by
  constructor <;> decide +kernel

theorem holds_pongFrame :
    HoldsFrame Params.tp1 (withFbuf pongFrame).fbuf Params.tp1.typePong [] := by
  constructor <;> decide +kernel

theorem holds_logFrame :
    HoldsFrame Params.tp1 (withFbuf logFrame).fbuf Params.tp1.typeLog [0x68, 0x69] := by
  constructor <;> decide +kernel

theorem witness_ParseCmdReturnsFields :
    (14 : Nat) < 2 ^ 16 ∧ 14 ≤ 14 ∧ 14 ≤ 256 ∧ 256 < 257 ∧
    HoldsFrame (withFbuf cmdFrame).params (withFbuf cmdFrame).fbuf (withFbuf cmdFrame).params.typeCmd
      [0x00, 0x00, 0xFF, 0x3F, 0x01, 0xE0] ∧
    parseCore (withFbuf cmdFrame).params ((withFbuf cmdFrame).fbuf.slice 0 13) (some .cmd) =
      .error .insufficientData :=
  ⟨by decide, by decide, by decide, by decide, holds_cmdFrame, by decide +kernel⟩

theorem witness_ParseTlmReturnsFields :
    (23 : Nat) < 2 ^ 16 ∧ 23 ≤ 23 ∧ 23 ≤ 256 ∧ 256 < 257 ∧
    HoldsFrame (withFbuf tlmFrame).params (withFbuf tlmFrame).fbuf (withFbuf tlmFrame).params.typeTlm
      [0x34, 0x12, 0x05, 0xE8, 0x03, 0x18, 0xFC, 0x00, 0x00, 0xFA, 0x00, 0x00, 0x80, 0xFF, 0x7F] ∧
    parseCore (withFbuf tlmFrame).params ((withFbuf tlmFrame).fbuf.slice 0 22) (some .tlm) =
      .error .insufficientData :=
  ⟨by decide, by decide, by decide, by decide, holds_tlmFrame, by decide +kernel⟩

theorem witness_ParsePingPongCheckFrame :
    (8 : Nat) < 2 ^ 16 ∧ 8 ≤ 8 ∧ 8 ≤ 256 ∧ 256 < 257 ∧
    HoldsFrame (withFbuf pingFrame).params (withFbuf pingFrame).fbuf
      (withFbuf pingFrame).params.typePing [] ∧
    HoldsFrame (withFbuf pongFrame).params (withFbuf pongFrame).fbuf
      (withFbuf pongFrame).params.typePong [] ∧
    parseCore (withFbuf pongFrame).params ((withFbuf pongFrame).fbuf.slice 0 8) (some .ping) =
      .error .invalidType ∧
    parseCore (withFbuf pingFrame).params ((withFbuf pingFrame).fbuf.slice 0 8) (some .pong) =
      .error .invalidType :=
  ⟨by decide, by decide, by decide, by decide, holds_pingFrame, holds_pongFrame,
    by decide +kernel, by decide +kernel⟩

theorem witness_ParseLogReturnsLength :
    (10 : Nat) < 2 ^ 16 ∧ ([0x68, 0x69] : List Byte).length ≤ 200 ∧
    8 + ([0x68, 0x69] : List Byte).length ≤ 10 ∧ 10 ≤ 256 ∧ 256 < 257 ∧
    HoldsFrame (withFbuf logFrame).params (withFbuf logFrame).fbuf (withFbuf logFrame).params.typeLog
      [0x68, 0x69] ∧
    parseCore (withFbuf (logFrame.set 4 201)).params ((withFbuf (logFrame.set 4 201)).fbuf.slice 0 10)
      (some .log) = .error .invalidPayloadLength :=
  ⟨by decide, by decide, by decide, by decide, by decide, holds_logFrame, by decide +kernel⟩

/-- R126's examples: a prefix at 1 and none before; a SYNC0 in the last byte. -/
theorem witness_FindStartReturnsFirstPrefix :
    (5 : Nat) < 2 ^ 16 ∧ 5 ≤ 256 ∧ 256 < 257 ∧
    FirstPrefixAt Params.tp1 ((withFbuf [0x00, 0xAA, 0x55, 0x01, 0x01]).fbuf.slice 0 5) 1 ∧
    ∀ i, ¬ PrefixAt Params.tp1 ((withFbuf [0x00, 0x00, 0xAA]).fbuf.slice 0 3) i := by
  refine ⟨by decide, by decide, by decide, ⟨?_, ?_⟩, ?_⟩
  · unfold PrefixAt; decide
  · unfold PrefixAt; decide
  · rintro i ⟨h, hp⟩
    have hi : i + 1 < 3 := h
    have hi : i < 2 := by omega
    interval_cases i <;> revert hp <;> decide

theorem witness_RxPushAppendsByte :
    State.reset.rx.length ≠ 256 ∧ (withRx (List.replicate 255 0)).rx.length ≠ 256 ∧
    (withRx (List.replicate 256 0)).rx.length = 256 := by decide +kernel

/-- The four ways on: no prefix; a frame still incomplete; a frame with a wrong CRC; a frame. -/
theorem witness_RxPollLoopSteps :
    (∀ i, ¬ PrefixAt Params.tp1 (withRx [0xAA]).rx i) ∧
    FirstPrefixAt Params.tp1 (withRx (0x00 :: cmdFrame)).rx 1 ∧
    FirstPrefixAt Params.tp1 (withRx cmdFrame).rx 0 ∧
    parseCore Params.tp1 ((withRx (cmdFrame.take 13)).rx.drop 0) none = .error .insufficientData ∧
    parseCore Params.tp1 ((withRx (cmdFrame.set 12 0)).rx.drop 0) none = .error .crcMismatch ∧
    parseCore Params.tp1 ((withRx (0x00 :: cmdFrame)).rx.drop 1) none = .ok (.cmd, 6) := by
  refine ⟨?_, ⟨?_, ?_⟩, ⟨?_, ?_⟩, by decide +kernel, by decide +kernel, by decide +kernel⟩
  · rintro i ⟨h, -⟩
    exact absurd h (Nat.not_lt.mpr (Nat.le_add_left 1 i))
  · unfold PrefixAt; decide
  · unfold PrefixAt; decide
  · unfold PrefixAt; decide
  · intro j hj; exact absurd hj (Nat.not_lt_zero j)

/-- A full buffer, and a poll that ends in NO_FRAME with a prefix at the front. -/
theorem witness_PollProgress :
    (withRx (List.replicate 256 0)).rx.length ≤ 256 ∧
    (nextOf (exec .rxPoll (withRx (List.replicate 256 0)))).isSome ∧
    (withRx (cmdFrame.take 13)).rx.length ≤ 256 ∧
    nextOf (exec .rxPoll (withRx (cmdFrame.take 13))) =
      some ((withRx (cmdFrame.take 13)).setCode .noFrame) := by decide +kernel

theorem witness_DeliveredFramesParse :
    (withRx cmdFrame).params.WellFormed ∧
    (nextOf (exec .rxPoll (withRx cmdFrame))).map
      (fun t => (t.code, decide (t.res.w1 = (typeByte (withRx cmdFrame).params .cmd).setWidth 32))) =
        some (.ok, true) := by decide +kernel

/-- Accepted and rejected parameters: the largest fc below fs/2 for fs = 500, and fc = fs/2. -/
theorem witness_IirSetparamsConfigures :
    validParams (withArg 0x4379FFFF 0x43FA0000 0 0).arg.w0 (withArg 0x4379FFFF 0x43FA0000 0 0).arg.w1 =
      true ∧
    validParams (withArg 0x437A0000 0x43FA0000 0 0).arg.w0 (withArg 0x437A0000 0x43FA0000 0 0).arg.w1 =
      false := by decide +kernel

/-- R183's example, and 125 Hz of 500 Hz, whose exact A1 is zero. -/
theorem witness_CoefsCorrectlyRounded :
    validParams 0x41A00000 0x43FA0000 = true ∧ validParams 0x42FA0000 0x43FA0000 = true ∧
    f32Value 0x43FA0000 = 4 * f32Value 0x42FA0000 := by decide +kernel

theorem witness_IirStepFilters :
    State.reset.iir.configured = false ∧ configured.iir.configured = true := by decide

/-- Three finite gains; one infinite. The largest finite f32 is 0x7F7FFFFF. -/
theorem witness_PidSetGainsStores :
    isfinite (withArg 0x7F7FFFFF 0 0 0).arg.w0 = true ∧ isfinite (withArg 0 0 0 0).arg.w1 = true ∧
    isfinite (withArg 0 0 0x80000000 0).arg.w2 = true ∧
    isfinite (withArg 0x7F800000 0 0 0).arg.w0 = false ∧
    isfinite (withArg 0 0xFFC00000 0 0).arg.w1 = false ∧
    isfinite (withArg 0 0 0xFF800000 0).arg.w2 = false := by decide +kernel

/-- Limits at the boundary: −0.0 and +infinity are stored, the smallest negative value and a NaN are
refused. -/
theorem witness_PidSetLimitsStores :
    isnan 0x80000000 = false ∧ flt 0x80000000 0x00000000 = false ∧
    isnan 0x7F800000 = false ∧ flt 0x7F800000 0x00000000 = false ∧
    flt 0x80000001 0x00000000 = true ∧ isnan 0x7F800001 = true := by decide +kernel

/-- The smallest positive dt runs; zero and NaN do not. Both values of FIRST. -/
theorem witness_PidStepComputes :
    fgt (withArg 0 0x00000001 0 0).arg.w1 0x00000000 = true ∧
    fgt (withArg 0 0x00000000 0 0).arg.w1 0x00000000 = false ∧
    fgt (withArg 0 0x7FC00000 0 0).arg.w1 0x00000000 = false ∧
    controller.pid.first = true ∧
    (controller.setPid { controller.pid with first := false }).pid.first = false := by decide +kernel

theorem witness_PidOutputWithinLimits :
    (State.reset.setArg ⟨0x3F800000, 0x3C23D70A, 0, 0⟩).Inv ∧
    (nextOf (exec .pidStep (State.reset.setArg ⟨0x3F800000, 0x3C23D70A, 0, 0⟩))).map State.code =
      some .ok :=
  ⟨⟨by decide, by decide, by decide, by decide, by decide, by decide⟩, by decide +kernel⟩

theorem witness_FirstStepDerivative :
    controller.pid.first = true ∧ fgt controller.arg.w1 0x00000000 = true ∧
    isfinite controller.pid.kd = true ∧ isfinite 0xFF7FFFFF = true ∧
    (nextOf (exec .pidStep State.reset)).map State.code = some .dtIgnored := by decide +kernel

/-- A NaN in Y1, one in Y2, a NaN integral and a NaN error; a NaN previous error with a NaN integral,
which a step with a finite error keeps; and the unconfigured filter. -/
theorem witness_NanPersistence :
    (configured.setIir { configured.iir with y1 := 0x7FC00000 }).iir.configured = true ∧
    isnan (configured.setIir { configured.iir with y1 := 0x7FC00000 }).iir.y1 = true ∧
    isnan (configured.setIir { configured.iir with y2 := 0xFF800001 }).iir.y2 = true ∧
    fgt controller.arg.w1 0x00000000 = true ∧
    isnan (controller.setPid { controller.pid with integ := 0x7FC00000 }).pid.integ = true ∧
    isnan (withArg 0x7F800001 0x3F800000 0 0).arg.w0 = true ∧
    isnan (controller.setPid { controller.pid with integ := 0x7FC00000, prev := 0x7F800001 }).pid.prev =
      true ∧
    (nextOf (exec .pidStep (controller.setPid
      { controller.pid with integ := 0x7FC00000, prev := 0x7F800001 }))).map
        (fun t => (t.res.w0, t.pid.integ)) = some (0x7FC00000, 0x7FC00000) ∧
    isnan State.reset.pid.prev = false ∧ State.reset.iir.configured = false := by decide +kernel

/-- Finite operands at their bounds; an error of zero with an infinite dt; a later step whose derivative
is infinite (a subnormal dt) and one whose derivative is finite. -/
theorem witness_StraightAfterReset :
    isfinite 0xFF7FFFFF = true ∧ isfinite 0x7F7FFFFF = true ∧
    fgt 0x7F7FFFFF 0x00000000 = true ∧ fgt 0x7F800000 0x00000000 = true ∧ isinf 0x7F800000 = true ∧
    f32Value 0x80000000 = 0 ∧ isfinite 0x80000000 = true ∧ fgt 0x00000001 0x00000000 = true ∧
    isfinite (fdiv (fsub 0x40400000 0x40000000) 0x00000001) = false ∧
    isfinite (fdiv (fsub 0x40400000 0x40000000) 0x3F800000) = true := by decide +kernel

theorem witness_ArithmeticCorrectlyRounded :
    isfinite 0x7F7FFFFF = true ∧ isfinite 0x00000001 = true ∧ unitsAbs 0x00000001 ≠ 0 := by
  decide +kernel

/-- Operands for each clause: infinities of like and unlike sign with a finite value, a sum and a
difference that cancel, both zeros, a nonzero value by a zero. -/
theorem witness_InfinitiesAndZeroSigns :
    isnan 0x7F800000 = false ∧ isnan 0xFF800000 = false ∧ isinf 0x7F800000 = true ∧
    isinf 0xFF800000 = true ∧ fsign 0x7F800000 ≠ fsign 0xFF800000 ∧ f32Value 0xFF800000 ≠ 0 ∧
    isnan 0x80000000 = false ∧ isfinite 0x80000000 = true ∧ f32Value 0x80000000 = 0 ∧
    isnan 0x00000001 = false ∧ isfinite 0x00000001 = true ∧ f32Value 0x00000001 ≠ 0 ∧
    isnan 0x80000001 = false ∧ isfinite 0x80000001 = true ∧
    f32Value 0x00000001 + f32Value 0x80000001 = 0 ∧ f32Value 0x00000001 - f32Value 0x00000001 = 0 := by
  decide +kernel

theorem witness_ComparisonsNansAndClamp :
    isnan 0x7F800001 = true ∧ isnan (fadd 0x7F800000 0xFF800000) = true ∧
    isnan (fsub 0x7F800000 0x7F800000) = true ∧ isnan (fmul 0x7F800000 0x00000000) = true ∧
    isnan (fdiv 0x00000000 0x00000000) = true ∧
    isnan 0xBF800000 = false ∧ isnan 0x3F800000 = false ∧
    units 0xBF800000 ≤ units 0x3F800000 ∧ units 0xBF800001 < units 0xBF800000 ∧
    units 0x3F800000 < units 0x3F800001 := by decide +kernel

theorem witness_QuantisationRounding :
    isnan 0x7FC00000 = true ∧ isnan 0x7F800000 = false ∧ (0x8001 : Half).toInt ≠ -32768 := by
  decide +kernel

theorem witness_ParseOfBuildReturnsInput :
    (withArg 0x00071234 0 0 0).arg.w0.extractLsb' 19 5 = 0 ∧
    isfinite (withArg 0x3F800000 0xBF800000 0 0).arg.w0 = true ∧
    |f32Value (withArg 0x3F800000 0xBF800000 0 0).arg.w0| ≤ 1 ∧
    isfinite (withArg 0x3F800000 0xBF800000 0 0).arg.w1 = true ∧
    |f32Value (withArg 0x3F800000 0xBF800000 0 0).arg.w1| ≤ 1 := by
  have h1 : units 0x3F800000 = 2 ^ 149 := by decide +kernel
  have h2 : units 0xBF800000 = -2 ^ 149 := by decide +kernel
  refine ⟨by decide, by decide +kernel, ?_, by decide +kernel, ?_⟩ <;>
    simp only [withArg, State.setArg, f32Value, h1, h2] <;> norm_num

/-- V-B6's frame, then two bytes that are the CRC of the frame a length of 4 would make. -/
def logFrameThen : List Byte := logFrame ++ [0x00, 0x66]

theorem holds_logFrameThen :
    HoldsFrame Params.tp1 (withFbuf logFrameThen).fbuf Params.tp1.typeLog [0x68, 0x69] := by
  constructor <;> decide +kernel

/-- V-B1's frame in FBUF, and the same with one payload byte, one CRC byte and one header byte
changed; and a Log frame whose changed length is not allowed (by either byte), does not fit, fits with a
wrong CRC, and fits with the right one. -/
theorem witness_CorruptionDetected :
    HoldsFrame (withFbuf cmdFrame).params (withFbuf cmdFrame).fbuf
      (typeByte (withFbuf cmdFrame).params .cmd) [0x00, 0x00, 0xFF, 0x3F, 0x01, 0xE0] ∧
    LenAllowed .cmd ([0x00, 0x00, 0xFF, 0x3F, 0x01, 0xE0] : List Byte).length ∧ 8 + 6 ≤ 14 ∧
    (∀ j ∈ [0, 1, 2, 3, 4, 5, 6, 11, 12, 13],
      ((withFbuf cmdFrame).fbuf.write j 0x77).read j ≠ (withFbuf cmdFrame).fbuf.read j) ∧
    (∀ (b : Memory) (j a : Nat) (v : Byte), a ≠ j → (b.write j v).read a = b.read a) ∧
    let b := (withFbuf logFrameThen).fbuf
    HoldsFrame (withFbuf logFrameThen).params b (typeByte (withFbuf logFrameThen).params .log)
      [0x68, 0x69] ∧ LenAllowed .log 2 ∧ 8 + 2 ≤ 10 ∧
    (∀ v ∈ [0x01, 0x04, 0xC9], (b.write 4 v).read 4 ≠ b.read 4) ∧ (b.write 5 0x01).read 5 ≠ b.read 5 ∧
    ¬ LenAllowed .log (((b.write 4 0xC9).read 4).toNat + 256 * ((b.write 4 0xC9).read 5).toNat) ∧
    ¬ LenAllowed .log (((b.write 5 0x01).read 4).toNat + 256 * ((b.write 5 0x01).read 5).toNat) ∧
    LenAllowed .log 4 ∧ 10 < 8 + 4 ∧ 8 + 4 ≤ 12 ∧ LenAllowed .log 1 ∧ 8 + 1 ≤ 12 ∧
    (b.write 4 0x01).read 8 ++ (b.write 4 0x01).read 7 ≠ crc16 ((b.write 4 0x01).slice 2 5) ∧
    (b.write 4 0x04).read 11 ++ (b.write 4 0x04).read 10 = crc16 ((b.write 4 0x04).slice 2 8) := by
  refine ⟨holds_cmdFrame, ?_, by decide, by decide +kernel,
    fun _ _ _ _ h => Memory.read_write_other _ _ h, holds_logFrameThen, ?_, by decide,
    by decide +kernel, by decide +kernel, ?_, ?_, ?_, by decide, by decide, ?_, by decide,
    by decide +kernel, by decide +kernel⟩ <;> unfold LenAllowed <;> decide +kernel

end Sys2Proof.Tests
end

/-! ## The effect of a command

Every command ends, and what it leaves is one of a few updates of the state before (R102, R103). The
updates are said once, as `CommandEffect`; the frame of the host's state and the invariant of the
machine are then read off them. -/

namespace Sys2Proof.Machine

/-- What a command can leave of the state `s` it started in: one constructor per kind of update. -/
inductive CommandEffect (s : State) : State → Prop where
  /-- RES and STATUS.CODE only: NOP, CRC16, PARSE_*, FIND_START, and every code raised. -/
  | results (r : Quad) (c : StatusCode) : CommandEffect s ((s.setRes r).setCode c)
  /-- A frame at the front of FBUF: BUILD_*. -/
  | build (frame : List Byte) (r : Quad) (seq : Half) (fits : frame.length ≤ Config.fbufSize) :
      CommandEffect s
        ((((s.setFbuf (s.fbuf.writeBytes 0 frame)).setRes r).setCmdSeq seq).setCode .ok)
  /-- RX_PUSH with room in RX. -/
  | push (b : Byte) (room : s.rx.length ≠ Config.rxCap) :
      CommandEffect s ((s.setRx (s.rx ++ [b])).setCode .ok)
  /-- RX_POLL: an RX that has not grown, and the bytes delivered, none without a frame. -/
  | poll (rx bytes : List Byte) (r : Quad) (c : StatusCode) (shrinks : rx.length ≤ s.rx.length)
      (fits : bytes.length ≤ Config.fbufSize) :
      CommandEffect s ((((s.setRx rx).setFbuf (s.fbuf.writeBytes 0 bytes)).setRes r).setCode c)
  /-- The filter's registers, RES and STATUS.CODE: IIR_*. -/
  | filter (u : IirUnit) (r : Quad) (c : StatusCode) :
      CommandEffect s (((s.setIir u).setRes r).setCode c)
  /-- PID_SET_GAINS with finite gains. -/
  | gains (kp ki kd : F32)
      (finite : isfinite kp = true ∧ isfinite ki = true ∧ isfinite kd = true) :
      CommandEffect s ((s.setPid { s.pid with kp := kp, ki := ki, kd := kd }).setCode .ok)
  /-- PID_SET_LIMITS with legal limits. -/
  | limits (maxI maxO : F32) (legal : LegalLimit maxI ∧ LegalLimit maxO) :
      CommandEffect s ((s.setPid { s.pid with maxI := maxI, maxO := maxO }).setCode .ok)
  /-- The controller's running values: PID_STEP and PID_RESET. -/
  | running (integ prev : F32) (first : Bool) (r : Quad) :
      CommandEffect s
        (((s.setPid { s.pid with integ := integ, prev := prev, first := first }).setRes r).setCode .ok)

/-- A command that only raises or finishes with a code. -/
theorem CommandEffect.code (s : State) (c : StatusCode) : CommandEffect s (s.setCode c) :=
  .results s.res c

/-- A filter command without a result. -/
theorem CommandEffect.filterOnly (s : State) (u : IirUnit) (c : StatusCode) :
    CommandEffect s ((s.setIir u).setCode c) :=
  .filter u s.res c

/-- The command ends, with an effect that `CommandEffect` lists. -/
def EndsIn (o : Outcome) (s : State) : Prop := ∃ t, o = .next t ∧ CommandEffect s t

theorem EndsIn.next {s t : State} (h : CommandEffect s t) : EndsIn (.next t) s := ⟨t, rfl, h⟩

theorem endsIn_endWith {s : State} {r : Except StatusCode State}
    (h : ∀ t, r = .ok t → CommandEffect s (t.setCode .ok)) : EndsIn (endWith s r) s := by
  rcases endWith_cases s r with ⟨c, -, he⟩ | ⟨t, hr, he⟩
  · exact he ▸ .next (.code s c)
  · exact he ▸ .next (h t hr)

/-! ### The framer -/

theorem execCrc16_endsIn (n : Nat) (s : State) : EndsIn (execCrc16 n s) s := by
  simp only [execCrc16]
  split
  · exact .next (.code s _)
  · exact .next (.results _ _)

/-- A BuildFrame that raises nothing has put a frame of at most FBUF_SIZE bytes at the front of FBUF
and its length in RES0. -/
theorem buildFrame_ok {ty : Byte} {payload : List Byte} {n : Nat} {s t : State}
    (h : buildFrame ty payload n s = .ok t) :
    ∃ frame r, frame.length ≤ Config.fbufSize ∧
      t = (s.setFbuf (s.fbuf.writeBytes 0 frame)).setRes r := by
  rcases buildFrame_cases ty payload n s with ⟨-, he⟩ | ⟨-, -, he⟩ | ⟨hn, hlen, he⟩ <;>
    rw [he] at h <;> cases h
  refine ⟨_, _, ?_, rfl⟩
  rw [length_frameBytes]
  exact hlen.trans hn

theorem endsIn_buildFrame (ty : Byte) (payload : List Byte) (n : Nat) (s : State) :
    EndsIn (endWith s (buildFrame ty payload n s)) s := by
  refine endsIn_endWith fun t ht => ?_
  obtain ⟨frame, r, fits, rfl⟩ := buildFrame_ok ht
  exact .build frame r s.cmdSeq fits

theorem execBuildCmd_endsIn (n : Nat) (s : State) : EndsIn (execBuildCmd n s) s := by
  refine endsIn_endWith fun t ht => ?_
  cases hb : buildFrame s.params.typeCmd (cmdPayload s.cmdSeq s.arg.w0 s.arg.w1) n s with
  | error c => rw [hb] at ht; cases ht
  | ok u =>
    rw [hb] at ht
    cases ht
    obtain ⟨frame, r, fits, rfl⟩ := buildFrame_ok hb
    exact .build frame r _ fits

/-- A PARSE_* command whose acceptance writes RES only. -/
theorem endsIn_parse {k : Kind} {n : Nat} {s : State} (results : Nat → Quad) :
    EndsIn (endWith s ((parseFbuf k n s).map fun len => s.setRes (results len))) s := by
  refine endsIn_endWith fun t ht => ?_
  cases hp : parseFbuf k n s with
  | error c => rw [hp] at ht; cases ht
  | ok len =>
    rw [hp] at ht
    cases ht
    exact .results _ _

theorem execFindStart_endsIn (n : Nat) (s : State) : EndsIn (execFindStart n s) s := by
  unfold execFindStart
  split
  · exact .next (.code s _)
  · split
    · exact .next (.code s _)
    · exact .next (.results _ _)

/-! ### The receive engine -/

theorem execRxPush_endsIn (b : Byte) (s : State) : EndsIn (execRxPush b s) s := by
  unfold execRxPush
  split
  · exact .next (.code s _)
  · next room => exact .next (.push b room)

/-- The resynchronisation loop only discards (R161), and a frame it delivers fits FBUF (R111). -/
theorem pollLoop_bounds (p : Params) (fuel : Nat) (rx : List Byte) :
    (pollLoop p fuel rx).rx.length ≤ rx.length ∧
      ∀ bytes ty, (pollLoop p fuel rx).frame = some (bytes, ty) → bytes.length ≤ Config.fbufSize := by
  induction fuel generalizing rx with
  | zero => exact ⟨le_rfl, fun _ _ h => by cases h⟩
  | succ fuel ih =>
    have discard_le : ∀ (k : Nat) (l : List Byte), (discard k l).length ≤ l.length := by
      simp [discard]
    rw [pollLoop_succ]
    cases findPrefix p rx with
    | none =>
      refine ⟨?_, fun _ _ h => by cases h⟩
      dsimp only
      split
      · exact discard_le _ _
      · exact le_rfl
    | some k =>
      dsimp only
      split
      · exact ⟨discard_le _ _, fun _ _ h => by cases h⟩
      · exact ⟨(ih _).1.trans ((discard_le _ _).trans (discard_le _ _)), (ih _).2⟩
      · next kind len hparse =>
        refine ⟨(discard_le _ _).trans (discard_le _ _), fun bytes ty h => ?_⟩
        cases h
        obtain ⟨-, -, -, -, -, -, hlen, -⟩ := (parseCore_ok_iff _ _ _ _ _).mp hparse
        calc (List.take (Config.minFrame + len) (discard k rx)).length
            ≤ Config.minFrame + len := List.length_take_le _ _
          _ ≤ Config.minFrame + 200 := Nat.add_le_add_left (lenOK_le hlen) _
          _ ≤ Config.fbufSize := by decide

theorem execRxPoll_endsIn (s : State) : EndsIn (execRxPoll s) s := by
  obtain ⟨shrinks, fits⟩ := pollLoop_bounds s.params (s.rx.length + 1) s.rx
  unfold execRxPoll
  split
  · exact .next (.poll (pollEnd s).rx [] s.res _ shrinks (Nat.zero_le _))
  · next bytes ty hframe => exact .next (.poll _ bytes _ _ shrinks (fits bytes ty hframe))

/-! ### The filter and the controller -/

theorem execIirSetparams_endsIn (s : State) : EndsIn (execIirSetparams s) s := by
  unfold execIirSetparams
  split <;> exact .next (.filterOnly s _ _)

theorem execPidSetGains_endsIn (s : State) : EndsIn (execPidSetGains s) s := by
  unfold execPidSetGains
  split
  · next finite =>
    simp only [Bool.and_eq_true, and_assoc] at finite
    exact .next (.gains _ _ _ finite)
  · exact .next (.code s _)

theorem legalLimit_posZero : LegalLimit posZero := by decide

/-- A limit that PID_SET_LIMITS does not refuse is legal as it is stored (R34, R201). -/
theorem legalLimit_storedLimit {m : F32} (h : badLimit m = false) : LegalLimit (storedLimit m) := by
  unfold storedLimit
  split
  · exact legalLimit_posZero
  · next hz =>
    simp only [badLimit, Bool.or_eq_false_iff] at h
    obtain ⟨hnan, hneg⟩ := h
    refine ⟨hnan, Bool.eq_false_iff.mpr fun hs => hz (f32_ext hs ?_)⟩
    have hle : ¬ units m < 0 := fun hlt => by
      simp [(flt_iff m posZero).mpr ⟨hnan, isnan_posZero, hlt⟩] at hneg
    have hu : unitsAbs m = 0 := by
      simp only [units, hs, if_true] at hle
      omega
    exact (unitsAbs_eq_zero_iff m).mp hu

theorem execPidSetLimits_endsIn (s : State) : EndsIn (execPidSetLimits s) s := by
  unfold execPidSetLimits
  split
  · exact .next (.code s _)
  · next h =>
    simp only [Bool.or_eq_true, not_or, Bool.not_eq_true] at h
    obtain ⟨hI, hO⟩ := h
    exact .next (.limits _ _ ⟨legalLimit_storedLimit hI, legalLimit_storedLimit hO⟩)

theorem execPidStep_endsIn (s : State) : EndsIn (execPidStep s) s := by
  unfold execPidStep
  dsimp only
  split
  · exact .next (.running _ _ _ _)
  · exact .next (.results _ _)

/-! ### Every command -/

/-- All that a command can do (R102, R103): it ends, with one of the listed effects. -/
theorem exec_endsIn (i : Instr) (s : State) : EndsIn (exec i s) s := by
  cases i with
  | nop => exact .next (.code s _)
  | crc16 n => exact execCrc16_endsIn n s
  | buildCmd n => exact execBuildCmd_endsIn n s
  | buildTlm n => exact endsIn_buildFrame _ _ n s
  | buildPing n => exact endsIn_buildFrame _ _ n s
  | buildPong n => exact endsIn_buildFrame _ _ n s
  | buildLog n => exact endsIn_buildFrame _ _ n s
  | parseCmd n => exact endsIn_parse _
  | parseTlm n => exact endsIn_parse _
  | parsePing n => exact endsIn_parse fun _ => s.res
  | parsePong n => exact endsIn_parse fun _ => s.res
  | parseLog n => exact endsIn_parse fun len => { s.res with w0 := BitVec.ofNat 32 len }
  | findStart n => exact execFindStart_endsIn n s
  | rxPush b => exact execRxPush_endsIn b s
  | rxPoll => exact execRxPoll_endsIn s
  | iirSetparams => exact execIirSetparams_endsIn s
  | iirStep => exact .next (.filter _ _ _)
  | iirReset => exact .next (.filterOnly s _ _)
  | pidSetGains => exact execPidSetGains_endsIn s
  | pidSetLimits => exact execPidSetLimits_endsIn s
  | pidStep => exact execPidStep_endsIn s
  | pidReset => exact .next (.running posZero posZero true s.res)

/-- The inversion of `exec` that proofs about a command's next state cite. -/
theorem exec_effect {i : Instr} {s t : State} (h : exec i s = .next t) : CommandEffect s t := by
  obtain ⟨u, hu, heffect⟩ := exec_endsIn i s
  rw [h] at hu
  cases hu
  exact heffect

/-- What a write to CMD runs, an illegal word included (R84). -/
theorem runWord_effect {w : Word} {s t : State} (h : runWord w s = .next t) : CommandEffect s t := by
  unfold runWord at h
  split at h
  · exact exec_effect h
  · cases h
    exact .code s _

/-- Settles O16: none of the listed effects touches the host's side of the state. -/
theorem commandsKeepHostState : Obligations.CommandsKeepHostState := by
  intro i s t h
  cases exec_effect h <;> exact ⟨rfl, rfl, rfl, rfl, fun _ => rfl, rfl, rfl⟩

end Sys2Proof.Machine

/-! ## The invariant of the machine

One rule per update of the state; reset, the commands and the bus then keep the invariant by these
rules. -/

namespace Sys2Proof.Machine

section Updates

variable {s : State} (h : s.Inv)
include h

theorem State.Inv.setPending (v : List BusEvent) : (s.setPending v).Inv :=
  ⟨h.params, h.fbuf, h.pbuf, h.rx, h.gains, h.limits⟩

theorem State.Inv.setReadData (v : Word) : (s.setReadData v).Inv :=
  ⟨h.params, h.fbuf, h.pbuf, h.rx, h.gains, h.limits⟩

theorem State.Inv.setCmd (v : Word) : (s.setCmd v).Inv :=
  ⟨h.params, h.fbuf, h.pbuf, h.rx, h.gains, h.limits⟩

theorem State.Inv.setCode (c : StatusCode) : (s.setCode c).Inv :=
  ⟨h.params, h.fbuf, h.pbuf, h.rx, h.gains, h.limits⟩

theorem State.Inv.setBusErr (b : Bool) : (s.setBusErr b).Inv :=
  ⟨h.params, h.fbuf, h.pbuf, h.rx, h.gains, h.limits⟩

theorem State.Inv.setArg (v : Quad) : (s.setArg v).Inv :=
  ⟨h.params, h.fbuf, h.pbuf, h.rx, h.gains, h.limits⟩

theorem State.Inv.setRes (v : Quad) : (s.setRes v).Inv :=
  ⟨h.params, h.fbuf, h.pbuf, h.rx, h.gains, h.limits⟩

theorem State.Inv.setCmdSeq (v : Half) : (s.setCmdSeq v).Inv :=
  ⟨h.params, h.fbuf, h.pbuf, h.rx, h.gains, h.limits⟩

theorem State.Inv.setIir (u : IirUnit) : (s.setIir u).Inv :=
  ⟨h.params, h.fbuf, h.pbuf, h.rx, h.gains, h.limits⟩

theorem State.Inv.setRx {rx : List Byte} (hrx : rx.length ≤ Config.rxCap) : (s.setRx rx).Inv :=
  ⟨h.params, h.fbuf, h.pbuf, hrx, h.gains, h.limits⟩

theorem State.Inv.setFbuf {m : Memory} (hm : m.wf) : (s.setFbuf m).Inv :=
  ⟨h.params, hm, h.pbuf, h.rx, h.gains, h.limits⟩

theorem State.Inv.setPbuf {m : Memory} (hm : m.wf) : (s.setPbuf m).Inv :=
  ⟨h.params, h.fbuf, hm, h.rx, h.gains, h.limits⟩

theorem State.Inv.setPid (u : PidUnit)
    (hg : isfinite u.kp = true ∧ isfinite u.ki = true ∧ isfinite u.kd = true)
    (hl : LegalLimit u.maxI ∧ LegalLimit u.maxO) : (s.setPid u).Inv :=
  ⟨h.params, h.fbuf, h.pbuf, h.rx, hg, hl⟩

/-- Bytes that fit, at the front of FBUF. -/
theorem State.Inv.setFbuf_writeBytes {bytes : List Byte} (fits : bytes.length ≤ Config.fbufSize) :
    (s.setFbuf (s.fbuf.writeBytes 0 bytes)).Inv :=
  h.setFbuf (Memory.wf_writeBytes h.fbuf (by omega))

end Updates

/-! ### Reset -/

theorem isfinite_posZero : isfinite posZero = true := by decide

theorem inv_resetWith {p : Params} (hp : p.WellFormed) : (State.resetWith p).Inv where
  params := hp
  fbuf := Memory.wf_nil
  pbuf := Memory.wf_nil
  rx := Nat.zero_le _
  gains := ⟨isfinite_posZero, isfinite_posZero, isfinite_posZero⟩
  limits := ⟨legalLimit_posZero, legalLimit_posZero⟩

/-- Settles O19: TP1 is one of the legal choices of parameters. -/
theorem resetSatisfiesInv : Obligations.ResetSatisfiesInv :=
  ⟨inv_resetWith (by decide), fun _ => inv_resetWith⟩

theorem State.Inv.resetEvent {s : State} (h : s.Inv) : (resetEvent s).Inv :=
  ((inv_resetWith h.params).setPending _).setReadData _

/-! ### Commands -/

/-- Every effect of a command keeps the invariant. -/
theorem CommandEffect.inv {s t : State} (h : s.Inv) (he : CommandEffect s t) : t.Inv := by
  cases he with
  | results r c => exact (h.setRes r).setCode c
  | build frame r seq fits =>
    exact (((h.setFbuf_writeBytes fits).setRes r).setCmdSeq seq).setCode .ok
  | push b room =>
    have hlen : (s.rx ++ [b]).length ≤ Config.rxCap := by
      rw [List.length_append, List.length_singleton]
      exact Nat.lt_of_le_of_ne h.rx room
    exact (h.setRx hlen).setCode .ok
  | poll rx bytes r c shrinks fits =>
    exact (((h.setRx (shrinks.trans h.rx)).setFbuf_writeBytes fits).setRes r).setCode c
  | filter u r c => exact ((h.setIir u).setRes r).setCode c
  | gains kp ki kd finite =>
    exact (h.setPid { s.pid with kp := kp, ki := ki, kd := kd } finite h.limits).setCode .ok
  | limits maxI maxO legal =>
    exact (h.setPid { s.pid with maxI := maxI, maxO := maxO } h.gains legal).setCode .ok
  | running integ prev first r =>
    exact ((h.setPid { s.pid with integ := integ, prev := prev, first := first }
      h.gains h.limits).setRes r).setCode .ok

/-! ### The bus -/

theorem State.Inv.busRead {s : State} (h : s.Inv) (off size : Nat) : (busRead off size s).Inv := by
  unfold Machine.busRead
  split
  · exact (h.setBusErr true).setReadData 0
  · exact h.setReadData _

theorem State.Inv.writeStatus {s : State} (h : s.Inv) (v : Word) : (writeStatus v s).Inv := by
  unfold Machine.writeStatus
  split
  · exact h.setBusErr false
  · exact h

/-- A word written at an aligned offset of a buffer's window stays inside the buffer. -/
theorem wf_writeWord_of_aligned {m : Memory} (hm : m.wf) {base off : Nat} (hbase : base % 4 = 0)
    (halign : off % 4 = 0) (hoff : off < base + 0x100) (v : Word) :
    (m.writeWord (off - base) v).wf :=
  Memory.wf_writeWord hm (show off - base + 4 ≤ 256 by omega) v

/-- A store outside CMD, at an aligned offset (R37, R38). -/
theorem State.Inv.memWrite {s : State} (h : s.Inv) {off : Nat} (hcmd : off ≠ 0)
    (halign : off % 4 = 0) (v : Word) : (memWrite off v s).Inv := by
  rcases memWrite_cases off v s hcmd with he | ⟨-, he⟩ | ⟨a, he⟩ | ⟨-, hlt, he⟩ | ⟨-, hlt, he⟩ <;>
    rw [he]
  · exact h
  · exact h.writeStatus v
  · exact h.setArg a
  · exact h.setFbuf (wf_writeWord_of_aligned h.fbuf rfl halign hlt v)
  · exact h.setPbuf (wf_writeWord_of_aligned h.pbuf rfl halign hlt v)

/-- A supported access is aligned (R63). -/
theorem aligned_of_supported {off size : Nat} (h : unsupported off size = false) : off % 4 = 0 := by
  simp only [unsupported, Bool.or_eq_false_iff, bne_eq_false_iff_eq] at h
  exact h.2

/-- An event taken without a command keeps the invariant. -/
theorem State.Inv.take_done {s t : State} (h : s.Inv) (ht : take s = .done t) : t.Inv := by
  rcases take_done_cases ht with ⟨-, rfl⟩ | ⟨rest, -, rfl⟩ | ⟨off, size, rest, -, -, rfl⟩ |
    ⟨off, size, v, rest, -, -, ⟨-, rfl⟩ | ⟨hsupp, hcmd, rfl⟩⟩
  · exact h
  · exact (h.setPending rest).resetEvent
  · exact (h.setPending rest).busRead off size
  · exact (h.setPending rest).setBusErr true
  · exact (h.setPending rest).memWrite hcmd (aligned_of_supported hsupp) v

/-! ### Every step -/

/-- A step that answers a next state has taken an event without a command, or has stored a word in CMD
and run it (R80). -/
theorem step_next_cases {s t : State} (h : step s = .next t) :
    take s = .done t ∨ ∃ w u, take s = .command w u ∧ runWord w u = .next t := by
  unfold step at h
  split at h
  · next hd => cases h; exact .inl hd
  · next w u hc => exact .inr ⟨w, u, hc, h⟩
  · cases h

/-- Settles O20, by the event the step takes and the effect of the command a write to CMD runs. -/
theorem stepKeepsInv : Obligations.StepKeepsInv := by
  intro s t h hstep
  rcases step_next_cases hstep with hdone | ⟨w, u, hcommand, hrun⟩
  · exact h.take_done hdone
  · obtain ⟨rest, -, rfl⟩ := take_command_cases hcommand
    exact (runWord_effect hrun).inv ((h.setPending rest).setCmd w)

end Sys2Proof.Machine

/-! ## The CRC

With no final XOR (R14), the CRC is a fold of `crcByte`. The residue rests on one fact: while ones have
yet to reach bit 0, `crcShifts` only shifts. -/

namespace Sys2Proof.Machine

theorem crcShifts_eq_iterate (n : Nat) (c : Half) : crcShifts n c = crcShift^[n] c := by
  induction n generalizing c with
  | zero => rfl
  | succ n ih => rw [crcShifts, ih, Function.iterate_succ_apply]

theorem crc16_nil : crc16 [] = 0xFFFF := rfl

theorem crc16_eq_foldl (b : List Byte) : crc16 b = b.foldl crcByte Config.crcInit :=
  BitVec.xor_zero

theorem crc16_append (a b : List Byte) : crc16 (a ++ b) = b.foldl crcByte (crc16 a) := by
  rw [crc16_eq_foldl, crc16_eq_foldl, List.foldl_append]

/-- Shifting out n zeros leaves the polynomial out (R14). -/
theorem crcShifts_of_low_zero (n : Nat) (c : Half) (h : ∀ k < n, c.getLsbD k = false) :
    crcShifts n c = c >>> n := by
  induction n generalizing c with
  | zero => rfl
  | succ n ih =>
    have hshift : crcShift c = c >>> 1 := by
      rw [crcShift, h 0 (Nat.succ_pos n), if_neg Bool.false_ne_true]
    have hlow : ∀ k < n, (c >>> 1).getLsbD k = false := fun k hk => by
      rw [BitVec.getLsbD_ushiftRight, h _ (by omega)]
    rw [crcShifts, hshift, ih _ hlow, ← BitVec.shiftRight_add, Nat.add_comm]

/-- Feeding a CRC register its own low byte moves its high byte down. -/
theorem crcByte_low_byte (c : Half) : crcByte c (c.extractLsb' 0 8) = c >>> 8 := by
  have hbit : ∀ k, (c ^^^ (c.extractLsb' 0 8).setWidth 16).getLsbD k =
      if k < 8 then false else c.getLsbD k := fun k => by
    by_cases hk : k < 8
    · simp [hk, show k < 16 by omega]
    · simp [hk]
  rw [crcByte, crcShifts_of_low_zero 8 _ fun k hk => by rw [hbit, if_pos hk]]
  refine BitVec.eq_of_getLsbD_eq fun k _ => ?_
  rw [BitVec.getLsbD_ushiftRight, hbit, if_neg (by omega), BitVec.getLsbD_ushiftRight]

/-- A register that holds one byte becomes zero when it is fed that byte. -/
theorem crcByte_high_byte (c : Half) : crcByte (c >>> 8) (c.extractLsb' 8 8) = 0 := by
  have hzero : c >>> 8 ^^^ (c.extractLsb' 8 8).setWidth 16 = 0 := by
    refine BitVec.eq_of_getLsbD_eq fun k hk => ?_
    by_cases h8 : k < 8
    · simp [h8, hk]
    · simp [h8, BitVec.getLsbD_of_ge c (8 + k) (by omega)]
  rw [crcByte, hzero]
  rfl

/-- Settles O27: the residue by feeding the register its own low byte and then its high byte. -/
theorem crcRecurrenceAndResidue : Obligations.CrcRecurrenceAndResidue := by
  refine ⟨crc16_nil, fun b x => ?_, by decide +kernel, fun b => ?_⟩
  · rw [crc16_append]
    exact crcShifts_eq_iterate 8 _
  · rw [crc16_append, List.foldl_cons, List.foldl_cons, List.foldl_nil, crcByte_low_byte,
      crcByte_high_byte]

end Sys2Proof.Machine

/-! ## Binary32: one equation per case of each operation

The branches of `fadd`, `fmul` and `fdiv` (R12, log 7), each under the hypotheses that choose it;
`fsub` follows by `fneg`. -/

namespace Sys2Proof.Machine

/-! ### Infinities, zeros and exact values -/

theorem isfinite_of_not_inf {a : F32} (hnan : isnan a = false) (hinf : isinf a = false) :
    isfinite a = true := by
  rcases f32_class a with ⟨h, -, -⟩ | ⟨-, h, -⟩ | ⟨-, -, h⟩
  · exact h
  · rw [hinf] at h; cases h
  · rw [hnan] at h; cases h

theorem isnan_of_isinf {a : F32} (h : isinf a = true) : isnan a = false := by
  rcases f32_class a with ⟨-, h', -⟩ | ⟨-, -, h'⟩ | ⟨-, h', -⟩
  · rw [h] at h'; cases h'
  · exact h'
  · rw [h] at h'; cases h'

/-- An infinity is determined by its sign. -/
theorem eq_mkF32_of_isinf {a : F32} (h : isinf a = true) : a = mkF32 (fsign a) infMagnitude := by
  have hmag : fmagnitude a = infMagnitude := by simpa [isinf] using h
  rw [← hmag, mkF32_fields]

/-- An infinity counts 2^277 units. -/
theorem unitsAbs_ne_zero_of_isinf {a : F32} (h : isinf a = true) : unitsAbs a ≠ 0 := by
  have hmag : fmagnitude a = infMagnitude := by simpa [isinf] using h
  rw [ne_eq, unitsAbs_eq_zero_iff, hmag]
  decide

/-- A zero is finite. -/
theorem isfinite_of_unitsAbs_eq_zero {a : F32} (hnan : isnan a = false) (h0 : unitsAbs a = 0) :
    isfinite a = true :=
  isfinite_of_not_inf hnan (Bool.eq_false_iff.mpr fun hinf => unitsAbs_ne_zero_of_isinf hinf h0)

theorem units_eq_zero_iff (a : F32) : units a = 0 ↔ unitsAbs a = 0 := by
  unfold units
  split <;> omega

theorem f32Value_eq_zero_iff (a : F32) : f32Value a = 0 ↔ unitsAbs a = 0 := by
  simp [f32Value, units_eq_zero_iff]

@[simp] theorem f32Value_fneg (a : F32) : f32Value (fneg a) = -f32Value a := by
  simp [f32Value, neg_div]

theorem f32Value_add_eq_zero_iff (a b : F32) :
    f32Value a + f32Value b = 0 ↔ units a + units b = 0 := by
  rw [f32Value, f32Value, ← add_div, div_eq_zero_iff, or_iff_left (by positivity)]
  exact_mod_cast Iff.rfl

theorem f32Value_lt_iff (a b : F32) : f32Value a < f32Value b ↔ units a < units b := by
  rw [f32Value, f32Value, div_lt_div_iff_of_pos_right (by positivity), Int.cast_lt]

/-! ### fadd and fsub -/

section Operations

variable {a b : F32}

theorem fadd_of_isnan (h : isnan a = true ∨ isnan b = true) : fadd a b = canonicalNaN :=
  if_pos (by simpa using h)

theorem fadd_inf_left (ha : isinf a = true) (hb : isnan b = false)
    (hs : isinf b = true → fsign a = fsign b) : fadd a b = a := by
  have hsame : (isinf b && fsign a != fsign b) = false := by
    cases h : isinf b with
    | false => rfl
    | true => simp [hs h]
  simp [fadd, isnan_of_isinf ha, hb, ha, hsame]

theorem fadd_inf_inf (ha : isinf a = true) (hb : isinf b = true) (hs : fsign a ≠ fsign b) :
    fadd a b = canonicalNaN := by
  simp [fadd, isnan_of_isinf ha, isnan_of_isinf hb, ha, hb, hs]

theorem fadd_inf_right (ha : isfinite a = true) (hb : isinf b = true) : fadd a b = b := by
  simp [fadd, isnan_of_isfinite ha, isinf_of_isfinite ha, isnan_of_isinf hb, hb]

theorem fadd_finite_zero (ha : isfinite a = true) (hb : isfinite b = true)
    (h0 : units a + units b = 0) :
    fadd a b = if fsign a && fsign b then negZero else posZero := by
  simp [fadd, isnan_of_isfinite, isinf_of_isfinite, ha, hb, h0]

theorem fadd_finite (ha : isfinite a = true) (hb : isfinite b = true) (h0 : units a + units b ≠ 0) :
    fadd a b = rneUnits (units a + units b) := by
  simp [fadd, isnan_of_isfinite, isinf_of_isfinite, ha, hb, h0]

/-! ### fmul -/

theorem fmul_of_isnan (h : isnan a = true ∨ isnan b = true) : fmul a b = canonicalNaN :=
  if_pos (by simpa using h)

theorem fmul_inf_zero (hna : isnan a = false) (hnb : isnan b = false)
    (hinf : isinf a = true ∨ isinf b = true) (h0 : unitsAbs a = 0 ∨ unitsAbs b = 0) :
    fmul a b = canonicalNaN := by
  simp [fmul, hna, hnb, hinf, h0]

theorem fmul_inf (hna : isnan a = false) (hnb : isnan b = false)
    (hinf : isinf a = true ∨ isinf b = true) (ha : unitsAbs a ≠ 0) (hb : unitsAbs b ≠ 0) :
    fmul a b = mkF32 (fsign a != fsign b) infMagnitude := by
  simp [fmul, hna, hnb, hinf, ha, hb]

theorem fmul_finite (ha : isfinite a = true) (hb : isfinite b = true) :
    fmul a b = rne32 (fsign a != fsign b) (unitsAbs a * unitsAbs b) unitsOne := by
  simp [fmul, isnan_of_isfinite, isinf_of_isfinite, ha, hb]

/-! ### fdiv -/

theorem fdiv_of_isnan (h : isnan a = true ∨ isnan b = true) : fdiv a b = canonicalNaN :=
  if_pos (by simpa using h)

theorem fdiv_inf_inf (ha : isinf a = true) (hb : isinf b = true) : fdiv a b = canonicalNaN := by
  simp [fdiv, isnan_of_isinf, ha, hb]

theorem fdiv_inf_finite (ha : isinf a = true) (hb : isfinite b = true) :
    fdiv a b = mkF32 (fsign a != fsign b) infMagnitude := by
  simp [fdiv, isnan_of_isinf ha, ha, isnan_of_isfinite hb, isinf_of_isfinite hb]

theorem fdiv_finite_inf (ha : isfinite a = true) (hb : isinf b = true) :
    fdiv a b = mkF32 (fsign a != fsign b) 0 := by
  simp [fdiv, isnan_of_isfinite ha, isinf_of_isfinite ha, isnan_of_isinf hb, hb]

theorem fdiv_zero_zero (ha : isfinite a = true) (hb : isfinite b = true) (ha0 : unitsAbs a = 0)
    (hb0 : unitsAbs b = 0) : fdiv a b = canonicalNaN := by
  simp [fdiv, isnan_of_isfinite, isinf_of_isfinite, ha, hb, ha0, hb0]

theorem fdiv_finite_zero (ha : isfinite a = true) (hb : isfinite b = true) (ha0 : unitsAbs a ≠ 0)
    (hb0 : unitsAbs b = 0) : fdiv a b = mkF32 (fsign a != fsign b) infMagnitude := by
  simp [fdiv, isnan_of_isfinite, isinf_of_isfinite, ha, hb, ha0, hb0]

theorem fdiv_finite (ha : isfinite a = true) (hb : isfinite b = true) (hb0 : unitsAbs b ≠ 0) :
    fdiv a b = rne32 (fsign a != fsign b) (unitsAbs a * unitsOne) (unitsAbs b) := by
  simp [fdiv, isnan_of_isfinite, isinf_of_isfinite, ha, hb, hb0]

end Operations

end Sys2Proof.Machine

/-! ## Binary32: correct rounding (R12) -/

namespace Sys2Proof.Machine

/-- The sign factor of a product is the product of the sign factors. -/
theorem sign_xor (p q : Bool) :
    (if p != q then -1 else 1 : ℝ) = (if p then -1 else 1) * (if q then -1 else 1) := by
  cases p <;> cases q <;> simp

theorem rneUnits_isRNE (u : ℤ) : IsRNE32 ((u / 2 ^ 149 : ℚ) : ℝ) (rneUnits u) := by
  rw [rneUnits]
  convert rne32_isRNE (decide (u < 0)) u.natAbs 1 Nat.one_pos using 1
  have habs : ((u.natAbs : ℕ) : ℝ) = |(u : ℝ)| := by rw [Nat.cast_natAbs, Int.cast_abs]
  rw [habs, Nat.cast_one, div_one]
  push_cast
  rcases lt_or_ge u 0 with hu | hu
  · rw [abs_of_neg (by exact_mod_cast hu), if_pos (by simpa using hu)]
    ring
  · rw [abs_of_nonneg (by exact_mod_cast hu), if_neg (by simpa using hu)]
    ring

/-- A zero of either sign is the rounding of zero. -/
theorem zero_isRNE (neg : Bool) : IsRNE32 0 (if neg then negZero else posZero) := by
  have hzero : (if neg then negZero else posZero) = rne32 neg 0 1 := by
    cases neg <;> decide
  simpa [hzero] using rne32_isRNE neg 0 1 Nat.one_pos

theorem fadd_isRNE {a b : F32} (ha : isfinite a = true) (hb : isfinite b = true) :
    IsRNE32 ((f32Value a + f32Value b : ℚ) : ℝ) (fadd a b) := by
  by_cases h0 : units a + units b = 0
  · rw [fadd_finite_zero ha hb h0, (f32Value_add_eq_zero_iff a b).mpr h0, Rat.cast_zero]
    exact zero_isRNE _
  · have hsum : f32Value a + f32Value b = ((units a + units b : ℤ) : ℚ) / 2 ^ 149 := by
      rw [f32Value, f32Value, ← add_div, Int.cast_add]
    rw [fadd_finite ha hb h0, hsum]
    exact rneUnits_isRNE _

theorem fsub_isRNE {a b : F32} (ha : isfinite a = true) (hb : isfinite b = true) :
    IsRNE32 ((f32Value a - f32Value b : ℚ) : ℝ) (fsub a b) := by
  rw [sub_eq_add_neg, ← f32Value_fneg]
  exact fadd_isRNE ha (by rwa [isfinite_fneg])

theorem fmul_isRNE {a b : F32} (ha : isfinite a = true) (hb : isfinite b = true) :
    IsRNE32 ((f32Value a * f32Value b : ℚ) : ℝ) (fmul a b) := by
  rw [fmul_finite ha hb]
  convert rne32_isRNE (fsign a != fsign b) (unitsAbs a * unitsAbs b) unitsOne (by decide) using 1
  rw [Rat.cast_mul, f32Value_eq, f32Value_eq, sign_xor]
  push_cast [unitsOne]
  ring

theorem fdiv_isRNE {a b : F32} (ha : isfinite a = true) (hb : isfinite b = true)
    (h0 : f32Value b ≠ 0) : IsRNE32 ((f32Value a / f32Value b : ℚ) : ℝ) (fdiv a b) := by
  have hb0 : unitsAbs b ≠ 0 := fun h => h0 ((f32Value_eq_zero_iff b).mpr h)
  rw [fdiv_finite ha hb hb0]
  convert rne32_isRNE (fsign a != fsign b) (unitsAbs a * unitsOne) (unitsAbs b)
    (Nat.pos_of_ne_zero hb0) using 1
  have hsign : (if fsign b then -1 else 1 : ℝ)⁻¹ = if fsign b then -1 else 1 := by
    cases fsign b <;> norm_num
  rw [Rat.cast_div, f32Value_eq, f32Value_eq, sign_xor, mul_div_mul_comm, div_eq_mul_inv, hsign,
    Nat.cast_mul, unitsOne, Nat.cast_pow, Nat.cast_ofNat]
  field_simp

/-- Settles O55: each operation is one rounding of an exact fraction (`rne32_isRNE`). -/
theorem arithmeticCorrectlyRounded : Obligations.ArithmeticCorrectlyRounded := fun _ _ ha hb =>
  ⟨fadd_isRNE ha hb, fsub_isRNE ha hb, fmul_isRNE ha hb, fdiv_isRNE ha hb⟩

end Sys2Proof.Machine

/-! ## Binary32: infinities, signs of zeros, NaNs and clamping (log 7, R13, R69) -/

namespace Sys2Proof.Machine

/-! ### The signs of infinities and zeros (log 7) -/

theorem mkF32_infMagnitude (neg : Bool) :
    mkF32 neg infMagnitude = if neg then 0xFF800000 else 0x7F800000 := by
  cases neg <;> decide

theorem mkF32_zero (neg : Bool) : mkF32 neg 0 = if neg then 0x80000000 else 0x00000000 := by
  cases neg <;> decide

section Cases

variable {a b : F32}

/-- A sum with an infinity in it, or an exact zero (log 7). `fsub` takes it with b's sign flipped. -/
theorem fadd_special (hnb : isnan b = false) :
    (isinf a = true → isinf b = true → fsign a ≠ fsign b → fadd a b = 0x7FC00000) ∧
    (isinf a = true → (isinf b = true → fsign a = fsign b) →
      fadd a b = if fsign a then 0xFF800000 else 0x7F800000) ∧
    (isfinite a = true → isinf b = true → fadd a b = if fsign b then 0xFF800000 else 0x7F800000) ∧
    (isfinite a = true → isfinite b = true → f32Value a + f32Value b = 0 →
      fadd a b = if fsign a && fsign b then 0x80000000 else 0x00000000) := by
  refine ⟨fadd_inf_inf, fun ha hs => ?_, fun ha hb => ?_, fun ha hb h0 => ?_⟩
  · rw [fadd_inf_left ha hnb hs, ← mkF32_infMagnitude, ← eq_mkF32_of_isinf ha]
  · rw [fadd_inf_right ha hb, ← mkF32_infMagnitude, ← eq_mkF32_of_isinf hb]
  · exact fadd_finite_zero ha hb ((f32Value_add_eq_zero_iff a b).mp h0)

theorem fsub_special (hnb : isnan b = false) :
    (isinf a = true → isinf b = true → fsign a = fsign b → fsub a b = 0x7FC00000) ∧
    (isinf a = true → (isinf b = true → fsign a ≠ fsign b) →
      fsub a b = if fsign a then 0xFF800000 else 0x7F800000) ∧
    (isfinite a = true → isinf b = true →
      fsub a b = if !fsign b then 0xFF800000 else 0x7F800000) ∧
    (isfinite a = true → isfinite b = true → f32Value a - f32Value b = 0 →
      fsub a b = if fsign a && !fsign b then 0x80000000 else 0x00000000) := by
  have h := fadd_special (a := a) (b := fneg b) (by rwa [isnan_fneg])
  simpa only [fsub, isinf_fneg, isfinite_fneg, fsign_fneg, f32Value_fneg, ← sub_eq_add_neg, ne_eq,
    Bool.eq_not, not_not] using h

theorem fmul_special (hna : isnan a = false) (hnb : isnan b = false) :
    (isinf a = true ∨ isinf b = true → f32Value a ≠ 0 → f32Value b ≠ 0 →
      fmul a b = if fsign a != fsign b then 0xFF800000 else 0x7F800000) ∧
    (isinf a = true ∨ isinf b = true → f32Value a = 0 ∨ f32Value b = 0 →
      fmul a b = 0x7FC00000) ∧
    (isfinite a = true → isfinite b = true → fsign (fmul a b) = (fsign a != fsign b)) := by
  simp only [ne_eq, f32Value_eq_zero_iff]
  refine ⟨fun hinf ha hb => ?_, fmul_inf_zero hna hnb, fun ha hb => ?_⟩
  · rw [fmul_inf hna hnb hinf ha hb, mkF32_infMagnitude]
  · rw [fmul_finite ha hb, fsign_rne32]

theorem fdiv_special (hna : isnan a = false) (hnb : isnan b = false) :
    (isinf a = true → isinf b = true → fdiv a b = 0x7FC00000) ∧
    (isinf a = true → isfinite b = true →
      fdiv a b = if fsign a != fsign b then 0xFF800000 else 0x7F800000) ∧
    (isfinite a = true → isinf b = true →
      fdiv a b = if fsign a != fsign b then 0x80000000 else 0x00000000) ∧
    (f32Value a = 0 → f32Value b = 0 → fdiv a b = 0x7FC00000) ∧
    (f32Value a ≠ 0 → f32Value b = 0 →
      fdiv a b = if fsign a != fsign b then 0xFF800000 else 0x7F800000) ∧
    (isfinite a = true → isfinite b = true → f32Value b ≠ 0 →
      fsign (fdiv a b) = (fsign a != fsign b)) := by
  simp only [ne_eq, f32Value_eq_zero_iff, ← mkF32_infMagnitude, ← mkF32_zero]
  refine ⟨fdiv_inf_inf, fdiv_inf_finite, fdiv_finite_inf, fun ha0 hb0 => ?_, fun ha0 hb0 => ?_,
    fun ha hb hb0 => ?_⟩
  · exact fdiv_zero_zero (isfinite_of_unitsAbs_eq_zero hna ha0)
      (isfinite_of_unitsAbs_eq_zero hnb hb0) ha0 hb0
  · have hb := isfinite_of_unitsAbs_eq_zero hnb hb0
    cases hinf : isinf a with
    | true => exact fdiv_inf_finite hinf hb
    | false =>
      exact fdiv_finite_zero (isfinite_of_not_inf hna hinf) hb ha0 hb0
  · rw [fdiv_finite ha hb hb0, fsign_rne32]

end Cases

/-- Settles O56, operation by operation. -/
theorem infinitiesAndZeroSigns : Obligations.InfinitiesAndZeroSigns := fun _ _ hna hnb =>
  ⟨fadd_special hnb, fsub_special hnb, fmul_special hna hnb, fdiv_special hna hnb⟩

/-! ### Canonical NaNs (R69) -/

theorem isnan_mkF32_infMagnitude (neg : Bool) : isnan (mkF32 neg infMagnitude) = false := by
  cases neg <;> decide

theorem isnan_mkF32_zero (neg : Bool) : isnan (mkF32 neg 0) = false := by
  cases neg <;> decide

theorem fsub_of_isnan {a b : F32} (h : isnan a = true ∨ isnan b = true) :
    fsub a b = canonicalNaN :=
  fadd_of_isnan (by rwa [isnan_fneg])

/-- The one NaN an operation can give (R69): the result is `canonicalNaN` or no NaN. -/
def CanonicalResult (r : F32) : Prop := r = canonicalNaN ∨ isnan r = false

theorem CanonicalResult.eq {r : F32} (h : CanonicalResult r) (hr : isnan r = true) :
    r = 0x7FC00000 :=
  h.resolve_right fun h' => by rw [hr] at h'; cases h'

theorem not_isnan_or {a b : F32} (h : ¬ (isnan a || isnan b) = true) :
    isnan a = false ∧ isnan b = false := by
  simpa using h

theorem fadd_canonical (a b : F32) : CanonicalResult (fadd a b) := by
  unfold fadd
  split
  · exact .inl rfl
  · next hnan =>
    obtain ⟨hna, hnb⟩ := not_isnan_or hnan
    split
    · split
      · exact .inl rfl
      · exact .inr hna
    · split
      · exact .inr hnb
      · split
        · exact .inr (zero_isRNE _).not_nan
        · exact .inr (isnan_rne32 _ _ _)

theorem fsub_canonical (a b : F32) : CanonicalResult (fsub a b) := fadd_canonical a (fneg b)

theorem fmul_canonical (a b : F32) : CanonicalResult (fmul a b) := by
  unfold fmul
  dsimp only
  split
  · exact .inl rfl
  · split
    · split
      · exact .inl rfl
      · exact .inr (isnan_mkF32_infMagnitude _)
    · exact .inr (isnan_rne32 _ _ _)

theorem fdiv_canonical (a b : F32) : CanonicalResult (fdiv a b) := by
  unfold fdiv
  dsimp only
  split
  · exact .inl rfl
  · split
    · split
      · exact .inl rfl
      · exact .inr (isnan_mkF32_infMagnitude _)
    · split
      · exact .inr (isnan_mkF32_zero _)
      · split
        · split
          · exact .inl rfl
          · exact .inr (isnan_mkF32_infMagnitude _)
        · exact .inr (isnan_rne32 _ _ _)

/-! ### Comparisons and clamping (R12, R13) -/

theorem flt_iff_f32Value (a b : F32) :
    flt a b = true ↔ isnan a = false ∧ isnan b = false ∧ f32Value a < f32Value b := by
  rw [flt_iff, f32Value_lt_iff]

theorem flt_eq_false_of_le {a b : F32} (h : f32Value b ≤ f32Value a) : flt a b = false :=
  Bool.eq_false_iff.mpr fun hlt => by
    obtain ⟨-, -, hlt⟩ := (flt_iff_f32Value a b).mp hlt
    exact absurd hlt (not_lt.mpr h)

section Clamp

variable {v lo hi : F32}

theorem clampf_of_isnan (hv : isnan v = true) : clampf v lo hi = canonicalNaN := if_pos hv

theorem clampf_below (hv : isnan v = false) (hlo : isnan lo = false)
    (h : f32Value v < f32Value lo) : clampf v lo hi = lo := by
  have hlt : flt v lo = true := (flt_iff_f32Value v lo).mpr ⟨hv, hlo, h⟩
  simp [clampf, hv, hlt]

theorem clampf_above (hv : isnan v = false) (hhi : isnan hi = false)
    (hle : f32Value lo ≤ f32Value hi) (h : f32Value hi < f32Value v) : clampf v lo hi = hi := by
  have hlo : flt v lo = false := flt_eq_false_of_le (hle.trans h.le)
  have hgt : flt hi v = true := (flt_iff_f32Value hi v).mpr ⟨hhi, hv, h⟩
  simp [clampf, fgt, hv, hlo, hgt]

theorem clampf_between (hv : isnan v = false) (hlo : f32Value lo ≤ f32Value v)
    (hhi : f32Value v ≤ f32Value hi) : clampf v lo hi = v := by
  simp [clampf, fgt, hv, flt_eq_false_of_le hlo, flt_eq_false_of_le hhi]

end Clamp

/-- Settles O57 from the equations of the comparisons, the canonical results and the four cases of
`clampf`. -/
theorem comparisonsNansAndClamp : Obligations.ComparisonsNansAndClamp :=
  ⟨flt_iff_f32Value, fun _ _ => rfl,
    fun _ _ h => ⟨fadd_of_isnan h, fsub_of_isnan h, fmul_of_isnan h, fdiv_of_isnan h⟩,
    fun a b => ⟨(fadd_canonical a b).eq, (fsub_canonical a b).eq, (fmul_canonical a b).eq,
      (fdiv_canonical a b).eq⟩,
    fun a => ⟨rfl, fsign_fneg a, fmagnitude_fneg a⟩,
    fun _ _ _ hlo hhi hle => ⟨clampf_of_isnan, fun hv => clampf_below hv hlo,
      fun hv => clampf_above hv hhi hle, clampf_between⟩⟩

end Sys2Proof.Machine

/-! ## The register window

Each register is reached at its own offset, and the reserved offsets reach none (R37, R38). From this,
what a supported write to each offset does within a step, and what a step can change of CMD and BUSERR. -/

namespace Sys2Proof.Machine

/-! ### Offsets and registers -/

@[simp] theorem regAt_regOffset (r : Reg) : regAt (regOffset r) = some r := by
  cases r <;> rfl

theorem regOffset_of_regAt {off : Nat} {r : Reg} (h : regAt off = some r) : regOffset r = off := by
  simpa using List.find?_some h

theorem regOffset_lt (r : Reg) : regOffset r < 0x078 := by
  cases r <;> decide

/-- Past PID_FLAGS the map is reserved. -/
theorem regAt_reserved {off : Nat} (h : 0x078 ≤ off) : regAt off = none := by
  cases hr : regAt off with
  | none => rfl
  | some r =>
    have hoff := regOffset_of_regAt hr
    have hlt := regOffset_lt r
    omega

theorem memRead_regOffset (r : Reg) (s : State) : memRead (regOffset r) s = readReg r s := by
  have hlt : regOffset r < 0x100 := (regOffset_lt r).trans (by decide)
  simp [memRead, hlt]

theorem memWrite_regOffset (r : Reg) (v : Word) (s : State) :
    memWrite (regOffset r) v s = writeReg r v s := by
  have hlt : regOffset r < 0x100 := (regOffset_lt r).trans (by decide)
  simp [memWrite, hlt]

/-- A reserved offset reads 0 (R38). -/
theorem memRead_reserved {off : Nat} (hlo : 0x078 ≤ off) (hhi : off < 0x100) (s : State) :
    memRead off s = 0 := by
  simp [memRead, hhi, regAt_reserved hlo]

/-- From RES0 on, the registers are read-only (R37). -/
theorem writeReg_of_readOnly {r : Reg} (h : 0x018 ≤ regOffset r) (v : Word) (s : State) :
    writeReg r v s = s := by
  cases r
  case cmd | status | arg0 | arg1 | arg2 | arg3 => exact absurd h (by decide)
  all_goals rfl

/-- A store to a read-only register or a reserved offset is ignored (R38). -/
theorem memWrite_of_readOnly {off : Nat} (hlo : 0x018 ≤ off) (hhi : off < 0x100) (v : Word)
    (s : State) : memWrite off v s = s := by
  cases hr : regAt off with
  | none => simp [memWrite, hhi, hr]
  | some r =>
    obtain rfl := regOffset_of_regAt hr
    rw [memWrite_regOffset, writeReg_of_readOnly hlo]

/-- A store to the RXBUF window is ignored (R38, R65). -/
theorem memWrite_rxWindow {off : Nat} (h : 0x300 ≤ off) (v : Word) (s : State) :
    memWrite off v s = s := by
  simp [memWrite, show ¬ off < 0x100 by omega, show ¬ off < 0x200 by omega,
    show ¬ off < 0x300 by omega]

/-! ### STATUS and the flag registers -/

/-- STATUS bit by bit: CODE below bit 8, BUSERR in it, zeros above (R25). -/
theorem statusWord_getLsbD (s : State) (k : Nat) :
    (statusWord s).getLsbD k =
      if k < 8 then (codeByte s.code).getLsbD k else decide (k = 8) && s.busErr := by
  rw [statusWord, BitVec.getLsbD_setWidth, BitVec.getLsbD_append, BitVec.getLsbD_ofBool]
  by_cases h : k < 8
  · simp [h, show k < 32 by omega]
  · have hbit : k - 8 = 0 ↔ k = 8 := by omega
    by_cases h8 : k = 8 <;> simp [h, h8, hbit]

theorem statusWord_code (s : State) : (statusWord s).extractLsb' 0 8 = codeByte s.code := by
  refine BitVec.eq_of_getLsbD_eq fun k hk => ?_
  rw [BitVec.getLsbD_extractLsb', Nat.zero_add, statusWord_getLsbD]
  simp [hk]

theorem statusWord_busErr (s : State) : (statusWord s).getLsbD 8 = s.busErr := by
  rw [statusWord_getLsbD]
  simp

theorem statusWord_zeros (s : State) : (statusWord s).extractLsb' 9 23 = 0 := by
  refine BitVec.eq_of_getLsbD_eq fun k hk => ?_
  rw [BitVec.getLsbD_extractLsb', statusWord_getLsbD, if_neg (by omega)]
  simp [show ¬ 9 + k = 8 by omega]

theorem flagWord_eq (b : Bool) : (BitVec.ofBool b).setWidth 32 = if b then (1 : Word) else 0 := by
  cases b <;> rfl

theorem writeStatus_of_set {v : Word} (h : v.getLsbD 8 = true) (s : State) :
    writeStatus v s = s.setBusErr false :=
  if_pos h

theorem writeStatus_of_clear {v : Word} (h : v.getLsbD 8 = false) (s : State) :
    writeStatus v s = s :=
  if_neg (Bool.eq_false_iff.mp h)

/-! ### A step that takes a supported write -/

theorem unsupported_word {off : Nat} (h : off % 4 = 0) : unsupported off 4 = false := by
  simp [unsupported, h]

/-- A supported access is four bytes long (R63). -/
theorem size_of_supported {off size : Nat} (h : unsupported off size = false) : size = 4 := by
  simp only [unsupported, Bool.or_eq_false_iff, bne_eq_false_iff_eq] at h
  exact h.1

/-- A supported write outside CMD does its store and no more. -/
theorem step_write {s : State} {off : Nat} {v : Word} {rest : List BusEvent} (hoff : off < 0x400)
    (halign : off % 4 = 0) (hcmd : off ≠ 0)
    (hp : s.pending = .write (s.params.base + off) 4 v :: rest) :
    step s = .next (memWrite off v (s.setPending rest)) := by
  have hne : off ≠ regOffset .cmd := hcmd
  simp [step, take_write hoff hp, busWrite, unsupported_word halign, hne]

/-- A supported write to CMD stores the word and runs it (R80). -/
theorem step_write_cmd {s : State} {w : Word} {rest : List BusEvent}
    (hp : s.pending = .write s.params.base 4 w :: rest) :
    step s = runWord w ((s.setPending rest).setCmd w) := by
  have htake := take_write (off := regOffset .cmd) (by decide) hp
  have haligned : unsupported (regOffset .cmd) 4 = false := rfl
  simp [step, htake, busWrite, haligned, memWrite_regOffset, writeReg]

/-- A supported write to a register other than CMD. -/
theorem step_write_reg {s : State} {r : Reg} {v : Word} {rest : List BusEvent} (hcmd : r ≠ .cmd)
    (hp : s.pending = .write (s.params.base + regOffset r) 4 v :: rest) :
    step s = .next (writeReg r v (s.setPending rest)) := by
  have halign : regOffset r % 4 = 0 := by cases r <;> rfl
  have hne : regOffset r ≠ 0 := fun h0 => hcmd (by
    have hr := regAt_regOffset r
    rw [h0] at hr
    exact (Option.some.inj hr).symm)
  rw [step_write ((regOffset_lt r).trans (by decide)) halign hne hp, memWrite_regOffset]

/-! ### What a store and a command keep -/

/-- A command word, legal or not, always ends (R102). -/
theorem runWord_next (w : Word) (s : State) : ∃ t, runWord w s = .next t := by
  unfold runWord
  split
  · next i _ =>
    obtain ⟨t, ht, -⟩ := exec_endsIn i s
    exact ⟨t, ht⟩
  · exact ⟨_, raise_eq _ _⟩

theorem CommandEffect.cmd {s t : State} (h : CommandEffect s t) : t.cmd = s.cmd := by
  cases h <;> rfl

theorem CommandEffect.busErr {s t : State} (h : CommandEffect s t) : t.busErr = s.busErr := by
  cases h <;> rfl

theorem CommandEffect.arg {s t : State} (h : CommandEffect s t) : t.arg = s.arg := by
  cases h <;> rfl

theorem busRead_cmd (off size : Nat) (s : State) : (busRead off size s).cmd = s.cmd := by
  unfold busRead
  split <;> rfl

/-- A read sets BUSERR or leaves it (R63, R68). -/
theorem busRead_busErr {s : State} (h : s.busErr = true) (off size : Nat) :
    (busRead off size s).busErr = true := by
  unfold busRead
  split
  · rfl
  · exact h

theorem writeStatus_cmd (v : Word) (s : State) : (writeStatus v s).cmd = s.cmd := by
  unfold writeStatus
  split <;> rfl

theorem memWrite_cmd {off : Nat} (hoff : off ≠ 0) (v : Word) (s : State) :
    (memWrite off v s).cmd = s.cmd := by
  rcases memWrite_cases off v s hoff with he | ⟨-, he⟩ | ⟨a, he⟩ | ⟨-, -, he⟩ | ⟨-, -, he⟩ <;> rw [he]
  · exact writeStatus_cmd v s
  all_goals rfl

/-- Only a write of 1 to bit 8 of STATUS clears a BUSERR that is set (R25). -/
theorem memWrite_busErr {off : Nat} (hoff : off ≠ 0) (v : Word) {s : State} (h : s.busErr = true) :
    (memWrite off v s).busErr = true ∨ off = 0x004 ∧ v.getLsbD 8 = true := by
  rcases memWrite_cases off v s hoff with he | ⟨hstatus, he⟩ | ⟨a, he⟩ | ⟨-, -, he⟩ | ⟨-, -, he⟩ <;>
    rw [he]
  · exact .inl h
  · cases hv : v.getLsbD 8 with
    | true => exact .inr ⟨hstatus, rfl⟩
    | false => exact .inl (by rw [writeStatus_of_clear hv, h])
  all_goals exact .inl h

/-! ### CMD (R24) -/

/-- The events that change CMD: a reset, and a supported write to it. -/
theorem step_cmd_cases {s t : State} (h : step s = .next t) :
    t.cmd = s.cmd ∨ (∃ rest, s.pending = .reset :: rest) ∨
      ∃ w rest, s.pending = .write s.params.base 4 w :: rest := by
  rcases step_next_cases h with hdone | ⟨w, u, hcommand, -⟩
  · rcases take_done_cases hdone with ⟨-, rfl⟩ | ⟨rest, hp, -⟩ | ⟨off, size, rest, -, -, rfl⟩ |
      ⟨off, size, v, rest, -, -, ⟨-, rfl⟩ | ⟨-, hcmd, rfl⟩⟩
    · exact .inl rfl
    · exact .inr (.inl ⟨rest, hp⟩)
    · exact .inl (busRead_cmd _ _ _)
    · exact .inl rfl
    · exact .inl (memWrite_cmd hcmd _ _)
  · obtain ⟨rest, hp, -⟩ := take_command_cases hcommand
    exact .inr (.inr ⟨w, rest, hp⟩)

/-- Settles O7: the write stores the word, and no effect of a command touches CMD. -/
theorem cmdHoldsLastWordWritten : Obligations.CmdHoldsLastWordWritten := by
  refine ⟨fun s w rest hp => ⟨fun i hi => ?_, ?_⟩, fun i s t h => (exec_effect h).cmd,
    fun s t => step_cmd_cases⟩
  · rw [step_write_cmd hp, runWord, hi]
    rfl
  · obtain ⟨t, ht⟩ := runWord_next w ((s.setPending rest).setCmd w)
    have hcmd : t.cmd = w := (runWord_effect ht).cmd
    exact ⟨t, (step_write_cmd hp).trans ht, hcmd, (memRead_regOffset .cmd t).trans hcmd⟩

/-! ### STATUS (R25) -/

theorem step_write_status_of_set {s : State} {v : Word} {rest : List BusEvent}
    (hp : s.pending = .write (s.params.base + 0x004) 4 v :: rest) (hv : v.getLsbD 8 = true) :
    step s = .next { s with pending := rest, busErr := false } := by
  rw [step_write_reg (r := .status) (by decide) hp, writeReg, writeStatus_of_set hv]
  rfl

theorem step_write_status_of_clear {s : State} {v : Word} {rest : List BusEvent}
    (hp : s.pending = .write (s.params.base + 0x004) 4 v :: rest) (hv : v.getLsbD 8 = false) :
    step s = .next { s with pending := rest } := by
  rw [step_write_reg (r := .status) (by decide) hp, writeReg, writeStatus_of_clear hv]
  rfl

/-- The events that clear a BUSERR that is set. -/
theorem step_busErr_cases {s t : State} (h : step s = .next t) (hs : s.busErr = true) :
    t.busErr = true ∨ (∃ rest, s.pending = .reset :: rest) ∨
      ∃ v rest, s.pending = .write (s.params.base + 0x004) 4 v :: rest ∧ v.getLsbD 8 = true := by
  rcases step_next_cases h with hdone | ⟨w, u, hcommand, hrun⟩
  · rcases take_done_cases hdone with ⟨-, rfl⟩ | ⟨rest, hp, -⟩ | ⟨off, size, rest, -, -, rfl⟩ |
      ⟨off, size, v, rest, -, hp, ⟨-, rfl⟩ | ⟨hsupp, hcmd, rfl⟩⟩
    · exact .inl hs
    · exact .inr (.inl ⟨rest, hp⟩)
    · exact .inl (busRead_busErr (s := s.setPending rest) hs _ _)
    · exact .inl rfl
    · rcases memWrite_busErr (s := s.setPending rest) hcmd v hs with hkept | ⟨rfl, hv⟩
      · exact .inl hkept
      · obtain rfl := size_of_supported hsupp
        exact .inr (.inr ⟨v, rest, hp, hv⟩)
  · obtain ⟨rest, -, rfl⟩ := take_command_cases hcommand
    exact .inl ((runWord_effect hrun).busErr.trans hs)

/-- Settles O10: STATUS bit by bit, both values of the bit written, and no effect of a command
touches BUSERR. -/
theorem statusFieldsAndStickiness : Obligations.StatusFieldsAndStickiness := by
  refine ⟨fun s => ?_, fun s v rest hp =>
      ⟨step_write_status_of_set hp, step_write_status_of_clear hp⟩,
    fun i s t h => (exec_effect h).busErr, fun s t => step_busErr_cases⟩
  have hread : memRead 0x004 s = statusWord s := memRead_regOffset .status s
  rw [hread]
  exact ⟨statusWord_code s, statusWord_busErr s, statusWord_zeros s⟩

/-! ### ARG0 to ARG3 (R22) -/

/-- Settles O15: each ARG register is written at its own offset, and no effect of a command touches
ARG. -/
theorem operandRegisterWrites : Obligations.OperandRegisterWrites :=
  ⟨fun _ _ _ =>
    ⟨step_write_reg (r := .arg0) (by decide), step_write_reg (r := .arg1) (by decide),
      step_write_reg (r := .arg2) (by decide), step_write_reg (r := .arg3) (by decide)⟩,
    fun _ _ _ h => (exec_effect h).arg⟩

/-! ### The register map (R37, R38) -/

/-- RX_COUNT's nine bits hold every length up to RX_CAP (R27). -/
theorem toNat_rxCount {s : State} (h : s.rx.length ≤ 256) :
    (readReg .rxCount s).toNat = s.rx.length := by
  simp only [readReg, BitVec.toNat_setWidth, BitVec.toNat_ofNat]
  omega

theorem toNat_frSeq (s : State) : (readReg .frSeq s).toNat = s.cmdSeq.toNat := by
  simp only [readReg, BitVec.toNat_setWidth]
  omega

/-- Settles O11: each register is read at its own offset, and past the last the map is reserved. -/
theorem registerMapReads : Obligations.RegisterMapReads := by
  intro s hrx
  have reads (r : Reg) : memRead (regOffset r) s = readReg r s := memRead_regOffset r s
  exact ⟨reads .cmd, reads .arg0, reads .arg1, reads .arg2, reads .arg3,
    reads .res0, reads .res1, reads .res2, reads .res3,
    (congrArg BitVec.toNat (reads .frSeq)).trans (toNat_frSeq s),
    (congrArg BitVec.toNat (reads .rxCount)).trans (toNat_rxCount hrx),
    (reads .iirFlags).trans (flagWord_eq _),
    reads .iirB0, reads .iirB1, reads .iirB2, reads .iirA1, reads .iirA2,
    reads .iirX1, reads .iirX2, reads .iirY1, reads .iirY2,
    reads .pidKp, reads .pidKi, reads .pidKd, reads .pidMaxI, reads .pidMaxO,
    reads .pidInteg, reads .pidPrev, (reads .pidFlags).trans (flagWord_eq _),
    fun _ hlo hhi => memRead_reserved hlo hhi s⟩

/-- Settles O14: no store reaches a register from RES0 on, a reserved offset or RXBUF. -/
theorem readOnlyWritesIgnored : Obligations.ReadOnlyWritesIgnored := by
  refine ⟨fun s off v rest hoff halign hp => ?_, fun s v rest hp => ?_,
    fun s off hlo hhi => memRead_reserved hlo hhi s⟩
  · rw [step_write (by omega) halign (by omega) hp]
    rcases hoff with ⟨hlo, hhi⟩ | ⟨hlo, -⟩
    · rw [memWrite_of_readOnly hlo hhi]
      rfl
    · rw [memWrite_rxWindow hlo]
      rfl
  · cases hv : v.getLsbD 8 with
    | true => exact ⟨false, step_write_status_of_set hp hv, by simp⟩
    | false => exact ⟨s.busErr, step_write_status_of_clear hp hv, by simp⟩

/-! ### The reset event (R41, R240) -/

theorem step_reset {s : State} {rest : List BusEvent} (hp : s.pending = .reset :: rest) :
    step s = .next (resetEvent (s.setPending rest)) := by
  simp [step, take, hp]

/-- After a reset event PID_FLAGS reads 1, FIRST being set, and every other register 0. -/
theorem readReg_resetEvent (r : Reg) (s : State) :
    readReg r (resetEvent s) = if r = .pidFlags then 1 else 0 := by
  cases r with
  | status =>
    change statusWord State.reset = 0
    decide
  | _ => rfl

theorem readWord_nil (a : Nat) : Memory.readWord [] a = 0 := by
  simp [Memory.readWord, packWord, blankByte]

theorem rxByte_resetEvent (s : State) (j : Nat) : rxByte (resetEvent s) j = 0 := rfl

/-- The reset column of R37: every offset of the window, the buffers included. -/
theorem memRead_resetEvent (off : Nat) (s : State) :
    memRead off (resetEvent s) = if off = 0x074 then 1 else 0 := by
  by_cases hreg : off < 0x100
  · cases hr : regAt off with
    | none =>
      have hne : off ≠ 0x074 := by
        rintro rfl
        exact absurd ((regAt_regOffset .pidFlags).symm.trans hr) (by simp)
      simp [memRead, hreg, hr, hne]
    | some r =>
      obtain rfl := regOffset_of_regAt hr
      rw [memRead_regOffset, readReg_resetEvent]
      cases r <;> rfl
  · have hne : off ≠ 0x074 := by omega
    unfold memRead
    rw [if_neg hreg, if_neg hne]
    split
    · exact readWord_nil _
    · split
      · exact readWord_nil _
      · simp only [rxByte_resetEvent]
        rfl

/-- Settles O18: the state after a reset event is `State.resetWith` but for the host's own fields. -/
theorem resetEventValues : Obligations.ResetEventValues := by
  intro s rest hp
  refine ⟨_, step_reset hp, rfl, rfl, rfl, rfl, rfl, rfl, rfl, rfl, fun _ => rfl, fun _ => rfl,
    rfl, rfl, rfl, rfl, rfl, rfl, rfl, rfl, rfl, rfl, rfl, rfl, rfl, rfl, rfl, rfl, rfl, rfl,
    fun off _ _ => memRead_resetEvent off _⟩

end Sys2Proof.Machine

/-! ## Accesses to the window

What a step does with an event that runs no command: an access outside the window, an unsupported
one, a supported read, and the reads and writes of FBUF, PBUF and RXBUF (R60 to R65, R68). -/

namespace Sys2Proof.Machine

/-! ### Steps that never refuse (R60, R102) -/

theorem windowOffset_eq_none_iff {p : Params} {addr : Nat} :
    windowOffset p addr = none ↔ addr < p.base ∨ p.base + 0x400 ≤ addr := by
  refine ⟨windowOffset_none, fun hout => ?_⟩
  cases hw : windowOffset p addr with
  | none => rfl
  | some off =>
    obtain ⟨haddr, hoff⟩ := windowOffset_some hw
    omega

/-- The block decodes no event outside its window. -/
theorem step_outside {s : State} {e : BusEvent} {rest : List BusEvent}
    (hp : s.pending = e :: rest) (hout : e.inWindow s.params = false) :
    step s = .fault .outsideWindow := by
  cases e with
  | reset => cases hout
  | read addr size | write addr size v =>
    have hnone : windowOffset s.params addr = none := by simpa using hout
    simp [step, take, hp, hnone]

/-- Settles O21: the three things that taking an event comes to. -/
theorem stepIsSafe : Obligations.StepIsSafe := by
  intro s
  cases htake : take s with
  | done t => exact .inl ⟨t, by simp [step, htake]⟩
  | command w u =>
    obtain ⟨t, ht⟩ := runWord_next w u
    exact .inl ⟨t, by simp [step, htake, ht]⟩
  | outside =>
    obtain ⟨addr, size, rest, hout, hp | ⟨v, hp⟩⟩ := take_outside_cases htake
    all_goals
      exact .inr ⟨by simp [step, htake], _, rest, hp, by simp [windowOffset_eq_none_iff.mpr hout]⟩

/-- Settles O17: nothing to take, and an access whose address has no offset. -/
theorem idleAndOutsideWindow : Obligations.IdleAndOutsideWindow := by
  refine ⟨fun s hp => by simp [step, take, hp], fun s addr size rest hout => ?_⟩
  have hnone := windowOffset_eq_none_iff.mpr hout
  exact ⟨fun hp => step_outside hp (by simp [hnone]), fun v hp => step_outside hp (by simp [hnone])⟩

/-! ### Unsupported accesses (R63) -/

theorem unsupported_iff {off size : Nat} :
    unsupported off size = true ↔ size ≠ 4 ∨ off % 4 ≠ 0 := by
  simp [unsupported]

/-- A read inside the window, supported or not. -/
theorem step_read {s : State} {off size : Nat} {rest : List BusEvent} (hoff : off < 0x400)
    (hp : s.pending = .read (s.params.base + off) size :: rest) :
    step s = .next (busRead off size (s.setPending rest)) := by
  simp [step, take_read hoff hp]

theorem busRead_unsupported {off size : Nat} (h : unsupported off size = true) (s : State) :
    busRead off size s = (s.setBusErr true).setReadData 0 :=
  if_pos h

theorem busWrite_unsupported {off size : Nat} (h : unsupported off size = true) (v : Word)
    (s : State) : busWrite off size v s = .done (s.setBusErr true) :=
  if_pos h

/-- Settles O9: the check of size and alignment comes before the offset is looked at. -/
theorem unsupportedAccessSetsBusErr : Obligations.UnsupportedAccessSetsBusErr := by
  intro s off size rest hoff hbad
  have hunsupp := unsupported_iff.mpr hbad
  refine ⟨fun hp => ?_, fun v hp => ?_⟩
  · rw [step_read hoff hp, busRead_unsupported hunsupp]
    rfl
  · rw [step, take_write hoff hp, busWrite_unsupported hunsupp]
    rfl

/-! ### Supported reads (R62, R68) -/

theorem busRead_supported {off : Nat} (halign : off % 4 = 0) (s : State) :
    busRead off 4 s = s.setReadData (memRead off s) := by
  simp [busRead, unsupported_word halign]

/-- No offset shows the host's own fields (log 2, log 3). -/
theorem memRead_hostFields (off : Nat) (s : State) (rest : List BusEvent) (v : Word) :
    memRead off ((s.setPending rest).setReadData v) = memRead off s := rfl

/-- Settles O8: the answer and the event taken are the host's own fields, which no read shows. -/
theorem supportedReadChangesNothing : Obligations.SupportedReadChangesNothing := by
  intro s off rest hoff halign hp
  refine ⟨(s.setPending rest).setReadData (memRead off s), ?_, rfl,
    fun again => memRead_hostFields again s rest _⟩
  rw [step_read hoff hp, busRead_supported halign]
  rfl

/-! ### The four bytes of a word (R64) -/

/-- The first byte is in bits [7:0], each later one eight bits up. -/
theorem packWord_eq_or (b0 b1 b2 b3 : Byte) :
    packWord b0 b1 b2 b3 =
      b0.setWidth 32 ||| b1.setWidth 32 <<< 8 ||| b2.setWidth 32 <<< 16 |||
        b3.setWidth 32 <<< 24 := by
  refine BitVec.eq_of_getLsbD_eq fun k hk => ?_
  simp only [packWord, BitVec.getLsbD_append, BitVec.getLsbD_or, BitVec.getLsbD_shiftLeft,
    BitVec.getLsbD_setWidth]
  interval_cases k <;> simp [BitVec.getLsbD_of_ge]

/-- All that storing a word does to a read. -/
theorem Memory.read_writeWord (m : Memory) (a x : Nat) (v : Word) :
    (m.writeWord a v).read x = if a ≤ x ∧ x < a + 4 then byteOf v (x - a) else m.read x := by
  rw [Memory.writeWord, Memory.read_writeBytes]
  refine ite_congr rfl (fun hx => ?_) fun _ => rfl
  obtain ⟨d, rfl⟩ := Nat.exists_eq_add_of_le hx.1
  have hd : d < 4 := Nat.lt_of_add_lt_add_left hx.2
  rw [Nat.add_sub_cancel_left]
  interval_cases d <;> rfl

/-- R64's four stores, and that there is no fifth. -/
theorem Memory.writeWord_stores (m : Memory) (a : Nat) (v : Word) :
    (m.writeWord a v).read a = v.extractLsb' 0 8 ∧
      (m.writeWord a v).read (a + 1) = v.extractLsb' 8 8 ∧
      (m.writeWord a v).read (a + 2) = v.extractLsb' 16 8 ∧
      (m.writeWord a v).read (a + 3) = v.extractLsb' 24 8 ∧
      ∀ x, ¬ (a ≤ x ∧ x < a + 4) → (m.writeWord a v).read x = m.read x := by
  have stored (k : Nat) (hk : k < 4) : (m.writeWord a v).read (a + k) = byteOf v k := by
    simp [Memory.read_writeWord, hk]
  exact ⟨stored 0 (by decide), stored 1 (by decide), stored 2 (by decide), stored 3 (by decide),
    fun x hx => by rw [Memory.read_writeWord, if_neg hx]⟩

/-! ### FBUF and PBUF through the window (R37, R64) -/

section Buffers

variable {a : Nat} (ha : a < 0x100) (s : State)
include ha

theorem memRead_fbuf : memRead (0x100 + a) s = s.fbuf.readWord a := by
  simp [memRead, show 0x100 + a < 0x200 by omega]

theorem memRead_pbuf : memRead (0x200 + a) s = s.pbuf.readWord a := by
  simp [memRead, show ¬ 0x200 + a < 0x100 by omega, show 0x200 + a < 0x300 by omega]

theorem memWrite_fbuf (v : Word) :
    memWrite (0x100 + a) v s = s.setFbuf (s.fbuf.writeWord a v) := by
  simp [memWrite, show 0x100 + a < 0x200 by omega]

theorem memWrite_pbuf (v : Word) :
    memWrite (0x200 + a) v s = s.setPbuf (s.pbuf.writeWord a v) := by
  simp [memWrite, show ¬ 0x200 + a < 0x100 by omega, show 0x200 + a < 0x300 by omega]

end Buffers

/-- Settles O12: word i of a buffer lies at byte index 4i. -/
theorem bufferWordAccess : Obligations.BufferWordAccess := by
  intro s i rest hi
  have hindex : 4 * i < 0x100 := by omega
  refine ⟨fun m base hm => ?_, fun v => ⟨fun hp => ?_, fun hp => ?_⟩⟩
  · have hread : memRead (base + 4 * i) s = m.readWord (4 * i) := by
      rcases hm with ⟨rfl, rfl⟩ | ⟨rfl, rfl⟩
      · exact memRead_fbuf hindex s
      · exact memRead_pbuf hindex s
    rw [hread, Memory.readWord, packWord_eq_or]
  · refine ⟨s.fbuf.writeWord (4 * i) v, ?_, s.fbuf.writeWord_stores (4 * i) v⟩
    rw [step_write (by omega) (by omega) (by omega) hp, memWrite_fbuf hindex]
    rfl
  · refine ⟨s.pbuf.writeWord (4 * i) v, ?_, s.pbuf.writeWord_stores (4 * i) v⟩
    rw [step_write (by omega) (by omega) (by omega) hp, memWrite_pbuf hindex]
    rfl

/-! ### RXBUF (R65) -/

theorem memRead_rxWindow (j : Nat) (s : State) :
    memRead (0x300 + j) s =
      packWord (rxByte s j) (rxByte s (j + 1)) (rxByte s (j + 2)) (rxByte s (j + 3)) := by
  simp [memRead, show ¬ 0x300 + j < 0x100 by omega, show ¬ 0x300 + j < 0x200 by omega]

/-- R65's R(j), as its byte of a word. -/
theorem setWidth_rxByte (s : State) (j : Nat) :
    (rxByte s j).setWidth 32 = if h : j < s.rx.length then (s.rx[j]).setWidth 32 else (0 : Word) := by
  unfold rxByte byteAt
  split
  · next h => rw [List.getD_eq_getElem _ _ h]
  · next h =>
    rw [List.getD_eq_default _ _ (Nat.le_of_not_lt h)]
    rfl

/-- Settles O13: the window packs R65's R(j), and no store reaches it. -/
theorem rxWindowShowsRx : Obligations.RxWindowShowsRx := by
  intro s i hi
  refine ⟨?_, fun v rest hp => ?_⟩
  · rw [memRead_rxWindow, packWord_eq_or]
    simp only [setWidth_rxByte]
  · rw [step_write (by omega) (by omega) (by omega) hp, memWrite_rxWindow (by omega)]
    rfl

end Sys2Proof.Machine

/-! ## The encoding

A word is its three fields, and a row of the opcode map admits a word when the word has the row's opcode
and zeros where the row says 0 (R81, R83). Decoding, the match/mask form and R84's illegal words are
each said in these terms. -/

namespace Sys2Proof

/-! ### The fields of a word (R81) -/

/-- The word with these fields: `OP | (SEL << 8) | (N << 16)` (R86). -/
def wordOf (n : Half) (sel op : Byte) : Word := n ++ (sel ++ op)

@[simp] theorem opField_wordOf (n : Half) (sel op : Byte) : opField (wordOf n sel op) = op :=
  (BitVec.extractLsb'_append_eq_of_add_le (by decide)).trans BitVec.extractLsb'_append_eq_right

@[simp] theorem selField_wordOf (n : Half) (sel op : Byte) : selField (wordOf n sel op) = sel :=
  (BitVec.extractLsb'_append_eq_of_add_le (by decide)).trans BitVec.extractLsb'_append_eq_left

@[simp] theorem nField_wordOf (n : Half) (sel op : Byte) : nField (wordOf n sel op) = n :=
  BitVec.extractLsb'_append_eq_left

/-- The three fields are the whole word. -/
theorem wordOf_fields (w : Word) : wordOf (nField w) (selField w) (opField w) = w :=
  calc nField w ++ (selField w ++ opField w)
    _ = nField w ++ w.extractLsb' 0 16 :=
      congrArg (nField w ++ ·) (BitVec.extractLsb'_append_extractLsb'_eq_extractLsb' rfl)
    _ = w.extractLsb' 0 32 := BitVec.extractLsb'_append_extractLsb'_eq_extractLsb' rfl
    _ = w := BitVec.extractLsb'_eq_self

theorem wordOf_inj {n n' : Half} {sel sel' op op' : Byte} :
    wordOf n sel op = wordOf n' sel' op' ↔ n = n' ∧ sel = sel' ∧ op = op' := by
  refine ⟨fun h => ⟨?_, ?_, ?_⟩, fun ⟨hn, hsel, hop⟩ => by rw [hn, hsel, hop]⟩
  · simpa using congrArg nField h
  · simpa using congrArg selField h
  · simpa using congrArg opField h

theorem wordOf_and (n n' : Half) (sel sel' op op' : Byte) :
    wordOf n sel op &&& wordOf n' sel' op' = wordOf (n &&& n') (sel &&& sel') (op &&& op') :=
  BitVec.and_append.trans (congrArg _ BitVec.and_append)

theorem encode_eq_wordOf (i : Instr) : encode i = wordOf (nOf i) (selOf i) (opcodeOf i) := rfl

/-! ### The rows of the opcode map (R83) -/

/-- The word has the row's opcode, and zeros in the fields where the row says 0. -/
def OpRow.Admits (r : OpRow) (w : Word) : Prop :=
  r.op = opField w ∧ (r.usesSel = false → selField w = 0) ∧ (r.usesN = false → nField w = 0)

/-- The bits that the row fixes: every bit of a field it does not use, and the opcode's. -/
def OpRow.mask (r : OpRow) : Word :=
  wordOf (if r.usesN then 0 else BitVec.allOnes 16) (if r.usesSel then 0 else BitVec.allOnes 8)
    (BitVec.allOnes 8)

section Rows

variable {r : OpRow} (hr : r ∈ opcodeMap) (sel : Byte) (n : Nat)
include hr

theorem opcodeOf_build : opcodeOf (r.build sel n) = r.op := by
  fin_cases hr <;> rfl

theorem selOf_build : selOf (r.build sel n) = if r.usesSel then sel else 0 := by
  fin_cases hr <;> rfl

theorem count_build : (r.build sel n).count = if r.usesN then some n else none := by
  fin_cases hr <;> rfl

theorem matchMask_build : matchMask (r.build sel n) = (wordOf 0 0 r.op, r.mask) := by
  fin_cases hr <;> rfl

/-- No opcode stands in two rows. -/
theorem find_opcodeMap : opcodeMap.find? (fun r' => r'.op == r.op) = some r := by
  fin_cases hr <;> rfl

end Rows

/-- Every command is its row's, built from the operands its word carries. -/
theorem exists_row (i : Instr) : ∃ r ∈ opcodeMap, i = r.build (selOf i) (i.count.getD 0) := by
  cases i <;> simp [opcodeMap, selOf, Instr.count]

/-! ### What decodes -/

/-- Decoding succeeds on the words that a row admits, with the command the row builds. -/
theorem decode_eq_ok_iff {w : Word} {i : Instr} :
    decode w = .ok i ↔
      ∃ r ∈ opcodeMap, r.Admits w ∧ i = r.build (selField w) (nField w).toNat := by
  constructor
  · intro h
    unfold decode at h
    split at h
    · cases h
    next r hfind =>
      have hop : r.op = opField w := by simpa using List.find?_some hfind
      split_ifs at h with hsel hn
      cases h
      exact ⟨r, List.mem_of_find?_eq_some hfind, ⟨hop, fun hsel0 => by_contra fun h => hsel ⟨h, hsel0⟩,
        fun hn0 => by_contra fun h => hn ⟨h, hn0⟩⟩, rfl⟩
  · rintro ⟨r, hr, ⟨hop, hsel, hn⟩, rfl⟩
    have hfind := find_opcodeMap hr
    rw [hop] at hfind
    simp only [decode, hfind]
    rw [if_neg fun h => h.1 (hsel h.2), if_neg fun h => h.1 (hn h.2)]

theorem toNat_nOf {i : Instr} (hi : i.WellFormed) : (nOf i).toNat = i.count.getD 0 := by
  rw [nOf, BitVec.toNat_ofNat, Nat.mod_eq_of_lt]
  cases hcount : i.count with
  | none => decide
  | some n => simpa [Instr.WellFormed, hcount] using hi

theorem nOf_build {r : OpRow} (hr : r ∈ opcodeMap) (sel : Byte) (n : Half) :
    nOf (r.build sel n.toNat) = if r.usesN then n else 0 := by
  rw [nOf, count_build hr]
  split <;> simp

theorem build_wellFormed {r : OpRow} (hr : r ∈ opcodeMap) (sel : Byte) (n : Half) :
    (r.build sel n.toNat).WellFormed := by
  rw [Instr.WellFormed, count_build hr]
  split
  · exact decide_eq_true n.isLt
  · rfl

/-- A row admits the word of each command it builds. -/
theorem admits_encode {r : OpRow} (hr : r ∈ opcodeMap) (sel : Byte) (n : Half) :
    r.Admits (encode (r.build sel n.toNat)) := by
  refine ⟨?_, fun hsel => ?_, fun hn => ?_⟩
  · simp [encode_eq_wordOf, opcodeOf_build hr]
  · simp [encode_eq_wordOf, selOf_build hr, hsel]
  · simp [encode_eq_wordOf, nOf_build hr, hn]

theorem encode_build {r : OpRow} (hr : r ∈ opcodeMap) {w : Word} (hw : r.Admits w) :
    encode (r.build (selField w) (nField w).toNat) = w := by
  obtain ⟨hop, hsel, hn⟩ := hw
  have hselOf : (if r.usesSel then selField w else 0) = selField w :=
    ite_eq_left_iff.mpr fun h => (hsel (Bool.eq_false_iff.mpr h)).symm
  have hnOf : (if r.usesN then nField w else 0) = nField w :=
    ite_eq_left_iff.mpr fun h => (hn (Bool.eq_false_iff.mpr h)).symm
  rw [encode_eq_wordOf, opcodeOf_build hr, selOf_build hr, nOf_build hr, hop, hselOf, hnOf,
    wordOf_fields]

/-- Settles O1: the command's own row admits its word, and builds the command from the word's fields. -/
theorem decodeOfEncode : Obligations.DecodeOfEncode := by
  intro i hi
  obtain ⟨r, hr, hbuild⟩ := exists_row i
  rw [← toNat_nOf hi] at hbuild
  have hadmits : r.Admits (encode i) := by
    have := admits_encode hr (selOf i) (nOf i)
    rwa [← hbuild] at this
  refine decode_eq_ok_iff.mpr ⟨r, hr, hadmits, ?_⟩
  simpa [encode_eq_wordOf] using hbuild

/-- Settles O2: the word is made of the fields that its row lets it choose. -/
theorem encodeOfDecode : Obligations.EncodeOfDecode := by
  intro w i h
  obtain ⟨r, hr, hadmits, rfl⟩ := decode_eq_ok_iff.mp h
  exact ⟨build_wellFormed hr _ _, encode_build hr hadmits⟩

theorem decode_error {w : Word} (h : ∀ r ∈ opcodeMap, ¬ r.Admits w) : ∃ e, decode w = .error e := by
  cases hd : decode w with
  | error e => exact ⟨e, rfl⟩
  | ok i =>
    obtain ⟨r, hr, hadmits, -⟩ := decode_eq_ok_iff.mp hd
    exact absurd hadmits (h r hr)

/-- Settles O3: each word is its command's, as `encode` spells it, and SEL is nonzero in the one that
does not decode. -/
theorem sampleWordsDecode : Obligations.SampleWordsDecode :=
  ⟨decodeOfEncode (.buildCmd 14) rfl, decodeOfEncode (.rxPush 0xAA) rfl,
    decodeOfEncode .iirReset rfl, decodeOfEncode .nop rfl, decodeOfEncode (.crc16 256) rfl,
    decodeOfEncode (.findStart 65535) rfl, decodeOfEncode .pidStep rfl, by decide,
    congrArg Except.toOption (decodeOfEncode (.parseLog 208) rfl)⟩

/-! ### The match/mask form of the table (R83) -/

/-- A field under a mask of all ones or of none. -/
theorem and_mask_eq_zero_iff {k : Nat} (used : Bool) (x : BitVec k) :
    x &&& (if used then 0 else BitVec.allOnes k) = 0 ↔ (used = false → x = 0) := by
  cases used <;> simp

/-- A word agrees with its row's match under its row's mask just when the row admits it. -/
theorem and_matchMask_eq_iff {r : OpRow} (hr : r ∈ opcodeMap) (sel : Byte) (n : Nat) (w : Word) :
    w &&& (matchMask (r.build sel n)).2 = (matchMask (r.build sel n)).1 ↔ r.Admits w := by
  rw [matchMask_build hr, ← wordOf_fields w, OpRow.mask, wordOf_and, wordOf_inj,
    and_mask_eq_zero_iff, and_mask_eq_zero_iff, BitVec.and_allOnes, wordOf_fields, OpRow.Admits]
  tauto

/-- Settles O4: on both sides stands that a row admits the word. -/
theorem decodeMatchesTable : Obligations.DecodeMatchesTable := by
  refine ⟨fun w i hi => ?_, fun w i hmatch => ?_⟩
  · obtain ⟨r, hr, hadmits, rfl⟩ := decode_eq_ok_iff.mp hi
    exact (and_matchMask_eq_iff hr _ _ w).mpr hadmits
  · obtain ⟨r, hr, hbuild⟩ := exists_row i
    rw [hbuild] at hmatch ⊢
    have hadmits := (and_matchMask_eq_iff hr _ _ w).mp hmatch
    exact ⟨_, decode_eq_ok_iff.mpr ⟨r, hr, hadmits, rfl⟩,
      (opcodeOf_build hr _ _).trans (opcodeOf_build hr _ _).symm⟩

/-! ### The illegal words (R84) -/

/-- The opcodes of the commands with a count in N (R83). -/
def countedOps : List Byte :=
  [0x10, 0x11, 0x12, 0x13, 0x14, 0x15, 0x18, 0x19, 0x1A, 0x1B, 0x1C, 0x1D]

/-- The opcodes of the commands with neither a SEL nor an N (R83). -/
def plainOps : List Byte := [0x00, 0x21, 0x30, 0x31, 0x32, 0x40, 0x41, 0x42, 0x43]

/-- R84's three forms of an illegal word. -/
def IllegalForm (w : Word) : Prop :=
  (opField w ∉ countedOps ∧ opField w ∉ plainOps ∧ opField w ≠ 0x20) ∨
    (selField w ≠ 0 ∧ opField w ≠ 0x20) ∨ (nField w ≠ 0 ∧ opField w ∉ countedOps)

theorem usesN_iff : ∀ r ∈ opcodeMap, (r.usesN = true ↔ r.op ∈ countedOps) := by decide

theorem usesSel_iff : ∀ r ∈ opcodeMap, (r.usesSel = true ↔ r.op = 0x20) := by decide

/-- The three groups of opcodes are those of the table. -/
theorem ops_perm : (opcodeMap.map OpRow.op).Perm (0x20 :: (countedOps ++ plainOps)) := by decide

theorem assigned_iff (op : Byte) :
    (∃ r ∈ opcodeMap, r.op = op) ↔ op = 0x20 ∨ op ∈ countedOps ∨ op ∈ plainOps := by
  simpa using ops_perm.mem_iff (a := op)

/-- Which fields a row of the table wants zero can be read off the word's opcode. -/
theorem admits_iff {r : OpRow} (hr : r ∈ opcodeMap) (w : Word) :
    r.Admits w ↔ r.op = opField w ∧ (opField w ≠ 0x20 → selField w = 0) ∧
      (opField w ∉ countedOps → nField w = 0) := by
  refine and_congr_right fun hop => ?_
  rw [← hop, ne_eq, ← usesSel_iff r hr, ← usesN_iff r hr, Bool.not_eq_true, Bool.not_eq_true]

/-- R84's legal words are those that a row admits. -/
theorem not_illegalForm_iff (w : Word) : ¬ IllegalForm w ↔ ∃ r ∈ opcodeMap, r.Admits w := by
  calc ¬ IllegalForm w
    _ ↔ (opField w = 0x20 ∨ opField w ∈ countedOps ∨ opField w ∈ plainOps) ∧
          (opField w ≠ 0x20 → selField w = 0) ∧ (opField w ∉ countedOps → nField w = 0) := by
      unfold IllegalForm
      tauto
    _ ↔ ∃ r ∈ opcodeMap, r.Admits w := by
      rw [← assigned_iff]
      exact ⟨fun ⟨⟨r, hr, hop⟩, hzeros⟩ => ⟨r, hr, (admits_iff hr w).mpr ⟨hop, hzeros⟩⟩,
        fun ⟨r, hr, hadmits⟩ =>
          have ⟨hop, hzeros⟩ := (admits_iff hr w).mp hadmits
          ⟨⟨r, hr, hop⟩, hzeros⟩⟩

end Sys2Proof

namespace Sys2Proof.Machine

/-! ### A step that takes a command word (R80, R84) -/

theorem step_write_cmd_ok {s : State} {w : Word} {i : Instr} {rest : List BusEvent}
    (hp : s.pending = .write s.params.base 4 w :: rest) (hi : decode w = .ok i) :
    step s = exec i { s with pending := rest, cmd := w } := by
  rw [step_write_cmd hp, runWord, hi]
  rfl

theorem step_write_cmd_error {s : State} {w : Word} {e : IllegalWord} {rest : List BusEvent}
    (hp : s.pending = .write s.params.base 4 w :: rest) (he : decode w = .error e) :
    step s = .next { s with pending := rest, cmd := w, code := .illegalOp } := by
  rw [step_write_cmd hp, runWord, he]
  rfl

/-- Settles O5: no row admits an illegal word, and one admits every other. -/
theorem illegalWordsSetIllegalOp : Obligations.IllegalWordsSetIllegalOp := by
  intro s w rest hp counted plain illegal
  refine ⟨fun hillegal => ?_, fun hlegal => ?_, rfl⟩
  · have hnone : ¬ ∃ r ∈ opcodeMap, r.Admits w := fun h => (not_illegalForm_iff w).mpr h hillegal
    obtain ⟨e, he⟩ := decode_error fun r hr hadmits => hnone ⟨r, hr, hadmits⟩
    exact step_write_cmd_error hp he
  · obtain ⟨r, hr, hadmits⟩ := (not_illegalForm_iff w).mp hlegal
    have hi := decode_eq_ok_iff.mpr ⟨r, hr, hadmits, rfl⟩
    exact ⟨_, hi, step_write_cmd_ok hp hi⟩

/-- `withFetchWord` puts a write of the word itself to CMD before what is pending. -/
theorem withFetchWord_pending (s : State) (w : Word) :
    (s.withFetchWord 32 w.toNat).pending =
      .write (s.withFetchWord 32 w.toNat).params.base 4 w :: s.pending := by
  simp [State.withFetchWord, regOffset, Nat.mod_eq_of_lt w.isLt]

/-- Settles O6: the word that `withFetchWord` places decodes to the command it encodes. -/
theorem stepRunsDecodedCommand : Obligations.StepRunsDecodedCommand :=
  ⟨fun _ _ _ _ => step_write_cmd_ok, fun s i hi =>
    step_write_cmd_ok (withFetchWord_pending s (encode i)) (decodeOfEncode i hi)⟩

end Sys2Proof.Machine

/-! ## How commands end

Every command ends in a next state (`exec_endsIn`). Here are the codes it can end in, by the way its
meaning is written: it raises a code, it finishes with one, or it ends by `endWith` (R11, R221). -/

namespace Sys2Proof.Machine

theorem codeByte_lt (c : StatusCode) : codeByte c < 0x0F := by
  cases c <;> decide

/-- Settles O22: every command has an effect, and every status code is below 0x0F. -/
theorem everyCommandCompletes : Obligations.EveryCommandCompletes := by
  intro i s
  obtain ⟨t, ht, -⟩ := exec_endsIn i s
  exact ⟨t, ht, codeByte_lt t.code⟩

/-- What R221 says of the outcome of a command that started in `s` and may end in these codes: it has
ended in one of them, and one of the error class means that nothing else has changed. -/
def EndsAmong (codes : List StatusCode) (s : State) (o : Outcome) : Prop :=
  ∃ t, o = .next t ∧ t.code ∈ codes ∧ (isErrorClass t.code = true → t = s.setCode t.code)

theorem EndsAmong.raise {codes : List StatusCode} {s : State} {c : StatusCode} (hc : c ∈ codes) :
    EndsAmong codes s (raise c s) :=
  ⟨s.setCode c, rfl, hc, fun _ => rfl⟩

theorem EndsAmong.finish {codes : List StatusCode} {s t : State} {c : StatusCode} (hc : c ∈ codes)
    (hclass : isErrorClass c = false) : EndsAmong codes s (finish c t) :=
  ⟨t.setCode c, rfl, hc, fun h => absurd (h.symm.trans hclass) (by decide)⟩

/-- A command that ends by `endWith` ends in OK or in a code that its rule raises. -/
theorem EndsAmong.endWith {raised : List StatusCode} {s : State} {r : Except StatusCode State}
    (h : ∀ c, r = .error c → c ∈ raised) : EndsAmong (.ok :: raised) s (endWith s r) := by
  cases r with
  | error c => exact .raise (List.mem_cons_of_mem _ (h c rfl))
  | ok t => exact .finish List.mem_cons_self rfl

/-- What follows a check raises nothing more. -/
theorem EndsAmong.endWith_map {α : Type} {raised : List StatusCode} {s : State}
    {r : Except StatusCode α} {f : α → State} (h : ∀ c, r = .error c → c ∈ raised) :
    EndsAmong (.ok :: raised) s (Machine.endWith s (r.map f)) := by
  cases r with
  | error c => exact .raise (List.mem_cons_of_mem _ (h c rfl))
  | ok a => exact .finish List.mem_cons_self rfl

/-! ### The framer and the receive engine -/

theorem execCrc16_endsAmong (n : Nat) (s : State) :
    EndsAmong [.ok, .badArg] s (execCrc16 n s) := by
  simp only [execCrc16]
  split
  · exact .raise (by decide)
  · exact .finish (by decide) rfl

/-- The codes BuildFrame can raise (R112). -/
theorem buildFrame_error {ty : Byte} {payload : List Byte} {n : Nat} {s : State} {c : StatusCode}
    (h : buildFrame ty payload n s = .error c) : c ∈ [StatusCode.bufferTooSmall, .badArg] := by
  rcases buildFrame_cases ty payload n s with ⟨-, he⟩ | ⟨-, -, he⟩ | ⟨-, -, he⟩ <;>
    rw [he] at h <;> cases h <;> decide

/-- The codes the checks of a PARSE_* command can raise (R120, R121). -/
theorem parseFbuf_error {k : Kind} {n : Nat} {s : State} {c : StatusCode}
    (h : parseFbuf k n s = .error c) :
    c ∈ [StatusCode.insufficientData, .invalidPrefix, .invalidVersion, .invalidType,
      .invalidPayloadLength, .crcMismatch, .badArg] := by
  unfold parseFbuf at h
  split at h
  · cases h
    decide
  · cases hp : parseCore s.params (s.fbuf.slice 0 n) (some k) with
    | error e =>
      rw [hp] at h
      cases h
      rcases parseCore_error hp with rfl | rfl | rfl | rfl | rfl | rfl <;> decide
    | ok accepted => rw [hp] at h; cases h

theorem execFindStart_endsAmong (n : Nat) (s : State) :
    EndsAmong [.ok, .notFound, .badArg] s (execFindStart n s) := by
  unfold execFindStart
  split
  · exact .raise (by decide)
  · split
    · exact .raise (by decide)
    · exact .finish (by decide) rfl

theorem execRxPush_endsAmong (b : Byte) (s : State) :
    EndsAmong [.ok, .rxFull] s (execRxPush b s) := by
  unfold execRxPush
  split
  · exact .raise (by decide)
  · exact .finish (by decide) rfl

theorem execRxPoll_endsAmong (s : State) : EndsAmong [.ok, .noFrame] s (execRxPoll s) := by
  unfold execRxPoll
  split <;> exact .finish (by decide) rfl

/-! ### The filter and the controller -/

theorem execIirSetparams_endsAmong (s : State) :
    EndsAmong [.ok, .paramRejected] s (execIirSetparams s) := by
  unfold execIirSetparams
  split <;> exact .finish (by decide) rfl

theorem execPidSetGains_endsAmong (s : State) :
    EndsAmong [.ok, .badArg] s (execPidSetGains s) := by
  unfold execPidSetGains
  split
  · exact .finish (by decide) rfl
  · exact .raise (by decide)

theorem execPidSetLimits_endsAmong (s : State) :
    EndsAmong [.ok, .badArg] s (execPidSetLimits s) := by
  unfold execPidSetLimits
  split
  · exact .raise (by decide)
  · exact .finish (by decide) rfl

theorem execPidStep_endsAmong (s : State) : EndsAmong [.ok, .dtIgnored] s (execPidStep s) := by
  unfold execPidStep
  dsimp only
  split <;> exact .finish (by decide) rfl

/-! ### Every command -/

/-- Every command ends in a code of its row of R221. -/
theorem exec_endsAmong (i : Instr) (s : State) : EndsAmong (endCodes i) s (exec i s) := by
  cases i with
  | nop => exact .finish List.mem_cons_self rfl
  | crc16 n => exact execCrc16_endsAmong n s
  | buildCmd n => exact .endWith_map fun _ => buildFrame_error
  | buildTlm n => exact .endWith fun _ => buildFrame_error
  | buildPing n => exact .endWith fun _ => buildFrame_error
  | buildPong n => exact .endWith fun _ => buildFrame_error
  | buildLog n => exact .endWith fun _ => buildFrame_error
  | parseCmd n => exact .endWith_map fun _ => parseFbuf_error
  | parseTlm n => exact .endWith_map fun _ => parseFbuf_error
  | parsePing n => exact .endWith_map fun _ => parseFbuf_error
  | parsePong n => exact .endWith_map fun _ => parseFbuf_error
  | parseLog n => exact .endWith_map fun _ => parseFbuf_error
  | findStart n => exact execFindStart_endsAmong n s
  | rxPush b => exact execRxPush_endsAmong b s
  | rxPoll => exact execRxPoll_endsAmong s
  | iirSetparams => exact execIirSetparams_endsAmong s
  | iirStep => exact .finish List.mem_cons_self rfl
  | iirReset => exact .finish List.mem_cons_self rfl
  | pidSetGains => exact execPidSetGains_endsAmong s
  | pidSetLimits => exact execPidSetLimits_endsAmong s
  | pidStep => exact execPidStep_endsAmong s
  | pidReset => exact .finish List.mem_cons_self rfl

/-- Settles O23: the table of R221, and the code each command ends in. -/
theorem commandsEndInListedCodes : Obligations.CommandsEndInListedCodes := by
  refine ⟨by decide, fun i s t h => ?_⟩
  obtain ⟨u, hu, hcode, hclass⟩ := exec_endsAmong i s
  rw [h] at hu
  cases hu
  exact ⟨hcode, hclass⟩

end Sys2Proof.Machine

/-! ## The units of the block

What a command may read and write is a `Footprint`. A command keeps to one when, run on the state with
everything blanked that the footprint does not read, it makes the same writes, and it writes nothing
else (R103). -/

namespace Sys2Proof.Machine

/-- The part of the state that a command may read, and the part that it may write. -/
structure Footprint where
  /-- The state with every field blanked that the command does not read. -/
  reads : State → State
  /-- `writes s t` is `s` with the written fields as they stand in `t`. -/
  writes : State → State → State
  writes_writes : ∀ a b t, writes a (writes b t) = writes a t

/-- The command ends, has changed only what the footprint writes, and what it has written there depends
only on what the footprint reads. -/
def Footprint.Confines (F : Footprint) (run : State → Outcome) : Prop :=
  ∀ s, ∃ t, run s = .next t ∧ t = F.writes s t ∧
    run (F.reads s) = .next (F.writes (F.reads s) t)

/-- `F` reads what `G` reads, and what `F` writes is part of what `G` writes. -/
structure Footprint.Within (F G : Footprint) : Prop where
  reads : ∀ s, F.reads s = G.reads s
  writes : ∀ s t, F.writes s t = G.writes s (F.writes s t)
  writes_reads : ∀ s t, F.writes (F.reads s) t = G.writes (G.reads s) (F.writes s t)

section Confined

variable {F G : Footprint} {run : State → Outcome} (h : F.Confines run)
include h

theorem Footprint.Confines.widen (hFG : F.Within G) : G.Confines run := by
  intro s
  obtain ⟨t, ht, hframe, hreads⟩ := h s
  refine ⟨t, ht, ?_, ?_⟩
  · rw [hframe]
    exact hFG.writes s t
  · rw [hFG.writes_reads, ← hframe, hFG.reads] at hreads
    exact hreads

theorem Footprint.Confines.frame {s t : State} (ht : run s = .next t) : t = F.writes s t := by
  obtain ⟨u, hu, hframe, -⟩ := h s
  rw [ht] at hu
  cases hu
  exact hframe

/-- Two states that agree on what is read get the same writes. -/
theorem Footprint.Confines.congr {s s' t : State} (hagree : F.reads s' = F.reads s)
    (ht : run s = .next t) : run s' = .next (F.writes s' t) := by
  obtain ⟨u, hu, -, hreads⟩ := h s
  obtain ⟨u', hu', hframe', hreads'⟩ := h s'
  rw [ht] at hu
  cases hu
  rw [hagree, hreads] at hreads'
  have hsame : F.writes (F.reads s) t = F.writes (F.reads s) u' := Host.Outcome.next.inj hreads'
  calc run s'
    _ = .next (F.writes s' u') := hu'.trans (congrArg _ hframe')
    _ = .next (F.writes s' t) := by
      rw [← F.writes_writes s' (F.reads s) u', ← hsame, F.writes_writes]

end Confined

/-! ### The footprints -/

/-- NOP reads nothing and writes STATUS.CODE (R100). -/
def controlFootprint : Footprint where
  reads _ := .reset
  writes s t := { s with code := t.code }
  writes_writes _ _ _ := rfl

/-- The state as far as the framer reads it. -/
def framerReads (s : State) : State :=
  { State.resetWith s.params with
    arg := s.arg, res := s.res, cmdSeq := s.cmdSeq, rx := s.rx, fbuf := s.fbuf, pbuf := s.pbuf }

/-- All that a framer command may write: BUILD_* and RX_POLL. -/
def framerFootprint : Footprint where
  reads := framerReads
  writes s t :=
    { s with fbuf := t.fbuf, rx := t.rx, cmdSeq := t.cmdSeq, res := t.res, code := t.code }
  writes_writes _ _ _ := rfl

/-- A framer command that only answers in RES: CRC16, PARSE_* and FIND_START. -/
def framerResultFootprint : Footprint where
  reads := framerReads
  writes s t := { s with res := t.res, code := t.code }
  writes_writes _ _ _ := rfl

/-- RX_PUSH. -/
def pushFootprint : Footprint where
  reads := framerReads
  writes s t := { s with rx := t.rx, code := t.code }
  writes_writes _ _ _ := rfl

/-- IIR_*. -/
def filterFootprint : Footprint where
  reads s := { State.reset with arg := s.arg, res := s.res, iir := s.iir }
  writes s t := { s with iir := t.iir, res := t.res, code := t.code }
  writes_writes _ _ _ := rfl

/-- PID_*. -/
def controllerFootprint : Footprint where
  reads s := { State.reset with arg := s.arg, res := s.res, pid := s.pid }
  writes s t := { s with pid := t.pid, res := t.res, code := t.code }
  writes_writes _ _ _ := rfl

/-- The footprint of each command. -/
def footprint : Instr → Footprint
  | .nop => controlFootprint
  | .buildCmd _ | .buildTlm _ | .buildPing _ | .buildPong _ | .buildLog _ | .rxPoll => framerFootprint
  | .crc16 _ | .parseCmd _ | .parseTlm _ | .parsePing _ | .parsePong _ | .parseLog _
  | .findStart _ => framerResultFootprint
  | .rxPush _ => pushFootprint
  | .iirSetparams | .iirStep | .iirReset => filterFootprint
  | .pidSetGains | .pidSetLimits | .pidStep | .pidReset => controllerFootprint

/-- The footprint of each unit. -/
def unitFootprint : BlockUnit → Footprint
  | .control => controlFootprint
  | .framer => framerFootprint
  | .filter => filterFootprint
  | .controller => controllerFootprint

theorem footprint_within_unit (i : Instr) : (footprint i).Within (unitFootprint (unitOf i)) := by
  cases i <;> exact ⟨fun _ => rfl, fun _ _ => rfl, fun _ _ => rfl⟩

/-- Only BUILD_* and RX_POLL have FBUF in their footprint. -/
theorem footprint_writes_fbuf {i : Instr} (hi : writesFbuf i = false) (s t : State) :
    ((footprint i).writes s t).fbuf = s.fbuf := by
  cases i
  case buildCmd | buildTlm | buildPing | buildPong | buildLog | rxPoll => cases hi
  all_goals rfl

/-- A branch on what is read. -/
theorem Footprint.Confines.ite {F : Footprint} {c : State → Prop} [DecidablePred c]
    {run₁ run₂ : State → Outcome} (hc : ∀ s, c (F.reads s) ↔ c s) (h₁ : F.Confines run₁)
    (h₂ : F.Confines run₂) : F.Confines fun s => if c s then run₁ s else run₂ s := by
  intro s
  simp only [hc]
  split
  · exact h₁ s
  · exact h₂ s

/-! ### The framer and the receive engine -/

theorem execCrc16_confined (n : Nat) : framerResultFootprint.Confines (execCrc16 n) :=
  .ite (fun _ => .rfl) (fun _ => ⟨_, rfl, rfl, rfl⟩) (fun _ => ⟨_, rfl, rfl, rfl⟩)

/-- BuildFrame reads the framer's part of the state only. -/
theorem buildFrame_framerReads (ty : Byte) (payload : List Byte) (n : Nat) (s : State) :
    buildFrame ty payload n (framerReads s) = (buildFrame ty payload n s).map framerReads := by
  unfold buildFrame
  split
  · rfl
  · split <;> rfl

/-- A BUILD_* command: a rule that reads the framer's part of the state, and either raises a code or
leaves FBUF, RES and CMD_SEQ written. -/
theorem confines_build {rule : State → Except StatusCode State}
    (hreads : ∀ s, rule (framerReads s) = (rule s).map framerReads)
    (hok : ∀ s t, rule s = .ok t → ∃ m r seq, t = ((s.setFbuf m).setRes r).setCmdSeq seq) :
    framerFootprint.Confines fun s => endWith s (rule s) := by
  intro s
  have hrun : endWith (framerReads s) (rule (framerReads s)) =
      endWith (framerReads s) ((rule s).map framerReads) := congrArg _ (hreads s)
  cases hr : rule s with
  | error c =>
    rw [hr] at hrun
    exact ⟨_, congrArg (endWith s) hr, rfl, hrun⟩
  | ok t =>
    rw [hr] at hrun
    obtain ⟨m, r, seq, rfl⟩ := hok s t hr
    exact ⟨_, congrArg (endWith s) hr, rfl, hrun⟩

theorem exists_of_map_eq_ok {r : Except StatusCode State} {f : State → State} {t : State}
    (h : r.map f = .ok t) : ∃ u, r = .ok u ∧ f u = t := by
  cases r with
  | error c => cases h
  | ok u => exact ⟨u, rfl, Except.ok.inj h⟩

theorem map_map_comm {r : Except StatusCode State} {f g : State → State}
    (h : ∀ t, f (g t) = g (f t)) : (r.map g).map f = (r.map f).map g := by
  cases r with
  | error c => rfl
  | ok t => exact congrArg Except.ok (h t)

theorem execBuildCmd_confined (n : Nat) : framerFootprint.Confines (execBuildCmd n) := by
  refine confines_build (fun s => ?_) fun s t ht => ?_
  · exact (congrArg _ (buildFrame_framerReads _ _ n s)).trans (map_map_comm fun _ => rfl)
  · obtain ⟨u, hu, rfl⟩ := exists_of_map_eq_ok ht
    obtain ⟨frame, r, -, rfl⟩ := buildFrame_ok hu
    exact ⟨_, r, _, rfl⟩

/-- A BUILD_* command that does no more than BuildFrame. -/
theorem confines_buildFrame (n : Nat) {ty : State → Byte} {payload : State → List Byte}
    (hty : ∀ s, ty (framerReads s) = ty s) (hpayload : ∀ s, payload (framerReads s) = payload s) :
    framerFootprint.Confines fun s => endWith s (buildFrame (ty s) (payload s) n s) := by
  refine confines_build (fun s => ?_) fun s t ht => ?_
  · rw [hty, hpayload]
    exact buildFrame_framerReads _ _ n s
  · obtain ⟨frame, r, -, rfl⟩ := buildFrame_ok ht
    exact ⟨s.fbuf.writeBytes 0 frame, r, s.cmdSeq, rfl⟩

/-- A PARSE_* command, whose results are read off the framer's part of the state. -/
theorem confines_parse {k : Kind} {n : Nat} {results : State → Nat → Quad}
    (hresults : ∀ s, results (framerReads s) = results s) :
    framerResultFootprint.Confines fun s =>
      endWith s ((parseFbuf k n s).map fun len => s.setRes (results s len)) := by
  intro s
  have hcheck : parseFbuf k n (framerResultFootprint.reads s) = parseFbuf k n s := rfl
  have hres : results (framerResultFootprint.reads s) = results s := hresults s
  simp only [hcheck, hres]
  cases parseFbuf k n s <;> exact ⟨_, rfl, rfl, rfl⟩

theorem execFindStart_confined (n : Nat) : framerResultFootprint.Confines (execFindStart n) := by
  refine .ite (fun _ => .rfl) (fun _ => ⟨_, rfl, rfl, rfl⟩) fun s => ?_
  have hfind : findPrefix (framerResultFootprint.reads s).params
      ((framerResultFootprint.reads s).fbuf.slice 0 n) =
        findPrefix s.params (s.fbuf.slice 0 n) := rfl
  simp only [hfind]
  cases findPrefix s.params (s.fbuf.slice 0 n) <;> exact ⟨_, rfl, rfl, rfl⟩

theorem execRxPush_confined (b : Byte) : pushFootprint.Confines (execRxPush b) :=
  .ite (fun _ => .rfl) (fun _ => ⟨_, rfl, rfl, rfl⟩) (fun _ => ⟨_, rfl, rfl, rfl⟩)

theorem execRxPoll_confined : framerFootprint.Confines execRxPoll := by
  intro s
  have hpoll : pollEnd (framerFootprint.reads s) = pollEnd s := rfl
  unfold execRxPoll
  rw [hpoll]
  cases (pollEnd s).frame <;> exact ⟨_, rfl, rfl, rfl⟩

/-! ### The filter and the controller -/

theorem execIirSetparams_confined : filterFootprint.Confines execIirSetparams :=
  .ite (fun _ => .rfl) (fun _ => ⟨_, rfl, rfl, rfl⟩) (fun _ => ⟨_, rfl, rfl, rfl⟩)

theorem execPidSetGains_confined : controllerFootprint.Confines execPidSetGains :=
  .ite (fun _ => .rfl) (fun _ => ⟨_, rfl, rfl, rfl⟩) (fun _ => ⟨_, rfl, rfl, rfl⟩)

theorem execPidSetLimits_confined : controllerFootprint.Confines execPidSetLimits :=
  .ite (fun _ => .rfl) (fun _ => ⟨_, rfl, rfl, rfl⟩) (fun _ => ⟨_, rfl, rfl, rfl⟩)

theorem execPidStep_confined : controllerFootprint.Confines execPidStep :=
  .ite (fun _ => .rfl) (fun _ => ⟨_, rfl, rfl, rfl⟩) (fun _ => ⟨_, rfl, rfl, rfl⟩)

/-! ### Every command -/

/-- Every command keeps to its footprint. -/
theorem exec_confined (i : Instr) : (footprint i).Confines (exec i) := by
  cases i with
  | nop => exact fun _ => ⟨_, rfl, rfl, rfl⟩
  | crc16 n => exact execCrc16_confined n
  | buildCmd n => exact execBuildCmd_confined n
  | buildTlm n => exact confines_buildFrame n (fun _ => rfl) fun _ => rfl
  | buildPing n => exact confines_buildFrame n (fun _ => rfl) fun _ => rfl
  | buildPong n => exact confines_buildFrame n (fun _ => rfl) fun _ => rfl
  | buildLog n => exact confines_buildFrame n (fun _ => rfl) fun _ => rfl
  | parseCmd n => exact confines_parse fun _ => rfl
  | parseTlm n => exact confines_parse fun _ => rfl
  | parsePing n => exact confines_parse (results := fun s _ => s.res) fun _ => rfl
  | parsePong n => exact confines_parse (results := fun s _ => s.res) fun _ => rfl
  | parseLog n =>
    exact confines_parse (results := fun s len => { s.res with w0 := BitVec.ofNat 32 len }) fun _ => rfl
  | findStart n => exact execFindStart_confined n
  | rxPush b => exact execRxPush_confined b
  | rxPoll => exact execRxPoll_confined
  | iirSetparams => exact execIirSetparams_confined
  | iirStep => exact fun _ => ⟨_, rfl, rfl, rfl⟩
  | iirReset => exact fun _ => ⟨_, rfl, rfl, rfl⟩
  | pidSetGains => exact execPidSetGains_confined
  | pidSetLimits => exact execPidSetLimits_confined
  | pidStep => exact execPidStep_confined
  | pidReset => exact fun _ => ⟨_, rfl, rfl, rfl⟩

/-- Every command keeps to its unit's footprint. -/
theorem exec_confined_to {i : Instr} {u : BlockUnit} (hu : unitOf i = u) :
    (unitFootprint u).Confines (exec i) :=
  hu ▸ (exec_confined i).widen (footprint_within_unit i)

/-- Settles O24: a command keeps to its unit's footprint, and its own holds FBUF only where the
statement says so. -/
theorem unitsAreIndependent : Obligations.UnitsAreIndependent := by
  intro i s t s' h
  refine ⟨fun hu => ?_, fun hu => ?_, fun hu => ?_, fun hu => ?_, fun hw a => ?_⟩
  · have hunit := exec_confined_to hu
    exact ⟨hunit.frame h, hunit.congr (s := s) rfl h⟩
  · have hunit := exec_confined_to hu
    refine ⟨hunit.frame h, fun hparams harg hres hseq hrx hfbuf hpbuf => hunit.congr ?_ h⟩
    simp only [unitFootprint, framerFootprint, framerReads, hparams, harg, hres, hseq, hrx, hfbuf,
      hpbuf]
  · have hunit := exec_confined_to hu
    refine ⟨hunit.frame h, fun harg hres hiir => hunit.congr ?_ h⟩
    simp only [unitFootprint, filterFootprint, harg, hres, hiir]
  · have hunit := exec_confined_to hu
    refine ⟨hunit.frame h, fun harg hres hpid => hunit.congr ?_ h⟩
    simp only [unitFootprint, controllerFootprint, harg, hres, hpid]
  · rw [(exec_confined i).frame h, footprint_writes_fbuf hw]

end Sys2Proof.Machine

/-! ## NOP (R100) -/

namespace Sys2Proof.Machine

/-- NOP's opcode is no other command's (R83). -/
theorem opcodeOf_eq_zero_iff (i : Instr) : opcodeOf i = 0x00 ↔ i = .nop := by
  cases i <;> simp [opcodeOf]

theorem opcodeOf_of_decode {w : Word} {i : Instr} (h : decode w = .ok i) : opcodeOf i = opField w := by
  obtain ⟨-, hw⟩ := encodeOfDecode w i h
  rw [← hw, encode_eq_wordOf, opField_wordOf]

theorem encode_nop : encode .nop = 0 := rfl

/-- Settles O25: a word with OP 0x00 that decodes is NOP's own. -/
theorem nopSetsOkOnly : Obligations.NopSetsOkOnly := by
  refine ⟨decodeOfEncode .nop rfl, fun w hop hne i hi => hne ?_, fun _ => rfl, rfl,
    fun _ => encode_nop.symm⟩
  obtain rfl := (opcodeOf_eq_zero_iff i).mp ((opcodeOf_of_decode hi).trans hop)
  exact (encodeOfDecode w _ hi).2.symm.trans encode_nop

end Sys2Proof.Machine

/-! ## Words with a count, and the bytes of halves and words

What the statements about the framer's commands share: the word that decodes to a command with a
count (R81, R86), and how a half and a word are made of their bytes (R64, R66, R122). -/

namespace Sys2Proof

/-- Only RX_PUSH has a SEL, and it has no count (R83). -/
theorem selOf_of_count {i : Instr} {n : Nat} (hcount : i.count = some n) : selOf i = 0 := by
  cases i with
  | rxPush b => cases hcount
  | _ => rfl

/-- A command with a count decodes from `OP | (N << 16)` (R86). -/
theorem decode_countWord {i : Instr} {n : Nat} (hcount : i.count = some n) (hn : n < 2 ^ 16) :
    decode (BitVec.ofNat 32 ((opcodeOf i).toNat + n * 2 ^ 16)) = .ok i := by
  have hwf : i.WellFormed := by simpa [Instr.WellFormed, hcount] using hn
  have hword : encode i = BitVec.ofNat 32 ((opcodeOf i).toNat + n * 2 ^ 16) := by
    rw [encode_eq_wordOf, selOf_of_count hcount]
    refine BitVec.eq_of_toNat_eq ?_
    have hop : (opcodeOf i).toNat < 2 ^ 8 := (opcodeOf i).isLt
    have hnOf : (nOf i).toNat = n := by rw [toNat_nOf hwf, hcount]; rfl
    rw [wordOf, BitVec.toNat_append, ← Nat.shiftLeft_add_eq_or_of_lt (BitVec.isLt _),
      BitVec.toNat_append, ← Nat.shiftLeft_add_eq_or_of_lt hop, hnOf, BitVec.toNat_ofNat,
      Nat.shiftLeft_eq, show (0 : Byte).toNat = 0 from rfl]
    omega
  rw [← hword]
  exact decodeOfEncode i hwf

end Sys2Proof

namespace Sys2Proof.Machine

theorem toNat_u16Of (lo hi : Byte) : (u16Of lo hi).toNat = lo.toNat + 256 * hi.toNat := by
  rw [u16Of, BitVec.toNat_append, ← Nat.shiftLeft_add_eq_or_of_lt lo.isLt, Nat.shiftLeft_eq]
  omega

/-- A half is its two bytes (R66). -/
theorem u16Of_eq_iff (lo hi : Byte) (v : Half) :
    u16Of lo hi = v ↔ lo = v.extractLsb' 0 8 ∧ hi = v.extractLsb' 8 8 := by
  refine ⟨fun h => u16Of_inj (h.trans (u16Of_bytes v).symm), fun ⟨hlo, hhi⟩ => ?_⟩
  rw [hlo, hhi, u16Of_bytes]

/-- The bytes of a length field (R110). -/
theorem toNat_u16Of_eq_iff {lo hi : Byte} {len : Nat} (h : len < 2 ^ 16) :
    (u16Of lo hi).toNat = len ↔ lo = BitVec.ofNat 8 len ∧ hi = BitVec.ofNat 8 (len / 256) := by
  have hlo : lo.toNat < 256 := lo.isLt
  have hhi : hi.toNat < 256 := hi.isLt
  rw [toNat_u16Of, BitVec.toNat_eq, BitVec.toNat_eq, BitVec.toNat_ofNat, BitVec.toNat_ofNat]
  omega

/-- A field of a field is a field. -/
theorem extractLsb'_of_extractLsb' (w : Word) {start len k size : Nat} (h : k + size ≤ len) :
    (w.extractLsb' start len).extractLsb' k size = w.extractLsb' (start + k) size :=
  BitVec.eq_of_getLsbD_eq fun j hj => by
    simp only [BitVec.getLsbD_extractLsb', hj, show k + j < len by omega, decide_true,
      Bool.true_and, Nat.add_assoc]

theorem le16_loHalf (w : Word) : le16 (loHalf w) = [w.extractLsb' 0 8, w.extractLsb' 8 8] := by
  rw [le16, loHalf, extractLsb'_of_extractLsb' w (by decide),
    extractLsb'_of_extractLsb' w (by decide)]

theorem le16_hiHalf (w : Word) : le16 (hiHalf w) = [w.extractLsb' 16 8, w.extractLsb' 24 8] := by
  rw [le16, hiHalf, extractLsb'_of_extractLsb' w (by decide),
    extractLsb'_of_extractLsb' w (by decide)]

/-- Two packed halves are their four bytes (R122). -/
theorem packHalves_u16Of (a b c d : Byte) :
    packHalves (u16Of a b) (u16Of c d) = packWord a b c d :=
  BitVec.append_assoc

theorem setWidth_eq_u16Of (b : Byte) : b.setWidth 16 = u16Of b 0 :=
  BitVec.setWidth_eq_append (by decide)

/-- A word is its four bytes (R64). -/
theorem packWord_bytes (w : Word) :
    packWord (w.extractLsb' 0 8) (w.extractLsb' 8 8) (w.extractLsb' 16 8) (w.extractLsb' 24 8) =
      w :=
  calc packWord (w.extractLsb' 0 8) (w.extractLsb' 8 8) (w.extractLsb' 16 8) (w.extractLsb' 24 8)
    _ = w.extractLsb' 24 8 ++ (w.extractLsb' 16 8 ++ w.extractLsb' 0 16) :=
      congrArg (fun v => w.extractLsb' 24 8 ++ (w.extractLsb' 16 8 ++ v))
        (BitVec.extractLsb'_append_extractLsb'_eq_extractLsb' rfl)
    _ = w.extractLsb' 24 8 ++ w.extractLsb' 0 24 :=
      congrArg (w.extractLsb' 24 8 ++ ·) (BitVec.extractLsb'_append_extractLsb'_eq_extractLsb' rfl)
    _ = w.extractLsb' 0 32 := BitVec.extractLsb'_append_extractLsb'_eq_extractLsb' rfl
    _ = w := BitVec.extractLsb'_eq_self

end Sys2Proof.Machine

/-! ## CRC16 and FIND_START (R114, R126) -/

namespace Sys2Proof.Machine

/-- Settles O26: the two sides of CRC16's check of its span. -/
theorem crc16ResultOrBadArg : Obligations.Crc16ResultOrBadArg := by
  intro n s hn
  exact ⟨decode_countWord (i := .crc16 n) rfl hn, fun hfits => if_neg (Nat.not_lt.mpr hfits),
    fun hpast => if_pos hpast⟩

theorem firstPrefixAt_unique {p : Params} {b : List Byte} {i j : Nat} (hi : FirstPrefixAt p b i)
    (hj : FirstPrefixAt p b j) : i = j :=
  le_antisymm (Nat.le_of_not_lt fun h => hi.2 j h hj.1) (Nat.le_of_not_lt fun h => hj.2 i h hi.1)

theorem firstPrefixAt_of_findPrefix {p : Params} {b : List Byte} {i : Nat}
    (h : findPrefix p b = some i) : FirstPrefixAt p b i := by
  obtain ⟨hin, h0, h1, hfirst⟩ := findPrefix_some h
  exact ⟨⟨hin, h0, h1⟩, fun j hj hp => hfirst j hj hp.2⟩

theorem findPrefix_eq_none_iff {p : Params} {b : List Byte} :
    findPrefix p b = none ↔ ∀ i, ¬ PrefixAt p b i := by
  refine ⟨fun h i hp => findPrefix_none h i hp.1 hp.2, fun h => ?_⟩
  cases hf : findPrefix p b with
  | none => rfl
  | some i => exact absurd (firstPrefixAt_of_findPrefix hf).1 (h i)

theorem findPrefix_eq_some_iff {p : Params} {b : List Byte} {i : Nat} :
    findPrefix p b = some i ↔ FirstPrefixAt p b i := by
  refine ⟨firstPrefixAt_of_findPrefix, fun h => ?_⟩
  cases hf : findPrefix p b with
  | none => exact absurd h.1 (findPrefix_eq_none_iff.mp hf i)
  | some j => rw [firstPrefixAt_unique (firstPrefixAt_of_findPrefix hf) h]

/-- Settles O38: `findPrefix` finds R126's smallest index, or none. -/
theorem findStartReturnsFirstPrefix : Obligations.FindStartReturnsFirstPrefix := by
  intro n s hn
  refine ⟨decode_countWord (i := .findStart n) rfl hn, fun i hle hfirst => ?_, fun hle hnone => ?_,
    fun hlarge => if_pos hlarge⟩
  · have hsize : ¬ n > Config.fbufSize := Nat.not_lt.mpr hle
    have hfind := findPrefix_eq_some_iff.mpr hfirst
    simp only [exec, execFindStart, if_neg hsize, hfind]
    rfl
  · have hsize : ¬ n > Config.fbufSize := Nat.not_lt.mpr hle
    have hfind := findPrefix_eq_none_iff.mpr hnone
    simp only [exec, execFindStart, if_neg hsize, hfind]
    rfl

end Sys2Proof.Machine

/-! ## BUILD_*

BuildFrame (R112) puts R110's frame at the front of FBUF. That it does is said once, in the terms of
`HoldsFrame`; each BUILD_* command is BuildFrame with its own type and payload. -/

namespace Sys2Proof.Machine

/-! ### Slices of a buffer -/

theorem Memory.slice_zero (m : Memory) (n : Nat) : m.slice 0 n = (List.range n).map m.read := by
  simp [Memory.slice]

theorem Memory.slice_add (m : Memory) (a n k : Nat) :
    m.slice a (n + k) = m.slice a n ++ m.slice (a + n) k := by
  simp only [Memory.slice, List.range_add, List.map_append, List.map_map, Function.comp_def,
    Nat.add_assoc]

theorem Memory.byteAt_slice_zero (m : Memory) {n i : Nat} (h : i < n) :
    byteAt (m.slice 0 n) i = m.read i :=
  (m.getD_slice 0 n i h).trans (by rw [Nat.zero_add])

/-- The bytes of a buffer that reads as a sequence. -/
theorem Memory.slice_eq_of_read {m : Memory} {a : Nat} {b : List Byte}
    (h : ∀ i < b.length, m.read (a + i) = byteAt b i) : m.slice a b.length = b := by
  refine List.ext_getElem (m.length_slice a b.length) fun i hi hb => ?_
  rw [← List.getD_eq_getElem _ 0 hi, ← List.getD_eq_getElem _ 0 hb, m.getD_slice a _ i hb]
  exact h i hb

/-! ### The frame in FBUF -/

/-- R110's frame, byte by byte. -/
theorem frameBytes_eq (p : Params) (t : Byte) (payload : List Byte) :
    frameBytes p t payload =
      p.sync0 :: p.sync1 :: p.version :: t ::
        (BitVec.ofNat 16 payload.length).extractLsb' 0 8 ::
        (BitVec.ofNat 16 payload.length).extractLsb' 8 8 ::
        (payload ++ le16 (crc16 (crcSpan p t payload))) := rfl

theorem byteAt_append_left {a b : List Byte} {i : Nat} (h : i < a.length) :
    byteAt (a ++ b) i = byteAt a i :=
  List.getD_append _ _ _ _ h

theorem byteAt_append_right (a b : List Byte) (i : Nat) :
    byteAt (a ++ b) (a.length + i) = byteAt b i :=
  (List.getD_append_right _ _ _ _ (Nat.le_add_right _ _)).trans
    (by rw [Nat.add_sub_cancel_left]; rfl)

/-- A buffer that reads as `frameBytes` holds the frame: the two ways of writing R110's table
agree. -/
theorem holdsFrame_of_read {p : Params} {m : Memory} {t : Byte} {payload : List Byte}
    (hshort : payload.length < 2 ^ 16)
    (h : ∀ i < 8 + payload.length, m.read i = byteAt (frameBytes p t payload) i) :
    HoldsFrame p m t payload := by
  have hafter (i : Nat) (hi : i < 2 + payload.length) :
      m.read (6 + i) = byteAt (payload ++ le16 (crc16 (crcSpan p t payload))) i := by
    rw [h (6 + i) (by omega), frameBytes_eq, Nat.add_comm]
    rfl
  have hspan : m.slice 2 (4 + payload.length) = crcSpan p t payload := by
    rw [← length_crcSpan p t payload]
    refine Memory.slice_eq_of_read fun i hi => ?_
    rw [length_crcSpan] at hi
    rw [h (2 + i) (by omega), Nat.add_comm, frameBytes, List.append_assoc]
    exact byteAt_append_left ((length_crcSpan p t payload).symm ▸ hi)
  have hcrc (k : Nat) (hk : k < 2) : m.read (6 + payload.length + k) =
      byteAt (le16 (crc16 (m.slice 2 (4 + payload.length)))) k := by
    rw [Nat.add_assoc, hafter _ (by omega), byteAt_append_right, hspan]
  have hlen := (toNat_u16Of_eq_iff (lo := m.read 4) (hi := m.read 5) hshort).mp (by
    rw [h 4 (by omega), h 5 (by omega), frameBytes_eq]
    exact (congrArg BitVec.toNat (u16Of_bytes _)).trans (Nat.mod_eq_of_lt hshort))
  exact {
    short := hshort
    sync0 := h 0 (by omega)
    sync1 := h 1 (by omega)
    version := h 2 (by omega)
    type := h 3 (by omega)
    lenLow := hlen.1
    lenHigh := hlen.2
    body := fun i hi => (hafter i (by omega)).trans (byteAt_append_left hi)
    crcLow := hcrc 0 (by decide)
    crcHigh := by
      rw [show 7 + payload.length = 6 + payload.length + 1 by omega]
      exact hcrc 1 (by decide) }

/-- Writing R110's frame at the front of a buffer makes the buffer hold it. -/
theorem holdsFrame_writeFrame (p : Params) (m : Memory) (t : Byte) {payload : List Byte}
    (hshort : payload.length < 2 ^ 16) :
    HoldsFrame p (m.writeBytes 0 (frameBytes p t payload)) t payload := by
  refine holdsFrame_of_read hshort fun i hi => ?_
  rw [Memory.read_writeBytes, length_frameBytes, if_pos (by omega), Nat.sub_zero]
  rfl

theorem read_past_frame (p : Params) (m : Memory) (t : Byte) {payload : List Byte} {a : Nat}
    (ha : 8 + payload.length ≤ a) :
    (m.writeBytes 0 (frameBytes p t payload)).read a = m.read a := by
  rw [Memory.read_writeBytes, length_frameBytes, if_neg (by omega)]

/-- What R112 makes of a command that builds this frame and then writes `after`: a frame in FBUF and
its length in RES0, or a code raised for its capacity. -/
def BuildsFrame (ty : Byte) (payload : List Byte) (n : Nat) (s : State) (after : State → State)
    (o : Outcome) : Prop :=
  (8 + payload.length ≤ n → n ≤ 256 → ∃ m,
    o = .next ((after { s with
      fbuf := m
      res := { s.res with w0 := BitVec.ofNat 32 (8 + payload.length) } }).setCode .ok) ∧
    HoldsFrame s.params m ty payload ∧
    ∀ a, 8 + payload.length ≤ a → m.read a = s.fbuf.read a) ∧
  (256 < n → o = .next { s with code := .badArg }) ∧
  (n < 8 + payload.length → o = .next { s with code := .bufferTooSmall })

theorem buildsFrame_map (ty : Byte) {payload : List Byte} (n : Nat) (s : State)
    (after : State → State) (hlen : payload.length ≤ 200) :
    BuildsFrame ty payload n s after (endWith s ((buildFrame ty payload n s).map after)) := by
  rcases buildFrame_cases ty payload n s with ⟨hn, he⟩ | ⟨hn, hsmall, he⟩ | ⟨hn, hfits, he⟩ <;>
    rw [he]
  · exact ⟨fun _ h => by omega, fun _ => rfl, fun h => by omega⟩
  · exact ⟨fun h => by omega, fun h => by omega, fun _ => rfl⟩
  · have hframe := holdsFrame_writeFrame s.params s.fbuf ty (payload := payload) (by omega)
    exact ⟨fun _ _ => ⟨_, rfl, hframe, fun a => read_past_frame _ _ _⟩,
      fun h => by omega, fun h => by omega⟩

theorem buildsFrame (ty : Byte) {payload : List Byte} (n : Nat) (s : State)
    (hlen : payload.length ≤ 200) :
    BuildsFrame ty payload n s id (endWith s (buildFrame ty payload n s)) := by
  have h := buildsFrame_map ty n s id hlen
  rwa [Except.map_id] at h

/-- Settles O28: BuildFrame, then CMD_SEQ. -/
theorem buildCmdWritesFrame : Obligations.BuildCmdWritesFrame := fun n s hn =>
  ⟨decode_countWord (i := .buildCmd n) rfl hn,
    buildsFrame_map s.params.typeCmd (payload := cmdPayload s.cmdSeq s.arg.w0 s.arg.w1) n s
      (fun t => t.setCmdSeq (s.cmdSeq + 1)) (by decide : 6 ≤ 200)⟩

theorem tlmPayload_eq (a : Quad) :
    tlmPayload a = [
      a.w0.extractLsb' 0 8, a.w0.extractLsb' 8 8, a.w0.extractLsb' 16 8 &&& 0x07,
      a.w1.extractLsb' 0 8, a.w1.extractLsb' 8 8, a.w1.extractLsb' 16 8, a.w1.extractLsb' 24 8,
      a.w2.extractLsb' 0 8, a.w2.extractLsb' 8 8, a.w2.extractLsb' 16 8, a.w2.extractLsb' 24 8,
      a.w3.extractLsb' 0 8, a.w3.extractLsb' 8 8, a.w3.extractLsb' 16 8, a.w3.extractLsb' 24 8] :=
  by simp only [tlmPayload, le16_loHalf, le16_hiHalf]; rfl

/-- Settles O29: BuildFrame with the packed operands. -/
theorem buildTlmWritesFrame : Obligations.BuildTlmWritesFrame := fun n s hn =>
  ⟨decode_countWord (i := .buildTlm n) rfl hn, by
    rw [← tlmPayload_eq]
    exact buildsFrame s.params.typeTlm (payload := tlmPayload s.arg) n s (by decide : 15 ≤ 200)⟩

/-- Settles O30: BuildFrame with an empty payload. -/
theorem buildPingPongWriteFrame : Obligations.BuildPingPongWriteFrame := by
  intro n s hn
  obtain ⟨pingFits, pingLarge, pingSmall⟩ :=
    buildsFrame s.params.typePing (payload := []) n s (Nat.zero_le _)
  obtain ⟨pongFits, pongLarge, pongSmall⟩ :=
    buildsFrame s.params.typePong (payload := []) n s (Nat.zero_le _)
  exact ⟨decode_countWord (i := .buildPing n) rfl hn, decode_countWord (i := .buildPong n) rfl hn,
    fun h8 h256 => ⟨pingFits h8 h256, pongFits h8 h256⟩, fun h => ⟨pingLarge h, pongLarge h⟩,
    fun h => ⟨pingSmall h, pongSmall h⟩⟩

/-- Settles O31: BuildFrame with the front of PBUF. -/
theorem buildLogWritesFrame : Obligations.BuildLogWritesFrame := by
  intro n s hn len
  have hpayload : logPayload s = (List.range len).map s.pbuf.read := Memory.slice_zero _ _
  have hlen : (logPayload s).length = len := Memory.length_slice _ _ _
  have hbuild := buildsFrame s.params.typeLog n s (hlen.trans_le (Nat.min_le_right _ _))
  rw [BuildsFrame, hlen] at hbuild
  rw [← hpayload]
  exact ⟨decode_countWord (i := .buildLog n) rfl hn, hbuild⟩

end Sys2Proof.Machine
/-! ## ParseCore

The stages of R120, one equation for each that fails and one for what is left once the kind is
known; and what they come to on the bytes of a buffer, in the terms of `HoldsFrame`. -/

namespace Sys2Proof.Machine

/-! ### Kinds and lengths (R111) -/

theorem lenOK_iff (k : Kind) (len : Nat) : lenOK k len = true ↔ LenAllowed k len := by
  cases k with
  | log => exact decide_eq_true_iff
  | cmd | tlm | ping | pong => exact beq_iff_eq

theorem lenOK_eq_false_iff (k : Kind) (len : Nat) : lenOK k len = false ↔ ¬ LenAllowed k len := by
  rw [← lenOK_iff, Bool.not_eq_true]

theorem LenAllowed.le {k : Kind} {len : Nat} (h : LenAllowed k len) : len ≤ 200 :=
  lenOK_le ((lenOK_iff k len).mpr h)

/-- Only a Log frame has more than one allowed length. -/
theorem LenAllowed.eq_log {k : Kind} {len len' : Nat} (h : LenAllowed k len)
    (h' : LenAllowed k len') (hne : len ≠ len') : k = .log := by
  cases k with
  | log => rfl
  | cmd | tlm | ping | pong => exact absurd (h.trans h'.symm) hne

theorem mem_kinds (k : Kind) : k ∈ [Kind.cmd, .tlm, .ping, .pong, .log] := by
  cases k <;> decide

/-- R8: the five type bytes are pairwise distinct. -/
theorem typeByte_injective {p : Params} (hp : p.WellFormed) : Function.Injective (typeByte p) := by
  have hnodup : ([Kind.cmd, .tlm, .ping, .pong, .log].map (typeByte p)).Nodup := hp.2
  exact fun k k' h => List.inj_on_of_nodup_map hnodup (mem_kinds k) (mem_kinds k') h

theorem kindOfType_eq_some_iff {p : Params} (hp : p.WellFormed) (t : Byte) (k : Kind) :
    kindOfType p t = some k ↔ typeByte p k = t := by
  refine ⟨fun h => by simpa using List.find?_some h, fun h => ?_⟩
  cases hf : kindOfType p t with
  | none => exact absurd h (by simpa using List.find?_eq_none.mp hf k (mem_kinds k))
  | some k' =>
    have hk' : typeByte p k' = t := by simpa using List.find?_some hf
    rw [typeByte_injective hp (hk'.trans h.symm)]

theorem acceptedKind_some_iff (p : Params) (k : Kind) (t : Byte) (k' : Kind) :
    acceptedKind p (some k) t = some k' ↔ typeByte p k' = t ∧ k = k' := by
  simp only [acceptedKind]
  split
  · next h => simp only [Option.some.injEq, h]; exact ⟨fun e => e ▸ ⟨rfl, rfl⟩, And.right⟩
  · next h => simp only [reduceCtorEq, false_iff]; rintro ⟨rfl, rfl⟩; exact h rfl

theorem acceptedKind_eq_some_iff {p : Params} (hp : p.WellFormed) (expect : Option Kind) (t : Byte)
    (k : Kind) : acceptedKind p expect t = some k ↔ KindAccepted p expect t k := by
  cases expect with
  | none => simpa [KindAccepted, acceptedKind] using kindOfType_eq_some_iff hp t k
  | some k' => simpa [KindAccepted] using acceptedKind_some_iff p k' t k

/-! ### The stages (R120) -/

section Stages

variable {p : Params} {b : List Byte} {expect : Option Kind}

theorem parseCore_short (h : b.length < 8) : parseCore p b expect = .error .insufficientData :=
  if_pos h

theorem parseCore_wrongPrefix (h8 : 8 ≤ b.length)
    (h : byteAt b 0 ≠ p.sync0 ∨ byteAt b 1 ≠ p.sync1) :
    parseCore p b expect = .error .invalidPrefix :=
  (if_neg (Nat.not_lt.mpr h8)).trans (if_pos h)

theorem parseCore_wrongVersion (h8 : 8 ≤ b.length) (h0 : byteAt b 0 = p.sync0)
    (h1 : byteAt b 1 = p.sync1) (h : byteAt b 2 ≠ p.version) :
    parseCore p b expect = .error .invalidVersion := by
  simp [parseCore, show ¬ b.length < Config.minFrame from Nat.not_lt.mpr h8, h0, h1, h]

theorem parseCore_wrongType (h8 : 8 ≤ b.length) (h0 : byteAt b 0 = p.sync0)
    (h1 : byteAt b 1 = p.sync1) (h2 : byteAt b 2 = p.version)
    (h : acceptedKind p expect (byteAt b 3) = none) :
    parseCore p b expect = .error .invalidType := by
  simp [parseCore, show ¬ b.length < Config.minFrame from Nat.not_lt.mpr h8, h0, h1, h2, h]

/-- Once the kind is known, the length, the size and the CRC are left. -/
theorem parseCore_of_kind {k : Kind} (h8 : 8 ≤ b.length) (h0 : byteAt b 0 = p.sync0)
    (h1 : byteAt b 1 = p.sync1) (h2 : byteAt b 2 = p.version)
    (h : acceptedKind p expect (byteAt b 3) = some k) :
    parseCore p b expect =
      if lenOK k (u16At b 4).toNat = false then .error .invalidPayloadLength
      else if b.length < 8 + (u16At b 4).toNat then .error .insufficientData
      else if u16At b (6 + (u16At b 4).toNat) ≠ crc16 ((b.drop 2).take (4 + (u16At b 4).toNat)) then
        .error .crcMismatch
      else .ok (k, (u16At b 4).toNat) := by
  have hlong : ¬ b.length < Config.minFrame := Nat.not_lt.mpr h8
  have hprefix : ¬ (byteAt b 0 ≠ p.sync0 ∨ byteAt b 1 ≠ p.sync1) := by simp [h0, h1]
  rw [parseCore, if_neg hlong, if_neg hprefix, if_neg (not_not.mpr h2), h]
  rfl

end Stages

/-- Settles O32: the stage that fails, or what is left after the kind. -/
theorem parseStages : Obligations.ParseStages := by
  intro p b expect hp len stored
  have hlen : (u16At b 4).toNat = len := toNat_u16Of _ _
  have hstored : (u16At b (6 + len)).toNat = stored :=
    (toNat_u16Of _ _).trans (by rw [show 6 + len + 1 = 7 + len by omega])
  refine ⟨parseCore_short, fun h8 => ⟨parseCore_wrongPrefix h8, fun h0 h1 =>
    ⟨parseCore_wrongVersion h8 h0 h1, fun h2 => ⟨fun hnone => ?_, fun k hk => ?_⟩⟩⟩⟩
  · refine parseCore_wrongType h8 h0 h1 h2 (Option.eq_none_iff_forall_ne_some.mpr fun k hk => ?_)
    exact hnone k ((acceptedKind_eq_some_iff hp expect _ k).mp hk)
  · have hrest := parseCore_of_kind h8 h0 h1 h2 ((acceptedKind_eq_some_iff hp expect _ k).mpr hk)
    rw [hlen] at hrest
    rw [hrest]
    have hcrc : u16At b (6 + len) = crc16 ((b.drop 2).take (4 + len)) ↔
        stored = (crc16 ((b.drop 2).take (4 + len))).toNat := by
      rw [← hstored, BitVec.toNat_inj]
    refine ⟨fun hbad => if_pos ((lenOK_eq_false_iff k len).mpr hbad), fun hallowed => ?_⟩
    rw [if_neg fun hbad => (lenOK_eq_false_iff k len).mp hbad hallowed]
    refine ⟨fun hcut => if_pos hcut, fun hwhole => ?_⟩
    rw [if_neg (Nat.not_lt.mpr hwhole)]
    exact ⟨fun hne => if_pos (mt hcrc.mp hne), fun he => if_neg (not_not.mpr (hcrc.mpr he))⟩

/-! ### ParseCore on a buffer -/

theorem Memory.u16At_slice_zero (m : Memory) {n i : Nat} (h : i + 1 < n) :
    u16At (m.slice 0 n) i = u16Of (m.read i) (m.read (i + 1)) := by
  rw [u16At, m.byteAt_slice_zero (Nat.lt_of_succ_lt h), m.byteAt_slice_zero h]

theorem Memory.take_drop_slice_zero (m : Memory) {n a k : Nat} (h : a + k ≤ n) :
    ((m.slice 0 n).drop a).take k = m.slice a k := by
  obtain ⟨r, rfl⟩ := Nat.exists_eq_add_of_le h
  rw [Nat.add_assoc, slice_add, Nat.zero_add, List.drop_left' (m.length_slice 0 a), slice_add,
    List.take_left' (m.length_slice a k)]

theorem HoldsFrame.toNat_length {p : Params} {m : Memory} {t : Byte} {payload : List Byte}
    (h : HoldsFrame p m t payload) : (u16Of (m.read 4) (m.read 5)).toNat = payload.length :=
  (toNat_u16Of_eq_iff h.short).mpr ⟨h.lenLow, h.lenHigh⟩

theorem HoldsFrame.crc {p : Params} {m : Memory} {t : Byte} {payload : List Byte}
    (h : HoldsFrame p m t payload) :
    u16Of (m.read (6 + payload.length)) (m.read (7 + payload.length)) =
      crc16 (m.slice 2 (4 + payload.length)) :=
  (u16Of_eq_iff _ _ _).mpr ⟨h.crcLow, h.crcHigh⟩

/-- Acceptance on a buffer, before its type byte is tied to its kind. -/
theorem parseCore_slice_eq_ok_iff (p : Params) (m : Memory) (n : Nat) (expect : Option Kind)
    (k : Kind) (len : Nat) :
    parseCore p (m.slice 0 n) expect = .ok (k, len) ↔
      acceptedKind p expect (m.read 3) = some k ∧ LenAllowed k len ∧ 8 + len ≤ n ∧
        ∃ payload : List Byte, payload.length = len ∧ HoldsFrame p m (m.read 3) payload := by
  rw [parseCore_ok_iff, Memory.length_slice, lenOK_iff]
  constructor
  · rintro ⟨hn, h0, h1, h2, hk, hlen, hallowed, hcrc⟩
    rw [m.byteAt_slice_zero (by omega)] at h0 h1 h2 hk
    rw [m.u16At_slice_zero (by omega), toNat_u16Of_eq_iff (by have := hallowed.le; omega)] at hlen
    rw [m.u16At_slice_zero (by omega), m.take_drop_slice_zero (by omega), u16Of_eq_iff,
      show 6 + len + 1 = 7 + len by omega] at hcrc
    obtain ⟨payload, rfl, hbody⟩ : ∃ payload : List Byte, payload.length = len ∧
        ∀ i < len, m.read (6 + i) = byteAt payload i :=
      ⟨m.slice 6 len, m.length_slice 6 len, fun i hi => (m.getD_slice 6 len i hi).symm⟩
    exact ⟨hk, hallowed, hn, payload, rfl, {
      short := by have := hallowed.le; omega
      sync0 := h0
      sync1 := h1
      version := h2
      type := rfl
      lenLow := hlen.1
      lenHigh := hlen.2
      body := hbody
      crcLow := hcrc.1
      crcHigh := hcrc.2 }⟩
  · rintro ⟨hk, hallowed, hn, payload, rfl, hframe⟩
    refine ⟨hn, ?_, ?_, ?_, ?_, ?_, hallowed, ?_⟩
    · rw [m.byteAt_slice_zero (by omega), hframe.sync0]
    · rw [m.byteAt_slice_zero (by omega), hframe.sync1]
    · rw [m.byteAt_slice_zero (by omega), hframe.version]
    · rw [m.byteAt_slice_zero (by omega), hk]
    · rw [m.u16At_slice_zero (by omega), hframe.toNat_length]
    · rw [m.u16At_slice_zero (by omega), m.take_drop_slice_zero (by omega),
        show 6 + payload.length + 1 = 7 + payload.length by omega, hframe.crc]

/-- Settles O33: with legal parameters the type byte of an accepted buffer is its kind's. -/
theorem parseAcceptsExactlyFrames : Obligations.ParseAcceptsExactlyFrames := by
  intro p m n len k expect hp
  rw [parseCore_slice_eq_ok_iff, acceptedKind_eq_some_iff hp]
  constructor
  · rintro ⟨⟨htype, hexpect⟩, hallowed, hn, payload, hlen, hframe⟩
    exact ⟨hexpect, hallowed, hn, payload, hlen, htype ▸ hframe⟩
  · rintro ⟨hexpect, hallowed, hn, payload, hlen, hframe⟩
    exact ⟨⟨hframe.type.symm, hexpect⟩, hallowed, hn, payload, hlen, hframe.type.symm ▸ hframe⟩

end Sys2Proof.Machine
/-! ## PARSE_*

Every PARSE_* command checks FBUF with ParseCore and then writes RES (R121 to R125): the code it
raises, or the results of the frame that FBUF holds. -/

namespace Sys2Proof.Machine

/-- RES after PARSE_<kind> on a buffer with an accepted frame of payload length `len`. -/
def parseResults (k : Kind) (s : State) (len : Nat) : Quad :=
  match k with
  | .cmd => { s.res with
      w0 := (payloadHalf s.fbuf 0).setWidth 32
      w1 := dequant (payloadHalf s.fbuf 2)
      w2 := dequant (payloadHalf s.fbuf 4) }
  | .tlm => {
      w0 := packHalves (payloadHalf s.fbuf 0) ((s.fbuf.read 8).setWidth 16)
      w1 := packHalves (payloadHalf s.fbuf 3) (payloadHalf s.fbuf 5)
      w2 := packHalves (payloadHalf s.fbuf 7) (payloadHalf s.fbuf 9)
      w3 := packHalves (payloadHalf s.fbuf 11) (payloadHalf s.fbuf 13) }
  | .ping | .pong => s.res
  | .log => { s.res with w0 := BitVec.ofNat 32 len }

theorem exec_parseCommand (k : Kind) (n : Nat) (s : State) :
    exec (parseCommand k n) s =
      endWith s ((parseFbuf k n s).map fun len => s.setRes (parseResults k s len)) := by
  cases k <;> rfl

section Parse

variable {k : Kind} {n : Nat} {s : State}

theorem exec_parse_error {c : StatusCode} (h : parseFbuf k n s = .error c) :
    exec (parseCommand k n) s = .next { s with code := c } := by
  rw [exec_parseCommand, h]
  rfl

theorem exec_parse_ok {len : Nat} (h : parseFbuf k n s = .ok len) :
    exec (parseCommand k n) s = .next { s with res := parseResults k s len, code := .ok } := by
  rw [exec_parseCommand, h]
  rfl

theorem parseFbuf_eq_parseCore (hn : n ≤ 256) :
    parseFbuf k n s = (parseCore s.params (s.fbuf.slice 0 n) (some k)).map Prod.snd :=
  if_neg (Nat.not_lt.mpr hn)

theorem exec_parse_large (hn : 256 < n) :
    exec (parseCommand k n) s = .next { s with code := .badArg } :=
  exec_parse_error (if_pos hn)

/-- A PARSE_* command ends in the code that ParseCore raises. -/
theorem exec_parse_raises {c : StatusCode} (hn : n ≤ 256)
    (h : parseCore s.params (s.fbuf.slice 0 n) (some k) = .error c) :
    exec (parseCommand k n) s = .next { s with code := c } :=
  exec_parse_error (by rw [parseFbuf_eq_parseCore hn, h]; rfl)

/-- A PARSE_* command accepts a frame of its own kind. -/
theorem exec_parse_frame {payload : List Byte} (hallowed : LenAllowed k payload.length)
    (hfits : 8 + payload.length ≤ n) (hn : n ≤ 256)
    (hframe : HoldsFrame s.params s.fbuf (typeByte s.params k) payload) :
    exec (parseCommand k n) s =
      .next { s with res := parseResults k s payload.length, code := .ok } := by
  have haccept : parseCore s.params (s.fbuf.slice 0 n) (some k) = .ok (k, payload.length) :=
    (parseCore_slice_eq_ok_iff _ _ _ _ _ _).mpr
      ⟨(acceptedKind_some_iff _ _ _ _).mpr ⟨hframe.type.symm, rfl⟩, hallowed, hfits, payload, rfl,
        hframe.type.symm ▸ hframe⟩
  exact exec_parse_ok (by rw [parseFbuf_eq_parseCore hn, haccept]; rfl)

end Parse

theorem HoldsFrame.payloadHalf {p : Params} {m : Memory} {t : Byte} {payload : List Byte}
    (h : HoldsFrame p m t payload) {j : Nat} (hj : j + 1 < payload.length) :
    payloadHalf m j = u16Of (byteAt payload j) (byteAt payload (j + 1)) := by
  rw [Machine.payloadHalf, h.body j (by omega), show 7 + j = 6 + (j + 1) by omega,
    h.body (j + 1) hj]

/-- Settles O34: ParseCore's codes, or the fields of the payload. -/
theorem parseCmdReturnsFields : Obligations.ParseCmdReturnsFields := by
  intro n s hn
  refine ⟨decode_countWord (i := .parseCmd n) rfl hn, fun q0 q1 t0 t1 s0 s1 h14 h256 hframe => ?_,
    fun c => exec_parse_raises (k := .cmd), exec_parse_large (k := .cmd)⟩
  have hhalf {j : Nat} (hj : j + 1 < 6) := hframe.payloadHalf (j := j) hj
  have hresults : parseResults .cmd s 6 = { s.res with
      w0 := (q1 ++ q0).setWidth 32, w1 := dequant (t1 ++ t0), w2 := dequant (s1 ++ s0) } := by
    rw [parseResults, hhalf (j := 0) (by decide), hhalf (j := 2) (by decide),
      hhalf (j := 4) (by decide)]
    rfl
  exact (exec_parse_frame (k := .cmd) (by rfl) h14 h256 hframe).trans
    (congrArg (fun r => Host.Outcome.next { s with res := r, code := .ok }) hresults)

/-- Settles O35: ParseCore's codes, or the fields of the payload, two halves to a register. -/
theorem parseTlmReturnsFields : Obligations.ParseTlmReturnsFields := by
  intro n s hn
  refine ⟨decode_countWord (i := .parseTlm n) rfl hn,
    fun q0 q1 st x0 x1 y0 y1 z0 z1 u0 u1 v0 v1 w0 w1 h23 h256 hframe => ?_,
    fun c => exec_parse_raises (k := .tlm), exec_parse_large (k := .tlm)⟩
  have hstatus : s.fbuf.read 8 = st := hframe.body 2 (show 2 < 15 by decide)
  have hhalf {j : Nat} (hj : j + 1 < 15) := hframe.payloadHalf (j := j) hj
  have hresults : parseResults .tlm s 15 = ⟨packWord q0 q1 st 0x00, packWord x0 x1 y0 y1,
      packWord z0 z1 u0 u1, packWord v0 v1 w0 w1⟩ := by
    rw [parseResults, hstatus, setWidth_eq_u16Of, hhalf (j := 0) (by decide),
      hhalf (j := 3) (by decide), hhalf (j := 5) (by decide), hhalf (j := 7) (by decide),
      hhalf (j := 9) (by decide), hhalf (j := 11) (by decide), hhalf (j := 13) (by decide)]
    simp only [packHalves_u16Of]
    rfl
  exact (exec_parse_frame (k := .tlm) (by rfl) h23 h256 hframe).trans
    (congrArg (fun r => Host.Outcome.next { s with res := r, code := .ok }) hresults)

/-- Settles O36: an empty payload, and RES as it was. -/
theorem parsePingPongCheckFrame : Obligations.ParsePingPongCheckFrame := by
  intro n s hn
  exact ⟨decode_countWord (i := .parsePing n) rfl hn, decode_countWord (i := .parsePong n) rfl hn,
    fun h8 h256 =>
      ⟨exec_parse_frame (k := .ping) rfl h8 h256, exec_parse_frame (k := .pong) rfl h8 h256⟩,
    fun c h256 => ⟨exec_parse_raises (k := .ping) h256, exec_parse_raises (k := .pong) h256⟩,
    fun hlarge => ⟨exec_parse_large (k := .ping) hlarge, exec_parse_large (k := .pong) hlarge⟩⟩

/-- Settles O37: ParseCore's codes, or the payload's length. -/
theorem parseLogReturnsLength : Obligations.ParseLogReturnsLength := by
  intro n s hn
  exact ⟨decode_countWord (i := .parseLog n) rfl hn, fun payload => exec_parse_frame (k := .log),
    fun c => exec_parse_raises (k := .log), exec_parse_large (k := .log)⟩

end Sys2Proof.Machine

/-! ## One changed byte (R128)

The CRC register is an injective function of its start and of each byte fed to it, so a change of
one byte of the span changes the CRC. The earlier stages of ParseCore look at the header's bytes. -/

namespace Sys2Proof.Machine

/-! ### The CRC of two buffers that differ in one byte -/

/-- One shift of R14 loses nothing: the polynomial's top bit shows the bit shifted out. -/
theorem crcShift_injective : Function.Injective crcShift := by
  have htop (c : Half) : (crcShift c).getLsbD 15 = c.getLsbD 0 := by
    rw [crcShift]
    split <;> simp_all [Config.crcPoly]
  have hrest (c : Half) : c >>> 1 = crcShift c ^^^ if c.getLsbD 0 then Config.crcPoly else 0 := by
    rw [crcShift]
    split <;> simp
  intro c d h
  have h0 : c.getLsbD 0 = d.getLsbD 0 := by rw [← htop, ← htop, h]
  have h1 : c >>> 1 = d >>> 1 := by rw [hrest, hrest, h, h0]
  refine BitVec.eq_of_getLsbD_eq fun i _ => ?_
  cases i with
  | zero => exact h0
  | succ i => simpa [Nat.add_comm] using congrArg (fun v => BitVec.getLsbD v i) h1

theorem crcShifts_injective (n : Nat) : Function.Injective (crcShifts n) :=
  (funext (crcShifts_eq_iterate n) : crcShifts n = crcShift^[n]) ▸ crcShift_injective.iterate n

theorem crcByte_left_injective (b : Byte) : Function.Injective (crcByte · b) :=
  (crcShifts_injective 8).comp fun _ _ h => (BitVec.xor_left_inj _).mp h

theorem crcByte_right_injective (c : Half) : Function.Injective (crcByte c) := fun b b' h => by
  have hwide : b.setWidth 16 = b'.setWidth 16 :=
    (BitVec.xor_right_inj _).mp (crcShifts_injective 8 h)
  simpa using congrArg (BitVec.setWidth 8) hwide

theorem foldl_crcByte_injective (b : List Byte) :
    Function.Injective fun c => b.foldl crcByte c := by
  induction b with
  | nil => exact fun _ _ h => h
  | cons x b ih => exact ih.comp (crcByte_left_injective x)

/-- The CRC of a sequence determines each byte of it by the others. -/
theorem crc16_append_cons_inj {pre post : List Byte} {x y : Byte}
    (h : crc16 (pre ++ x :: post) = crc16 (pre ++ y :: post)) : x = y := by
  rw [crc16_append, crc16_append] at h
  exact crcByte_right_injective _ (foldl_crcByte_injective post h)

theorem Memory.slice_succ (m : Memory) (a n : Nat) :
    m.slice a (n + 1) = m.read a :: m.slice (a + 1) n := by
  rw [Nat.add_comm, slice_add]
  simp [Memory.slice]

theorem crc16_slice_ne {m m' : Memory} {a n j : Nat} (hj : m.read j ≠ m'.read j)
    (hsame : ∀ i, i ≠ j → m.read i = m'.read i) (ha : a ≤ j) (hn : j < a + n) :
    crc16 (m.slice a n) ≠ crc16 (m'.slice a n) := by
  obtain ⟨d, rfl⟩ := Nat.exists_eq_add_of_le ha
  obtain ⟨r, rfl⟩ : ∃ r, n = d + (r + 1) := ⟨n - d - 1, by omega⟩
  have hpre : m.slice a d = m'.slice a d := Memory.slice_congr fun i _ => hsame _ (by omega)
  have hpost : m.slice (a + d + 1) r = m'.slice (a + d + 1) r :=
    Memory.slice_congr fun i _ => hsame _ (by omega)
  rw [m.slice_add a d, m'.slice_add a d, m.slice_succ (a + d) r, m'.slice_succ (a + d) r,
    hpre, hpost]
  exact fun h => hj (crc16_append_cons_inj h)

/-! ### ParseCore on a buffer with a header of the expected kind -/

/-- What is left of ParseCore once bytes 0 to 3 of a buffer have passed. -/
theorem parseCore_slice_of_header {p : Params} {m : Memory} {n : Nat} {k : Kind} (h8 : 8 ≤ n)
    (h0 : m.read 0 = p.sync0) (h1 : m.read 1 = p.sync1) (h2 : m.read 2 = p.version)
    (h3 : m.read 3 = typeByte p k) :
    let len := (m.read 4).toNat + 256 * (m.read 5).toNat
    (¬ LenAllowed k len → parseCore p (m.slice 0 n) (some k) = .error .invalidPayloadLength) ∧
    (LenAllowed k len → n < 8 + len →
      parseCore p (m.slice 0 n) (some k) = .error .insufficientData) ∧
    (LenAllowed k len → 8 + len ≤ n →
      (u16Of (m.read (6 + len)) (m.read (7 + len)) ≠ crc16 (m.slice 2 (4 + len)) →
        parseCore p (m.slice 0 n) (some k) = .error .crcMismatch) ∧
      (u16Of (m.read (6 + len)) (m.read (7 + len)) = crc16 (m.slice 2 (4 + len)) →
        parseCore p (m.slice 0 n) (some k) = .ok (k, len))) := by
  intro len
  have hlong : 8 ≤ (m.slice 0 n).length := h8.trans_eq (m.length_slice 0 n).symm
  have hlen : (u16At (m.slice 0 n) 4).toNat = len := by
    rw [m.u16At_slice_zero (by omega), toNat_u16Of]
  have hrest := parseCore_of_kind (expect := some k) (k := k) hlong
    (by rwa [m.byteAt_slice_zero (by omega)]) (by rwa [m.byteAt_slice_zero (by omega)])
    (by rwa [m.byteAt_slice_zero (by omega)])
    (by rw [m.byteAt_slice_zero (by omega), acceptedKind_some_iff]; exact ⟨h3.symm, rfl⟩)
  rw [hlen, m.length_slice] at hrest
  rw [hrest]
  refine ⟨fun hbad => if_pos ((lenOK_eq_false_iff k len).mpr hbad), fun hallowed hcut => ?_,
    fun hallowed hfits => ?_⟩
  all_goals rw [if_neg fun hbad => (lenOK_eq_false_iff k len).mp hbad hallowed]
  · exact if_pos hcut
  · rw [if_neg (Nat.not_lt.mpr hfits), m.u16At_slice_zero (by omega),
      m.take_drop_slice_zero (by omega), show 6 + len + 1 = 7 + len by omega]
    exact ⟨fun hne => if_pos hne, fun he => if_neg (not_not.mpr he)⟩

/-! ### The changed byte -/

section Change

variable {p : Params} {k : Kind} {payload : List Byte} {n j : Nat} {f m : Memory}
  (hframe : HoldsFrame p f (typeByte p k) payload)
  (hj : m.read j ≠ f.read j) (hsame : ∀ a, a ≠ j → m.read a = f.read a)
include hframe hj hsame

theorem parseCore_changed_prefix (h8 : 8 ≤ n) (h : j < 2) :
    parseCore p (m.slice 0 n) (some k) = .error .invalidPrefix := by
  refine parseCore_wrongPrefix (by rwa [m.length_slice]) ?_
  rw [m.byteAt_slice_zero (by omega), m.byteAt_slice_zero (by omega), ← hframe.sync0,
    ← hframe.sync1]
  interval_cases j
  · exact .inl hj
  · exact .inr hj

theorem parseCore_changed_version (h8 : 8 ≤ n) (h : j = 2) :
    parseCore p (m.slice 0 n) (some k) = .error .invalidVersion := by
  subst h
  refine parseCore_wrongVersion (by rwa [m.length_slice]) ?_ ?_ ?_ <;>
    rw [m.byteAt_slice_zero (by omega)]
  · exact (hsame 0 (by decide)).trans hframe.sync0
  · exact (hsame 1 (by decide)).trans hframe.sync1
  · exact hframe.version ▸ hj

theorem parseCore_changed_type (h8 : 8 ≤ n) (h : j = 3) :
    parseCore p (m.slice 0 n) (some k) = .error .invalidType := by
  subst h
  refine parseCore_wrongType (by rwa [m.length_slice]) ?_ ?_ ?_ ?_ <;>
    rw [m.byteAt_slice_zero (by omega)]
  · exact (hsame 0 (by decide)).trans hframe.sync0
  · exact (hsame 1 (by decide)).trans hframe.sync1
  · exact (hsame 2 (by decide)).trans hframe.version
  · exact if_neg (hframe.type ▸ hj)

/-- A changed length byte changes the length. -/
theorem length_changed (h : j = 4 ∨ j = 5) :
    (m.read 4).toNat + 256 * (m.read 5).toNat ≠ payload.length := by
  rw [← toNat_u16Of]
  intro he
  obtain ⟨h4, h5⟩ := (toNat_u16Of_eq_iff hframe.short).mp he
  rcases h with rfl | rfl
  · exact hj (h4.trans hframe.lenLow.symm)
  · exact hj (h5.trans hframe.lenHigh.symm)

/-- A changed payload or CRC byte no longer agrees with the rest. -/
theorem crc_changed (h6 : 6 ≤ j) (h : j < 8 + payload.length) :
    u16Of (m.read (6 + payload.length)) (m.read (7 + payload.length)) ≠
      crc16 (m.slice 2 (4 + payload.length)) := by
  by_cases hbody : j < 6 + payload.length
  · rw [hsame _ (by omega), hsame _ (by omega), hframe.crc]
    exact (crc16_slice_ne hj hsame (by omega) (by omega)).symm
  · rw [Memory.slice_congr (m' := f) fun i hi => hsame (2 + i) (by omega), ← hframe.crc]
    intro he
    obtain ⟨hlow, hhigh⟩ := u16Of_inj he
    rcases (by omega : j = 6 + payload.length ∨ j = 7 + payload.length) with rfl | rfl
    · exact hj hlow
    · exact hj hhigh

end Change

/-- Settles O60: the first stage that looks at the changed byte. -/
theorem corruptionDetected : Obligations.CorruptionDetected := by
  intro s k payload n j m hframe hallowed hfits h256 hj hsame result newLen
  have h8 : 8 ≤ n := by omega
  have raises {c : StatusCode} (h : parseCore s.params (m.slice 0 n) (some k) = .error c) :
      result c := exec_parse_raises (s := { s with fbuf := m }) h256 h
  -- Past the type byte, the header still names the frame's kind.
  have rest (h4 : 4 ≤ j) := parseCore_slice_of_header h8 ((hsame 0 (by omega)).trans hframe.sync0)
    ((hsame 1 (by omega)).trans hframe.sync1) ((hsame 2 (by omega)).trans hframe.version)
    ((hsame 3 (by omega)).trans hframe.type)
  refine ⟨fun h => raises (parseCore_changed_prefix hframe hj hsame h8 h),
    fun h => raises (parseCore_changed_version hframe hj hsame h8 h),
    fun h => raises (parseCore_changed_type hframe hj hsame h8 h), fun h => ?_, fun h6 h => ?_⟩
  · obtain ⟨hbad, hcut, hwhole⟩ := rest (by omega)
    refine ⟨fun hn => raises (hbad hn), fun ha hn => raises (hcut ha hn), fun ha hn => ?_⟩
    obtain ⟨hmismatch, haccept⟩ := hwhole ha hn
    obtain rfl : k = .log := ha.eq_log hallowed (length_changed hframe hj hsame h)
    refine ⟨rfl, fun hne => raises (hmismatch hne), fun he => ?_⟩
    refine exec_parse_ok (k := .log) (s := { s with fbuf := m }) ?_
    rw [parseFbuf_eq_parseCore h256]
    exact congrArg (Except.map Prod.snd) (haccept he)
  · obtain ⟨-, -, hwhole⟩ := rest (by omega)
    have hlen : (m.read 4).toNat + 256 * (m.read 5).toNat = payload.length := by
      rw [hsame 4 (by omega), hsame 5 (by omega), ← toNat_u16Of, hframe.toNat_length]
    rw [hlen] at hwhole
    exact raises ((hwhole hallowed hfits).1 (crc_changed hframe hj hsame h6 h))

end Sys2Proof.Machine
/-! ## Quantisation (R113)

Quant and Dequant are each one correctly rounded operation and a clamp. The facts about rounding
that they need rest on one: a whole number of at most 24 bits, scaled by a power of two, is a
binary32 value, so that a rounded result is at least as near as that. -/

namespace Sys2Proof.Machine

/-! ### Exact values -/

theorem exists_unitsAbs_of_normal {e m : Nat} (hm : m < 2 ^ 24) (he : e ≤ 253)
    (hnorm : e = 0 ∨ 2 ^ 23 ≤ m) :
    ∃ mag < infMagnitude, ∀ neg, unitsAbs (mkF32 neg mag) = m * 2 ^ e := by
  have hinf : infMagnitude = 255 * 2 ^ 23 := by decide
  exact ⟨e * 2 ^ 23 + m, by omega, fun neg =>
    unitsAbs_of_fields (fmagnitude_mkF32 neg (by omega)) hm.le hnorm⟩

/-- A significand is normalised by taking twos out of the power that scales it. -/
theorem exists_unitsAbs_eq {a j : Nat} (hj : j < 2 ^ 24) (ha : a ≤ 253) :
    ∃ mag < infMagnitude, ∀ neg, unitsAbs (mkF32 neg mag) = j * 2 ^ a := by
  induction a generalizing j with
  | zero => exact exists_unitsAbs_of_normal hj ha (.inl rfl)
  | succ a ih =>
    rcases Nat.lt_or_ge j (2 ^ 23) with hsmall | hnorm
    · have hdoubled : 2 * j * 2 ^ a = j * 2 ^ (a + 1) := by ring
      exact hdoubled ▸ ih (j := 2 * j) (by omega) (by omega)
    · exact exists_unitsAbs_of_normal hj ha (.inr hnorm)

/-- A whole number of at most 24 bits over a power of two is a binary32 value. -/
theorem exists_f32Value_eq {j : ℤ} {k : ℕ} (hj : |j| < 2 ^ 24) (hk : k ≤ 149) :
    ∃ b, isfinite b = true ∧ f32Value b = j / 2 ^ k := by
  have hnat : j.natAbs < 2 ^ 24 := by rw [Int.abs_eq_natAbs] at hj; exact_mod_cast hj
  obtain ⟨mag, hmag, hunits⟩ := exists_unitsAbs_eq (a := 149 - k) hnat (by omega)
  refine ⟨mkF32 (decide (j < 0)) mag, ?_, ?_⟩
  · rw [isfinite_iff, fmagnitude_mkF32 _ (hmag.trans (by decide))]
    exact hmag
  · have hvalue : units (mkF32 (decide (j < 0)) mag) = j * 2 ^ (149 - k) := by
      rw [units, fsign_mkF32, hunits]
      push_cast
      rcases lt_or_ge j 0 with h | h
      · rw [if_pos (decide_eq_true h), abs_of_neg h, neg_mul, neg_neg]
      · rw [if_neg (by simpa using h), abs_of_nonneg h]
    have hpow : (2 : ℚ) ^ 149 = 2 ^ (149 - k) * 2 ^ k := by rw [← pow_add, Nat.sub_add_cancel hk]
    rw [f32Value, hvalue, hpow]
    push_cast
    rw [mul_comm (j : ℚ), mul_div_mul_left _ _ (by positivity)]

/-! ### What a rounded value keeps of the exact one -/

section Rounded

variable {x : ℚ} {r b : F32} (h : IsRNE32 (x : ℝ) r)
include h

theorem IsRNE32.isfinite_of_abs_le (hx : |x| ≤ 2 ^ 23) : isfinite r = true := by
  refine isfinite_of_not_inf h.not_nan (Bool.eq_false_iff.mpr fun hinf => ?_)
  have hbig := h.overflow.mp hinf
  have hx' : |(x : ℝ)| ≤ 2 ^ 23 := by exact_mod_cast hx
  rw [overflowBound] at hbig
  norm_num at hbig hx'
  linarith

theorem IsRNE32.nearest_rat (hx : |x| ≤ 2 ^ 23) (hb : isfinite b = true) :
    |x - f32Value r| ≤ |x - f32Value b| := by
  exact_mod_cast h.nearest (h.isfinite_of_abs_le hx) b hb

theorem IsRNE32.eq_of_exact (hx : |x| ≤ 2 ^ 23) (hb : isfinite b = true) (hxb : f32Value b = x) :
    f32Value r = x := by
  have hnear := h.nearest_rat hx hb
  rw [hxb, sub_self, abs_zero] at hnear
  exact (sub_eq_zero.mp (abs_nonpos_iff.mp hnear)).symm

/-- Rounding does not pass a binary32 value. -/
theorem IsRNE32.abs_value_le (hx : |x| ≤ 2 ^ 23) (hb : isfinite b = true) (hxb : |x| ≤ f32Value b) :
    |f32Value r| ≤ f32Value b := by
  have hup := h.nearest_rat hx hb
  have hdown := h.nearest_rat (b := fneg b) hx ((isfinite_fneg b).trans hb)
  rw [f32Value_fneg] at hdown
  obtain ⟨hlo, hhi⟩ := abs_le.mp hxb
  rw [abs_of_nonpos (show x - f32Value b ≤ 0 by linarith)] at hup
  rw [abs_of_nonneg (show 0 ≤ x - -f32Value b by linarith)] at hdown
  refine abs_le.mpr ⟨?_, ?_⟩
  · linarith [le_abs_self (x - f32Value r)]
  · linarith [neg_abs_le (x - f32Value r)]

/-- The rounding error, by the multiple of 2^-k nearest to the exact value. -/
theorem IsRNE32.error_le {k : ℕ} (hk : k ≤ 149) (hx : |x| * 2 ^ k ≤ 2 ^ 23) :
    |x - f32Value r| ≤ 1 / 2 ^ (k + 1) := by
  have hpow : (1 : ℚ) ≤ 2 ^ k := one_le_pow₀ (by norm_num)
  have hsmall : |x| ≤ 2 ^ 23 := (le_mul_of_one_le_right (abs_nonneg x) hpow).trans hx
  have hround : |x * 2 ^ k - round (x * 2 ^ k)| ≤ 1 / 2 := abs_sub_round _
  have hj : |round (x * 2 ^ k)| < 2 ^ 24 := by
    have hscaled : |x * 2 ^ k| ≤ 2 ^ 23 := by
      rwa [abs_mul, abs_of_pos (by positivity : (0 : ℚ) < 2 ^ k)]
    have : |(round (x * 2 ^ k) : ℚ)| < 2 ^ 24 := by
      calc |(round (x * 2 ^ k) : ℚ)|
        _ ≤ |x * 2 ^ k| + |x * 2 ^ k - round (x * 2 ^ k)| := by
          have := abs_sub_abs_le_abs_sub (round (x * 2 ^ k) : ℚ) (x * 2 ^ k)
          rw [abs_sub_comm] at this
          linarith
        _ ≤ 2 ^ 23 + 1 / 2 := add_le_add hscaled hround
        _ < 2 ^ 24 := by norm_num
    exact_mod_cast this
  obtain ⟨b, hb, hvalue⟩ := exists_f32Value_eq hj hk
  calc |x - f32Value r|
    _ ≤ |x - f32Value b| := h.nearest_rat hsmall hb
    _ = |x * 2 ^ k - round (x * 2 ^ k)| / 2 ^ k := by
      rw [hvalue, ← abs_of_pos (show (0 : ℚ) < 2 ^ k by positivity), ← abs_div,
        abs_of_pos (show (0 : ℚ) < 2 ^ k by positivity)]
      congr 1
      field_simp
    _ ≤ 1 / 2 / 2 ^ k := div_le_div_of_nonneg_right hround (by positivity)
    _ = 1 / 2 ^ (k + 1) := by rw [div_div, pow_succ']

end Rounded

/-! ### Integers, truncation and the clamp to ±1 (R12, R13) -/

theorem f32OfInt_eq_rneUnits (k : ℤ) : f32OfInt k = rneUnits (k * 2 ^ 149) := by
  have hneg : k * 2 ^ 149 < 0 ↔ k < 0 := by omega
  rw [f32OfInt, rneUnits, decide_eq_decide.mpr hneg, Int.natAbs_mul]
  rfl

/-- A small integer is its own binary32 value. -/
theorem f32OfInt_exact {k : ℤ} (hk : |k| < 2 ^ 23) :
    isfinite (f32OfInt k) = true ∧ f32Value (f32OfInt k) = k := by
  have hround : IsRNE32 ((k : ℚ) : ℝ) (f32OfInt k) := by
    have := rneUnits_isRNE (k * 2 ^ 149)
    rwa [← f32OfInt_eq_rneUnits, Int.cast_mul, Int.cast_pow, Int.cast_ofNat,
      mul_div_cancel_right₀ _ (by positivity)] at this
  have hsmall : |(k : ℚ)| ≤ 2 ^ 23 := by exact_mod_cast hk.le
  obtain ⟨b, hb, hvalue⟩ := exists_f32Value_eq (j := k) (k := 0) (hk.trans (by norm_num)) (by omega)
  exact ⟨hround.isfinite_of_abs_le hsmall,
    hround.eq_of_exact hsmall hb (by rw [hvalue, pow_zero, div_one])⟩

theorem isfinite_qScaleF32 : isfinite qScaleF32 = true :=
  (f32OfInt_exact (k := 32767) (by decide)).1

theorem f32Value_qScaleF32 : f32Value qScaleF32 = 32767 :=
  (f32OfInt_exact (k := 32767) (by decide)).2

theorem f32Value_f32One : f32Value f32One = 1 := by
  have h : units f32One = 2 ^ 149 := by decide +kernel
  rw [f32Value, h]
  norm_num

theorem f32Value_f32NegOne : f32Value f32NegOne = -1 := by
  have h : units f32NegOne = -2 ^ 149 := by decide +kernel
  rw [f32Value, h]
  norm_num

/-- An infinity counts 2^277 units, so a value within ±1 is finite. -/
theorem isfinite_of_abs_value_le_one {v : F32} (hv : isnan v = false) (h : |f32Value v| ≤ 1) :
    isfinite v = true := by
  refine isfinite_of_not_inf hv (Bool.eq_false_iff.mpr fun hinf => ?_)
  have hunits : unitsAbs v = 2 ^ 128 * 2 ^ 149 := by
    rw [eq_mkF32_of_isinf hinf]
    cases fsign v <;> decide +kernel
  have habs := abs_f32Value v
  rw [hunits, Nat.cast_mul, Nat.cast_pow 2 149, Nat.cast_ofNat,
    mul_div_cancel_right₀ _ (by positivity)] at habs
  have h' : |((f32Value v : ℚ) : ℝ)| ≤ 1 := by exact_mod_cast h
  rw [habs] at h'
  norm_num at h'

/-- The clamp of R113. -/
theorem clampf_one {v : F32} (hv : isnan v = false) :
    isfinite (clampf v f32NegOne f32One) = true ∧
      f32Value (clampf v f32NegOne f32One) = max (-1) (min 1 (f32Value v)) := by
  have hlo := f32Value_f32NegOne
  have hhi := f32Value_f32One
  have hle : f32Value f32NegOne ≤ f32Value f32One := by rw [hlo, hhi]; norm_num
  rcases lt_or_ge (f32Value v) (-1) with hbelow | hbelow
  · rw [clampf_below hv (by decide) (hlo ▸ hbelow), hlo]
    exact ⟨by decide, (max_eq_left ((min_le_right _ _).trans hbelow.le)).symm⟩
  rcases lt_or_ge 1 (f32Value v) with habove | habove
  · rw [clampf_above hv (by decide) hle (hhi ▸ habove), hhi, min_eq_left habove.le]
    exact ⟨by decide, by norm_num⟩
  · rw [clampf_between hv (hlo ▸ hbelow) (hhi ▸ habove), min_eq_right habove, max_eq_right hbelow]
    exact ⟨isfinite_of_abs_value_le_one hv (abs_le.mpr ⟨hbelow, habove⟩), rfl⟩

theorem truncInt_eq (a : F32) :
    truncInt a = if 0 ≤ f32Value a then ⌊f32Value a⌋ else ⌈f32Value a⌉ := by
  have hfloor (u : ℤ) : ⌊(u / 2 ^ 149 : ℚ)⌋ = u / 2 ^ 149 := by
    exact_mod_cast Rat.floor_intCast_div_natCast u (2 ^ 149)
  have hnonneg : 0 ≤ f32Value a ↔ 0 ≤ units a := by
    rw [f32Value, le_div_iff₀ (by positivity), zero_mul, Int.cast_nonneg_iff]
  rw [truncInt, if_congr hnonneg rfl rfl]
  split
  · next h => exact (Int.tdiv_eq_ediv_of_nonneg h).trans (hfloor _).symm
  · next h =>
    have hneg : ⌈f32Value a⌉ = -⌊((-units a : ℤ) / 2 ^ 149 : ℚ)⌋ := by
      rw [Int.cast_neg, neg_div, Int.floor_neg, neg_neg, f32Value]
    rw [hneg, hfloor, ← Int.tdiv_eq_ediv_of_nonneg (by omega), Int.neg_tdiv, neg_neg]
    rfl

/-- Truncation toward zero does not pass an integer. -/
theorem abs_truncInt_le {a : F32} {k : ℤ} (h : |f32Value a| ≤ k) : |truncInt a| ≤ k := by
  obtain ⟨hlo, hhi⟩ := abs_le.mp h
  rw [truncInt_eq]
  split
  · next h0 =>
    rw [abs_of_nonneg (Int.floor_nonneg.mpr h0)]
    exact Int.floor_le_iff.mpr (by linarith)
  · next h0 =>
    rw [abs_of_nonpos (Int.ceil_nonpos.mpr (not_le.mp h0).le)]
    exact neg_le.mp (Int.le_ceil_iff.mpr (by push_cast; linarith))

theorem abs_sub_truncInt_le (a : F32) : |f32Value a - truncInt a| ≤ 1 := by
  rw [truncInt_eq, abs_le]
  split
  · have := Int.floor_le (f32Value a)
    have := Int.lt_floor_add_one (f32Value a)
    constructor <;> linarith
  · have := Int.le_ceil (f32Value a)
    have := Int.ceil_lt_add_one (f32Value a)
    constructor <;> linarith

/-! ### Quant and Dequant -/

theorem quant_of_isnan {v : F32} (hv : isnan v = true) : quant v = 0 := by
  have hzero : quant posZero = 0 := by decide +kernel
  rw [quant, if_pos hv]
  exact hzero

/-- Quant is one rounding of the scaled clamped value, and a truncation. -/
theorem quant_rounds {v : F32} (hv : isnan v = false) : ∃ p : F32,
    IsRNE32 ((max (-1) (min 1 (f32Value v)) * 32767 : ℚ) : ℝ) p ∧ |f32Value p| ≤ 32767 ∧
      (quant v).toInt = truncInt p := by
  obtain ⟨hfin, hvalue⟩ := clampf_one hv
  have hround := fmul_isRNE hfin isfinite_qScaleF32
  rw [hvalue, f32Value_qScaleF32] at hround
  set x : ℚ := max (-1) (min 1 (f32Value v)) * 32767
  have hx : |x| ≤ 32767 := by
    have hclamped : |max (-1) (min 1 (f32Value v))| ≤ 1 :=
      abs_le.mpr ⟨le_max_left _ _, max_le (by norm_num) (min_le_left _ _)⟩
    rw [abs_mul, abs_of_pos (by norm_num : (0 : ℚ) < 32767)]
    exact mul_le_of_le_one_left (by norm_num) hclamped
  have hp := hround.abs_value_le (hx.trans (by norm_num)) isfinite_qScaleF32
    (hx.trans_eq f32Value_qScaleF32.symm)
  rw [f32Value_qScaleF32] at hp
  refine ⟨_, hround, hp, ?_⟩
  have htrunc := abs_le.mp (abs_truncInt_le (k := 32767) hp)
  simp only [quant, hv, Bool.false_eq_true, if_false]
  rw [BitVec.toInt_ofInt, Int.bmod_eq_of_le (by omega) (by omega)]

/-- Dequant is one correctly rounded quotient: the clamp touches −32768 only. -/
theorem dequant_rounds {q : Half} (hq : |q.toInt| ≤ 32767) :
    IsRNE32 ((q.toInt / 32767 : ℚ) : ℝ) (dequant q) := by
  obtain ⟨hfin, hvalue⟩ := f32OfInt_exact (k := q.toInt) (hq.trans_lt (by norm_num))
  have hround := fdiv_isRNE hfin isfinite_qScaleF32 (by rw [f32Value_qScaleF32]; norm_num)
  rw [hvalue, f32Value_qScaleF32] at hround
  have hx : |(q.toInt / 32767 : ℚ)| ≤ 1 := by
    rw [abs_div, abs_of_pos (by norm_num : (0 : ℚ) < 32767), div_le_one (by norm_num)]
    exact_mod_cast hq
  have hone := hround.abs_value_le (b := f32One) (hx.trans (by norm_num)) (by decide)
    (hx.trans_eq f32Value_f32One.symm)
  rw [f32Value_f32One] at hone
  obtain ⟨hlo, hhi⟩ := abs_le.mp hone
  rwa [dequant, clampf_between hround.not_nan (f32Value_f32NegOne.trans_le hlo)
    (hhi.trans_eq f32Value_f32One.symm)]

theorem abs_toInt_quant_le (v : F32) : |(quant v).toInt| ≤ 32767 := by
  cases hv : isnan v with
  | true => rw [quant_of_isnan hv]; decide
  | false =>
    obtain ⟨p, -, hp, hquant⟩ := quant_rounds hv
    rw [hquant]
    exact abs_truncInt_le hp

/-- Settles O58: the two roundings, and R113's corner cases evaluated. -/
theorem quantisationRounding : Obligations.QuantisationRounding := by
  refine ⟨fun v => abs_le.mp (abs_toInt_quant_le v), fun v => quant_of_isnan, fun v hv => ?_,
    fun q hq => dequant_rounds ?_, by decide +kernel, by decide +kernel, by decide +kernel,
    by decide +kernel, by decide +kernel⟩
  · obtain ⟨p, hround, -, hquant⟩ := quant_rounds hv
    exact ⟨p, hround, hquant.trans (truncInt_eq p)⟩
  · have hlo := BitVec.le_toInt q
    have hhi := BitVec.toInt_lt (x := q)
    exact abs_le.mpr ⟨by omega, by omega⟩

/-! ## Parsing what was built (R127) -/

/-- The error of a value within ±1 that was quantised and dequantised: at most one step of 1/32767
for the truncation, and the two roundings. -/
theorem dequant_quant_near {v : F32} (hfin : isfinite v = true) (hv : |f32Value v| ≤ 1) :
    |f32Value (dequant (quant v)) - f32Value v| ≤ 1 / 2 ^ 14 := by
  obtain ⟨p, hround, hp, hquant⟩ := quant_rounds (isnan_of_isfinite hfin)
  obtain ⟨hlo, hhi⟩ := abs_le.mp hv
  rw [min_eq_right hhi, max_eq_right hlo] at hround
  have hscaled : |f32Value v * 32767| * 2 ^ 8 ≤ 2 ^ 23 := by
    rw [abs_mul, abs_of_pos (by norm_num : (0 : ℚ) < 32767)]
    linarith
  have hq : |((quant v).toInt : ℚ)| ≤ 32767 := by exact_mod_cast abs_toInt_quant_le v
  have hquotient : |((quant v).toInt / 32767 : ℚ)| * 2 ^ 23 ≤ 2 ^ 23 := by
    rw [abs_div, abs_of_pos (by norm_num : (0 : ℚ) < 32767)]
    exact mul_le_of_le_one_left (by norm_num) ((div_le_one (by norm_num)).mpr hq)
  have hproduct := abs_le.mp (hround.error_le (by norm_num) hscaled)
  have htrunc := abs_le.mp (abs_sub_truncInt_le p)
  have hdequant :=
    abs_le.mp ((dequant_rounds (abs_toInt_quant_le v)).error_le (by norm_num) hquotient)
  rw [← hquant] at htrunc
  rw [abs_le]
  constructor <;> linarith

theorem packWord_and (a b c d a' b' c' d' : Byte) :
    packWord a b c d &&& packWord a' b' c' d' =
      packWord (a &&& a') (b &&& b') (c &&& c') (d &&& d') :=
  BitVec.and_append.trans (congrArg _ (BitVec.and_append.trans (congrArg _ BitVec.and_append)))

theorem and_low_mask_of_high_zero : ∀ b : Byte, b.extractLsb' 3 5 = 0 → b &&& 0x07 = b := by decide

/-- The byte that BUILD_TLM masks is whole when ARG0[23:19] = 0, and PARSE_TLM clears
RES0[31:24]. -/
theorem packWord_tlmStatus {w : Word} (h : w.extractLsb' 19 5 = 0) :
    packWord (w.extractLsb' 0 8) (w.extractLsb' 8 8) (w.extractLsb' 16 8 &&& 0x07) 0x00 =
      w &&& 0x00FFFFFF := by
  have hmask := and_low_mask_of_high_zero (w.extractLsb' 16 8)
    ((extractLsb'_of_extractLsb' w (by decide)).trans h)
  have hones (b : Byte) : b &&& 0xFF = b := BitVec.and_allOnes
  have hclear : w.extractLsb' 24 8 &&& 0x00 = 0x00 := BitVec.and_zero
  calc packWord (w.extractLsb' 0 8) (w.extractLsb' 8 8) (w.extractLsb' 16 8 &&& 0x07) 0x00
    _ = packWord (w.extractLsb' 0 8 &&& 0xFF) (w.extractLsb' 8 8 &&& 0xFF)
          (w.extractLsb' 16 8 &&& 0xFF) (w.extractLsb' 24 8 &&& 0x00) := by
      rw [hmask, hones, hones, hones, hclear]
    _ = packWord (w.extractLsb' 0 8) (w.extractLsb' 8 8) (w.extractLsb' 16 8)
          (w.extractLsb' 24 8) &&& packWord 0xFF 0xFF 0xFF 0x00 := (packWord_and ..).symm
    _ = w &&& 0x00FFFFFF := by
      rw [packWord_bytes]
      rfl

/-- Settles O59: BUILD_* leaves the frame that PARSE_* reads. -/
theorem parseOfBuildReturnsInput : Obligations.ParseOfBuildReturnsInput := by
  refine ⟨fun s n k hn hn256 hk hk256 hstatus => ?_,
    fun s n k hn hn256 hk hk256 hfin0 habs0 hfin1 habs1 => ?_⟩
  · obtain ⟨-, hbuild, -⟩ := buildTlmWritesFrame n s (by omega)
    obtain ⟨m, hexec, hframe, -⟩ := hbuild hn hn256
    obtain ⟨-, hparse, -⟩ := parseTlmReturnsFields k { s with
      fbuf := m, res := { s.res with w0 := 23 }, code := .ok } (by omega)
    refine ⟨_, _, hexec, hparse _ _ _ _ _ _ _ _ _ _ _ _ _ _ _ hk hk256 hframe, rfl, rfl, ?_⟩
    exact congr (congr (congr (congrArg Quad.mk (packWord_tlmStatus hstatus)) (packWord_bytes _))
      (packWord_bytes _)) (packWord_bytes _)
  · obtain ⟨-, hbuild, -⟩ := buildCmdWritesFrame n s (by omega)
    obtain ⟨m, hexec, hframe, -⟩ := hbuild hn hn256
    obtain ⟨-, hparse, -⟩ := parseCmdReturnsFields k { s with
      fbuf := m, cmdSeq := s.cmdSeq + 1, res := { s.res with w0 := 14 }, code := .ok } (by omega)
    refine ⟨_, _, hexec, hparse _ _ _ _ _ _ hk hk256 hframe, rfl, rfl,
      congrArg (BitVec.setWidth 32) (u16Of_bytes s.cmdSeq), ?_, ?_⟩
    · change |f32Value (dequant (u16Of _ _)) - _| ≤ _
      rw [u16Of_bytes]
      exact dequant_quant_near hfin0 habs0
    · change |f32Value (dequant (u16Of _ _)) - _| ≤ _
      rw [u16Of_bytes]
      exact dequant_quant_near hfin1 habs1

end Sys2Proof.Machine

/-! ## RX_PUSH (R160) -/

namespace Sys2Proof.Machine

/-- RX_PUSH's operand stands in SEL (R81). -/
theorem encode_rxPush (b : Byte) :
    encode (.rxPush b) = BitVec.ofNat 32 (0x20 + b.toNat * 2 ^ 8) := by
  have hb : b.toNat < 2 ^ 8 := b.isLt
  have hlow : (b ++ (0x20 : Byte)).toNat = 0x20 + b.toNat * 2 ^ 8 := by
    rw [BitVec.toNat_append, ← Nat.shiftLeft_add_eq_or_of_lt (BitVec.isLt _), Nat.shiftLeft_eq,
      Nat.add_comm]
    rfl
  refine BitVec.eq_of_toNat_eq ?_
  calc ((0 : Half) ++ (b ++ (0x20 : Byte))).toNat
    _ = (b ++ (0x20 : Byte)).toNat := by
      rw [BitVec.toNat_append, show (0 : Half).toNat = 0 from rfl, Nat.zero_shiftLeft, Nat.zero_or]
    _ = (BitVec.ofNat 32 (0x20 + b.toNat * 2 ^ 8)).toNat := by
      rw [hlow, BitVec.toNat_ofNat, Nat.mod_eq_of_lt (by omega)]

/-- Settles O39: the two sides of RX_PUSH's check for room. -/
theorem rxPushAppendsByte : Obligations.RxPushAppendsByte := fun b _ =>
  ⟨encode_rxPush b ▸ decodeOfEncode (.rxPush b) rfl, fun hroom => if_neg hroom,
    fun hfull => if_pos hfull⟩

end Sys2Proof.Machine

/-! ## RX_POLL (R163)

The resynchronisation loop as a function of RX alone: one equation for each of its four ways on, and
the induction that follows them. What R163, R164, R166 and R251 say of a poll is read off these. -/

namespace Sys2Proof.Machine

/-! ### Bytes of a shifted and of a cut sequence -/

theorem byteAt_drop (b : List Byte) (k i : Nat) : byteAt (b.drop k) i = byteAt b (k + i) := by
  simp [byteAt, List.getD_eq_getElem?_getD]

theorem byteAt_take (b : List Byte) {n i : Nat} (h : i < n) : byteAt (b.take n) i = byteAt b i := by
  simp [byteAt, List.getD_eq_getElem?_getD, List.getElem?_take_of_lt h]

theorem u16At_take (b : List Byte) {n i : Nat} (h : i + 1 < n) : u16At (b.take n) i = u16At b i := by
  rw [u16At, byteAt_take b (Nat.lt_of_succ_lt h), byteAt_take b h, u16At]

/-! ### What ParseCore looks at (R120) -/

/-- ParseCore looks at no byte past the frame it accepts. -/
theorem parseCore_take {p : Params} {b : List Byte} {expect : Option Kind} {k : Kind} {len : Nat}
    (h : parseCore p b expect = .ok (k, len)) :
    parseCore p (b.take (8 + len)) expect = .ok (k, len) := by
  obtain ⟨hlong, h0, h1, h2, hk, hlen, hallowed, hcrc⟩ := (parseCore_ok_iff _ _ _ _ _).mp h
  have hspan : ((b.take (8 + len)).drop 2).take (4 + len) = (b.drop 2).take (4 + len) := by
    rw [List.drop_take, List.take_take, Nat.min_eq_left (by omega)]
  refine (parseCore_ok_iff _ _ _ _ _).mpr ⟨?_, ?_, ?_, ?_, ?_, ?_, hallowed, ?_⟩
  · rw [List.length_take_of_le hlong]
  · rwa [byteAt_take b (by omega)]
  · rwa [byteAt_take b (by omega)]
  · rwa [byteAt_take b (by omega)]
  · rwa [byteAt_take b (by omega)]
  · rwa [u16At_take b (by omega)]
  · rwa [u16At_take b (by omega), hspan]

/-- The kind a frame was accepted as may be asked for by name (R120, stage 4). -/
theorem parseCore_of_any {p : Params} {b : List Byte} {k : Kind} {len : Nat} (hp : p.WellFormed)
    (h : parseCore p b none = .ok (k, len)) : parseCore p b (some k) = .ok (k, len) := by
  obtain ⟨hlong, h0, h1, h2, hk, hrest⟩ := (parseCore_ok_iff _ _ _ _ _).mp h
  have htype := (kindOfType_eq_some_iff hp _ _).mp hk
  exact (parseCore_ok_iff _ _ _ _ _).mpr
    ⟨hlong, h0, h1, h2, (acceptedKind_some_iff _ _ _ _).mpr ⟨htype, rfl⟩, hrest⟩

/-- A frame that is not yet whole is shorter than the longest frame there is (R111, R251). -/
theorem length_lt_of_insufficientData {p : Params} {b : List Byte} {expect : Option Kind}
    (h : parseCore p b expect = .error .insufficientData) : b.length < 208 := by
  by_contra hlong
  have h8 : 8 ≤ b.length := by omega
  by_cases hprefix : byteAt b 0 = p.sync0 ∧ byteAt b 1 = p.sync1
  case neg => rw [parseCore_wrongPrefix h8 (not_and_or.mp hprefix)] at h; cases h
  obtain ⟨h0, h1⟩ := hprefix
  by_cases h2 : byteAt b 2 = p.version
  case neg => rw [parseCore_wrongVersion h8 h0 h1 h2] at h; cases h
  cases hk : acceptedKind p expect (byteAt b 3) with
  | none => rw [parseCore_wrongType h8 h0 h1 h2 hk] at h; cases h
  | some k =>
    rw [parseCore_of_kind h8 h0 h1 h2 hk] at h
    split at h
    · cases h
    next hallowed =>
      have hle := lenOK_le (Bool.eq_true_of_not_eq_false hallowed)
      rw [if_neg (by omega)] at h
      split at h <;> cases h

/-! ### The four ways on -/

/-- What the loop makes of these bytes of RX (R163, R166). -/
def pollOf (p : Params) (rx : List Byte) : PollEnd := pollLoop p (rx.length + 1) rx

theorem pollEnd_eq_pollOf (s : State) : pollEnd s = pollOf s.params s.rx := rfl

section Ways

variable {p : Params} {rx : List Byte} {k : Nat}

theorem pollOf_noPrefix (h : ∀ i, ¬ PrefixAt p rx i) :
    pollOf p rx = ⟨if rx.length = 256 then [] else rx, none⟩ := by
  have hempty : discard rx.length rx = [] := List.drop_length
  rw [pollOf, pollLoop_succ, findPrefix_eq_none_iff.mpr h, hempty]
  rfl

theorem pollOf_incomplete (hk : FirstPrefixAt p rx k)
    (h : parseCore p (rx.drop k) none = .error .insufficientData) :
    pollOf p rx = ⟨rx.drop k, none⟩ := by
  simp only [pollOf, pollLoop_succ, findPrefix_eq_some_iff.mpr hk, discard, h]

theorem pollOf_retry (hk : FirstPrefixAt p rx k) {c : StatusCode} (hc : c ≠ .insufficientData)
    (h : parseCore p (rx.drop k) none = .error c) : pollOf p rx = pollOf p (rx.drop (k + 1)) := by
  have hfuel : (rx.drop (k + 1)).length < rx.length := by
    have := hk.1.1
    rw [List.length_drop]
    omega
  simp only [pollOf, pollLoop_succ p rx.length, findPrefix_eq_some_iff.mpr hk, discard, h,
    List.drop_drop, pollLoop_fuel p _ _ hfuel]

theorem pollOf_frame (hk : FirstPrefixAt p rx k) {kind : Kind} {len : Nat}
    (h : parseCore p (rx.drop k) none = .ok (kind, len)) :
    pollOf p rx = ⟨rx.drop (k + (8 + len)),
      some ((rx.drop k).take (8 + len), byteAt (rx.drop k) 3)⟩ := by
  simp only [pollOf, pollLoop_succ, findPrefix_eq_some_iff.mpr hk, discard, h, List.drop_drop]
  rfl

end Ways

/-- Induction along the loop: a property of RX that holds where the loop ends, and that a retry hands
on, holds of every RX. -/
theorem poll_induction (p : Params) {motive : List Byte → Prop}
    (noPrefix : ∀ rx, (∀ i, ¬ PrefixAt p rx i) → motive rx)
    (incomplete : ∀ rx k, FirstPrefixAt p rx k →
      parseCore p (rx.drop k) none = .error .insufficientData → motive rx)
    (retry : ∀ rx k c, FirstPrefixAt p rx k → c ≠ .insufficientData →
      parseCore p (rx.drop k) none = .error c → motive (rx.drop (k + 1)) → motive rx)
    (frame : ∀ rx k kind len, FirstPrefixAt p rx k →
      parseCore p (rx.drop k) none = .ok (kind, len) → motive rx)
    (rx : List Byte) : motive rx := by
  induction hn : rx.length using Nat.strong_induction_on generalizing rx with
  | _ n ih =>
    subst hn
    cases hfind : findPrefix p rx with
    | none => exact noPrefix rx (findPrefix_eq_none_iff.mp hfind)
    | some k =>
      have hk := findPrefix_eq_some_iff.mp hfind
      cases hparse : parseCore p (rx.drop k) none with
      | ok accepted => exact frame rx k accepted.1 accepted.2 hk hparse
      | error c =>
        by_cases hc : c = .insufficientData
        · exact incomplete rx k hk (hc ▸ hparse)
        · have hlt : (rx.drop (k + 1)).length < rx.length := by
            have := hk.1.1
            rw [List.length_drop]
            omega
          exact retry rx k c hk hc hparse (ih _ hlt _ rfl)

/-! ### The command -/

theorem exec_rxPoll_noFrame {s : State} {rx : List Byte} (h : pollOf s.params s.rx = ⟨rx, none⟩) :
    exec .rxPoll s = .next { s with rx := rx, code := .noFrame } := by
  simp only [exec, execRxPoll, pollEnd_eq_pollOf, h]
  rfl

theorem exec_rxPoll_frame {s : State} {rx bytes : List Byte} {ty : Byte}
    (h : pollOf s.params s.rx = ⟨rx, some (bytes, ty)⟩) :
    exec .rxPoll s = .next { s with
      rx := rx
      fbuf := s.fbuf.writeBytes 0 bytes
      res := { s.res with w0 := BitVec.ofNat 32 bytes.length, w1 := ty.setWidth 32 }
      code := .ok } := by
  simp only [exec, execRxPoll, pollEnd_eq_pollOf, h]
  rfl

/-- RX comes into a poll only through the loop. -/
theorem exec_rxPoll_congr {s : State} {rx : List Byte}
    (h : pollOf s.params s.rx = pollOf s.params rx) :
    exec .rxPoll s = exec .rxPoll { s with rx := rx } := by
  simp only [exec, execRxPoll, pollEnd_eq_pollOf, h]
  rfl

/-- All that RX_POLL can do: NO_FRAME with nothing but RX changed, or a frame delivered. -/
theorem exec_rxPoll_cases {s t : State} (h : exec .rxPoll s = .next t) :
    (∃ rx, pollOf s.params s.rx = ⟨rx, none⟩ ∧ t = { s with rx := rx, code := .noFrame }) ∨
    ∃ rx bytes ty, pollOf s.params s.rx = ⟨rx, some (bytes, ty)⟩ ∧ t = { s with
      rx := rx
      fbuf := s.fbuf.writeBytes 0 bytes
      res := { s.res with w0 := BitVec.ofNat 32 bytes.length, w1 := ty.setWidth 32 }
      code := .ok } := by
  match hpoll : pollOf s.params s.rx with
  | ⟨rx, none⟩ =>
    rw [exec_rxPoll_noFrame hpoll] at h
    cases h
    exact .inl ⟨rx, rfl, rfl⟩
  | ⟨rx, some (bytes, ty)⟩ =>
    rw [exec_rxPoll_frame hpoll] at h
    cases h
    exact .inr ⟨rx, bytes, ty, rfl, rfl⟩

/-- Settles O40: the equations of the four ways on, and the bytes that a delivery writes. -/
theorem rxPollLoopSteps : Obligations.RxPollLoopSteps := by
  intro s
  refine ⟨decodeOfEncode .rxPoll rfl, fun hnone => exec_rxPoll_noFrame (pollOf_noPrefix hnone),
    fun k hk => ⟨fun hcut => exec_rxPoll_noFrame (pollOf_incomplete hk hcut),
      fun c hc hbad => exec_rxPoll_congr (pollOf_retry hk hc hbad), fun kind len hok => ?_⟩⟩
  obtain ⟨hlong, -⟩ := (parseCore_ok_iff _ _ _ _ _).mp hok
  have hlen : ((s.rx.drop k).take (8 + len)).length = 8 + len := List.length_take_of_le hlong
  have hexec := exec_rxPoll_frame (pollOf_frame hk hok)
  rw [hlen, byteAt_drop] at hexec
  refine ⟨_, hexec, fun a ha => ?_, fun a ha => ?_⟩
  · rw [Memory.read_writeBytes, hlen, if_pos (by omega), ← byteAt_drop, ← byteAt_take _ ha]
    rfl
  · rw [Memory.read_writeBytes, hlen, if_neg (by omega)]

/-! ### Progress (R161, R166, R251) -/

/-- What R251 says of an RX that NO_FRAME leaves: there is nothing to start a frame with, or a frame
that is not yet whole starts at the front. -/
def AwaitsBytes (p : Params) (rx : List Byte) : Prop :=
  (∀ i, ¬ PrefixAt p rx i) ∨
    (PrefixAt p rx 0 ∧ rx.length < 208 ∧ parseCore p rx none = .error .insufficientData)

theorem not_prefixAt_nil (p : Params) (i : Nat) : ¬ PrefixAt p [] i :=
  fun h => Nat.not_lt_zero _ h.1

theorem PrefixAt.drop {p : Params} {rx : List Byte} {k : Nat} (h : PrefixAt p rx k) :
    PrefixAt p (rx.drop k) 0 := by
  obtain ⟨hin, h0, h1⟩ := h
  refine ⟨?_, (byteAt_drop rx k 0).trans h0, (byteAt_drop rx k 1).trans h1⟩
  rw [List.length_drop]
  omega

/-- The loop discards from the front (R161). -/
theorem pollOf_suffix (p : Params) (rx : List Byte) : ∃ k, (pollOf p rx).rx = rx.drop k := by
  induction rx using poll_induction p with
  | noPrefix rx h =>
    rw [pollOf_noPrefix h]
    dsimp only
    split
    · exact ⟨rx.length, List.drop_length.symm⟩
    · exact ⟨0, rfl⟩
  | incomplete rx k hk h => exact ⟨k, by rw [pollOf_incomplete hk h]⟩
  | retry rx k c hk hc h ih =>
    obtain ⟨j, hj⟩ := ih
    exact ⟨k + 1 + j, by rw [pollOf_retry hk hc h, hj, List.drop_drop]⟩
  | frame rx k kind len hk h => exact ⟨k + (8 + len), by rw [pollOf_frame hk h]⟩

/-- A full RX has room after a poll (R166). -/
theorem pollOf_room (p : Params) (rx : List Byte) (hrx : rx.length ≤ 256) :
    (pollOf p rx).rx.length < 256 := by
  induction rx using poll_induction p with
  | noPrefix rx h =>
    rw [pollOf_noPrefix h]
    dsimp only
    split
    · decide
    · omega
  | incomplete rx k hk h =>
    rw [pollOf_incomplete hk h]
    exact (length_lt_of_insufficientData h).trans (by decide)
  | retry rx k c hk hc h ih =>
    rw [pollOf_retry hk hc h]
    refine ih ?_
    rw [List.length_drop]
    omega
  | frame rx k kind len hk h =>
    have := hk.1.1
    rw [pollOf_frame hk h, List.length_drop]
    omega

/-- After NO_FRAME nothing is left for the loop to do until more bytes come (R251). -/
theorem pollOf_awaitsBytes (p : Params) (rx : List Byte) (hnone : (pollOf p rx).frame = none) :
    AwaitsBytes p (pollOf p rx).rx := by
  induction rx using poll_induction p with
  | noPrefix rx h =>
    rw [pollOf_noPrefix h]
    dsimp only
    split
    · exact .inl (not_prefixAt_nil p)
    · exact .inl h
  | incomplete rx k hk h =>
    rw [pollOf_incomplete hk h]
    exact .inr ⟨hk.1.drop, length_lt_of_insufficientData h, h⟩
  | retry rx k c hk hc h ih =>
    rw [pollOf_retry hk hc h] at hnone ⊢
    exact ih hnone
  | frame rx k kind len hk h =>
    rw [pollOf_frame hk h] at hnone
    cases hnone

/-- Settles O41: the RX that a poll leaves is the loop's. -/
theorem pollProgress : Obligations.PollProgress := by
  intro s t hrx hexec
  have suffix := pollOf_suffix s.params s.rx
  have room := pollOf_room s.params s.rx hrx
  have awaits := pollOf_awaitsBytes s.params s.rx
  rcases exec_rxPoll_cases hexec with ⟨rx, hpoll, rfl⟩ | ⟨rx, bytes, ty, hpoll, rfl⟩ <;>
    rw [hpoll] at suffix room awaits
  · exact ⟨suffix, room, fun _ => awaits rfl⟩
  · exact ⟨suffix, room, fun hcode => by cases hcode⟩

/-! ### The delivered frame (R164) -/

/-- A delivered frame is one that ParseCore accepts, whole and with nothing after it, and its type
byte is the frame's. -/
theorem pollOf_delivers (p : Params) (rx : List Byte) {bytes : List Byte} {ty : Byte}
    (hframe : (pollOf p rx).frame = some (bytes, ty)) :
    ∃ kind len, parseCore p bytes none = .ok (kind, len) ∧ bytes.length = 8 + len ∧
      ty = byteAt bytes 3 := by
  induction rx using poll_induction p with
  | noPrefix rx h => rw [pollOf_noPrefix h] at hframe; cases hframe
  | incomplete rx k hk h => rw [pollOf_incomplete hk h] at hframe; cases hframe
  | retry rx k c hk hc h ih =>
    rw [pollOf_retry hk hc h] at hframe
    exact ih hframe
  | frame rx k kind len hk h =>
    rw [pollOf_frame hk h] at hframe
    cases hframe
    obtain ⟨hlong, -⟩ := (parseCore_ok_iff _ _ _ _ _).mp h
    exact ⟨kind, len, parseCore_take h, List.length_take_of_le hlong,
      (byteAt_take _ (by omega)).symm⟩

theorem Memory.slice_writeBytes (m : Memory) (a : Nat) (b : List Byte) :
    (m.writeBytes a b).slice a b.length = b := by
  refine Memory.slice_eq_of_read fun i hi => ?_
  rw [Memory.read_writeBytes, if_pos (by omega), Nat.add_sub_cancel_left]
  rfl

/-- RES1 tells the type bytes apart (R8, R163). -/
theorem setWidth_typeByte_inj {p : Params} (hp : p.WellFormed) {k k' : Kind}
    (h : (typeByte p k).setWidth 32 = (typeByte p k').setWidth 32) : k = k' := by
  refine typeByte_injective hp (BitVec.eq_of_toNat_eq ?_)
  have hnat := congrArg BitVec.toNat h
  rwa [BitVec.toNat_setWidth_of_le (by decide), BitVec.toNat_setWidth_of_le (by decide)] at hnat

/-- Settles O42: FBUF[0 .. RES0) is the frame that the loop's ParseCore accepted. -/
theorem deliveredFramesParse : Obligations.DeliveredFramesParse := by
  intro s t hp hexec hcode
  rcases exec_rxPoll_cases hexec with ⟨rx, -, rfl⟩ | ⟨rx, bytes, ty, hpoll, rfl⟩
  · cases hcode
  obtain ⟨k, len, hparse, hlen, rfl⟩ :=
    pollOf_delivers s.params s.rx (congrArg PollEnd.frame hpoll)
  obtain ⟨-, -, -, -, hkind, -, hallowed, -⟩ := (parseCore_ok_iff _ _ _ _ _).mp hparse
  have htype : typeByte s.params k = byteAt bytes 3 := (kindOfType_eq_some_iff hp _ _).mp hkind
  have hle := lenOK_le hallowed
  have hres0 : (BitVec.ofNat 32 bytes.length).toNat = bytes.length := by
    rw [BitVec.toNat_ofNat, Nat.mod_eq_of_lt (by omega)]
  have hslice := Memory.slice_writeBytes s.fbuf 0 bytes
  rw [← htype]
  dsimp only
  rw [hres0, hslice]
  refine ⟨k, rfl, ⟨len, hparse⟩, fun k' hk' => ?_⟩
  obtain rfl := setWidth_typeByte_inj hp hk'
  refine ⟨_, exec_parse_ok (len := len) ?_, rfl⟩
  rw [parseFbuf_eq_parseCore (by omega)]
  dsimp only
  rw [hslice, parseCore_of_any hp hparse]
  rfl

end Sys2Proof.Machine

/-! ## The filter (43_iir)

R181 on exact values, R182 from the search's settled attempt, and the effect of each of the filter's
commands. PID_RESET (R203) stands here with IIR_RESET (R186), which it mirrors. -/

namespace Sys2Proof.Machine

open Config (Coef)

/-! ### Valid (R181) -/

/-- `fgt` against zero, on the exact value. -/
theorem fgt_posZero_iff {a : F32} (ha : isfinite a = true) :
    fgt a posZero = true ↔ 0 < f32Value a := by
  have hzero : f32Value posZero = 0 := by rw [f32Value, units_posZero, Int.cast_zero, zero_div]
  simp [fgt, flt_iff_f32Value, isnan_of_isfinite ha, hzero]

/-- Doubling units is exact, so the last comparison of `Valid` is with fs / 2 unrounded. -/
theorem two_mul_units_lt_iff (a b : F32) : 2 * units a < units b ↔ f32Value a < f32Value b / 2 := by
  have hscale : f32Value b / 2 = (units b : ℚ) / 2 / 2 ^ 149 := by rw [f32Value, div_right_comm]
  rw [hscale, f32Value, div_lt_div_iff_of_pos_right (by positivity), lt_div_iff₀ two_pos, mul_comm]
  exact_mod_cast Iff.rfl

/-- Settles O43: the model's comparisons, one for one, on exact values. -/
theorem validParamsMeaning : Obligations.ValidParamsMeaning := by
  intro fc fs
  simp only [validParams, Bool.and_eq_true, decide_eq_true_eq, two_mul_units_lt_iff, and_assoc]
  refine and_congr_right fun hfc => and_congr_right fun hfs => ?_
  rw [fgt_posZero_iff hfc, fgt_posZero_iff hfs]

/-! ### Coefs (R182) -/

/-- The zero A1 is +0.0 (log 6). -/
theorem coef_a1_of_quarter {fc fs : F32} (hq : 4 * unitsAbs fc = unitsAbs fs) :
    coef .a1 fc fs = posZero :=
  if_pos ⟨rfl, hq⟩

section Coefs

variable {fc fs : F32} (h : validParams fc fs = true)
include h

/-- The model's test for the zero A1, on exact values. -/
theorem four_mul_unitsAbs_eq_iff :
    4 * unitsAbs fc = unitsAbs fs ↔ f32Value fs = 4 * f32Value fc := by
  obtain ⟨-, -, hsc, hss, -⟩ := validParams_units h
  have hvalue : f32Value fs = 4 * f32Value fc ↔ (units fs : ℚ) = 4 * units fc := by
    rw [f32Value, f32Value, ← mul_div_assoc, div_left_inj' (by positivity)]
  rw [hvalue, eq_comm]
  simp only [units, hsc, hss, Bool.false_eq_true, if_false]
  norm_cast

/-- The converse of `cos_theta_eq_zero`. -/
theorem cos_theta_of_quarter (hq : 4 * unitsAbs fc = unitsAbs fs) : Real.cos (theta fc fs) = 0 := by
  obtain ⟨-, -, -, -, hpos, -⟩ := validParams_units h
  have hne : (unitsAbs fc : ℝ) ≠ 0 := by exact_mod_cast hpos.ne'
  have htheta : theta fc fs = Real.pi / 2 := by
    rw [theta, ← hq]
    push_cast
    field_simp
    norm_num
  rw [htheta, Real.cos_pi_div_two]

/-- The exact A1 is zero where fs = 4·fc. -/
theorem exactCoef_a1_of_quarter (hq : 4 * unitsAbs fc = unitsAbs fs) :
    exactCoef .a1 fc fs = 0 := by
  rw [exactCoef_eq h, trigNum, cos_theta_of_quarter h hq, mul_zero, zero_div]

/-- A settled attempt rounds correctly: the exact coefficient lies between two ends that round
alike. -/
theorem coefLower_isRNE {c : Coef} {k : Nat}
    (hsettled : coefLower c k (thetaScaled k fc fs) = coefUpper c k (thetaScaled k fc fs)) :
    IsRNE32 (exactCoef c fc fs) (coefLower c k (thetaScaled k fc fs)) := by
  obtain ⟨hden, hlo, hhi, -⟩ := coef_ends k h c
  have hupper := roundFraction_isRNE (coefNum c k (thetaScaled k fc fs) * 2 ^ enclosureBits k +
    coefDen k (thetaScaled k fc fs)) hden
  rw [← coefUpper, ← hsettled] at hupper
  exact (roundFraction_isRNE _ hden).between hupper hlo hhi

theorem coef_isRNE (c : Coef) : IsRNE32 (exactCoef c fc fs) (coef c fc fs) := by
  by_cases hx : c = .a1 ∧ 4 * unitsAbs fc = unitsAbs fs
  · obtain ⟨rfl, hq⟩ := hx
    rw [exactCoef_a1_of_quarter h hq, coef_a1_of_quarter hq]
    exact zero_isRNE false
  · obtain ⟨k, hsettled, hcoef⟩ := coef_settles h hx
    rw [hcoef]
    exact coefLower_isRNE h hsettled

end Coefs

/-- Settles O45: the settled attempt of each coefficient, and the zero A1 apart. -/
theorem coefsCorrectlyRounded : Obligations.CoefsCorrectlyRounded := fun _ _ h =>
  ⟨coef_isRNE h, fun hq => coef_a1_of_quarter ((four_mul_unitsAbs_eq_iff h).mpr hq)⟩

/-! ### The commands (R183 to R186, R203) -/

theorem exec_iirSetparams_valid {s : State} (h : validParams s.arg.w0 s.arg.w1 = true) :
    exec .iirSetparams s = .next { s with
      iir := configure s.arg.w0 s.arg.w1 s.iir, code := .ok } :=
  if_pos h

theorem exec_iirSetparams_invalid {s : State} (h : validParams s.arg.w0 s.arg.w1 = false) :
    exec .iirSetparams s = .next { s with
      iir := { s.iir with configured := false }, code := .paramRejected } :=
  if_neg (Bool.eq_false_iff.mp h)

/-- Settles O44: the two outcomes of Valid. -/
theorem iirSetparamsConfigures : Obligations.IirSetparamsConfigures := fun _ =>
  ⟨decodeOfEncode .iirSetparams rfl, exec_iirSetparams_valid, exec_iirSetparams_invalid⟩

theorem filterOutput_unconfigured {u : IirUnit} (h : u.configured = false) (x : F32) :
    filterOutput u x = x :=
  if_neg (Bool.eq_false_iff.mp h)

theorem filterOutput_configured {u : IirUnit} (h : u.configured = true) (x : F32) :
    filterOutput u x = biquad u x :=
  if_pos h

/-- Both of IIR_STEP's modes shift the histories and answer in RES0; only the output differs. -/
theorem exec_iirStep {s : State} {y : F32} (h : filterOutput s.iir s.arg.w0 = y) :
    exec .iirStep s = .next { s with
      iir := shiftHistory s.iir s.arg.w0 y, res := { s.res with w0 := y }, code := .ok } := by
  subst h
  rfl

/-- Settles O46: the output of each mode, in the one step both share. -/
theorem iirStepFilters : Obligations.IirStepFilters := by
  refine fun s => ⟨decodeOfEncode .iirStep rfl,
    fun hoff => exec_iirStep (filterOutput_unconfigured hoff _), ?_⟩
  rintro hon t0 t1 t2 t3 y rfl rfl rfl rfl rfl
  exact exec_iirStep (filterOutput_configured hon _)

/-- Settles O47: each reset is one update of its own unit, with +0.0 in the fields it clears. -/
theorem unitResetsClearState : Obligations.UnitResetsClearState := fun _ =>
  ⟨decodeOfEncode .iirReset rfl, decodeOfEncode .pidReset rfl, rfl, rfl⟩

end Sys2Proof.Machine

/-! ## The PID controller (44_pid)

What each command of the controller leaves, per outcome, and of PID_STEP all that it can do
(`exec_pidStep_cases`). Its bounds are the clamp's between opposite legal limits; that a first step
does not depend on KD is said up to the sign of a zero, by `SameNumber`. -/

namespace Sys2Proof.Machine

/-! ### The gains and the limits (R200, R201) -/

theorem exec_pidSetGains_finite {s : State} (hp : isfinite s.arg.w0 = true)
    (hi : isfinite s.arg.w1 = true) (hd : isfinite s.arg.w2 = true) :
    exec .pidSetGains s = .next { s with
      pid := { s.pid with kp := s.arg.w0, ki := s.arg.w1, kd := s.arg.w2 }, code := .ok } :=
  if_pos (by rw [hp, hi, hd]; rfl)

theorem exec_pidSetGains_refused {s : State}
    (h : isfinite s.arg.w0 = false ∨ isfinite s.arg.w1 = false ∨ isfinite s.arg.w2 = false) :
    exec .pidSetGains s = .next { s with code := .badArg } :=
  if_neg (by rcases h with h | h | h <;> simp [h])

/-- Settles O48: the two outcomes of the check for finite gains. -/
theorem pidSetGainsStores : Obligations.PidSetGainsStores := fun _ =>
  ⟨decodeOfEncode .pidSetGains rfl, exec_pidSetGains_finite, exec_pidSetGains_refused⟩

theorem badLimit_iff (m : F32) : badLimit m = true ↔ isnan m = true ∨ flt m posZero = true :=
  Bool.or_eq_true_iff

theorem badLimit_eq_false {m : F32} (h : ¬ (isnan m = true ∨ flt m posZero = true)) :
    badLimit m = false :=
  Bool.eq_false_iff.mpr (mt (badLimit_iff m).mp h)

theorem exec_pidSetLimits_legal {s : State} (hI : badLimit s.arg.w0 = false)
    (hO : badLimit s.arg.w1 = false) :
    exec .pidSetLimits s = .next { s with
      pid := { s.pid with maxI := storedLimit s.arg.w0, maxO := storedLimit s.arg.w1 }
      code := .ok } :=
  if_neg (by rw [hI, hO]; exact Bool.false_ne_true)

theorem exec_pidSetLimits_refused {s : State}
    (h : badLimit s.arg.w0 = true ∨ badLimit s.arg.w1 = true) :
    exec .pidSetLimits s = .next { s with code := .badArg } :=
  if_pos ((Bool.or_eq_true _ _).mpr h)

/-- Settles O49: `badLimit` is the refusal of R201, and `storedLimit` what is stored otherwise. -/
theorem pidSetLimitsStores : Obligations.PidSetLimitsStores := fun _ =>
  ⟨decodeOfEncode .pidSetLimits rfl,
    fun hI hO => exec_pidSetLimits_legal (badLimit_eq_false hI) (badLimit_eq_false hO),
    fun h => exec_pidSetLimits_refused (h.imp (badLimit_iff _).mpr (badLimit_iff _).mpr)⟩

/-! ### PID_STEP (R202) -/

theorem pidDerivative_first {u : PidUnit} (h : u.first = true) (e dt : F32) :
    pidDerivative u e dt = posZero :=
  if_pos h

theorem pidDerivative_later {u : PidUnit} (h : u.first = false) (e dt : F32) :
    pidDerivative u e dt = fdiv (fsub e u.prev) dt :=
  if_neg (Bool.eq_false_iff.mp h)

/-- What an OK PID_STEP leaves of the state it started in. -/
def steppedPid (s : State) : State := { s with
  pid := { s.pid with
    integ := pidIntegral s.pid s.arg.w0 s.arg.w1, prev := s.arg.w0, first := false }
  res := { s.res with w0 := pidOutput s.pid s.arg.w0 s.arg.w1 }
  code := .ok }

theorem exec_pidStep_ok {s : State} (hdt : fgt s.arg.w1 posZero = true) :
    exec .pidStep s = .next (steppedPid s) :=
  if_pos hdt

theorem exec_pidStep_ignored {s : State} (hdt : fgt s.arg.w1 posZero = false) :
    exec .pidStep s = .next { s with res := { s.res with w0 := posZero }, code := .dtIgnored } :=
  if_neg (Bool.eq_false_iff.mp hdt)

/-- All that PID_STEP can do: an OK step, or none. -/
theorem exec_pidStep_cases {s t : State} (h : exec .pidStep s = .next t) :
    t = steppedPid s ∨
      t = { s with res := { s.res with w0 := posZero }, code := .dtIgnored } := by
  cases hdt : fgt s.arg.w1 posZero with
  | true => exact .inl (Host.Outcome.next.inj (h.symm.trans (exec_pidStep_ok hdt)))
  | false => exact .inr (Host.Outcome.next.inj (h.symm.trans (exec_pidStep_ignored hdt)))

/-- Settles O50: the model's derivative is R202's in either mode. -/
theorem pidStepComputes : Obligations.PidStepComputes := by
  refine fun s => ⟨decodeOfEncode .pidStep rfl, exec_pidStep_ignored, ?_⟩
  rintro hdt i d u rfl hfirst hlater rfl
  have hd : d = pidDerivative s.pid s.arg.w0 s.arg.w1 := by
    cases hf : s.pid.first with
    | true => rw [hfirst hf, pidDerivative_first hf]; rfl
    | false => rw [hlater hf, pidDerivative_later hf]
  subst hd
  exact exec_pidStep_ok hdt

/-! ### The output and the integral stay within their limits (R204, R206) -/

theorem f32Value_nonneg_of_fsign {m : F32} (h : fsign m = false) : 0 ≤ f32Value m := by
  rw [f32Value, units, h, if_neg Bool.false_ne_true]
  positivity

/-- The converse of `flt_eq_false_of_le`, for operands that compare. -/
theorem f32Value_le_of_flt_eq_false {a b : F32} (ha : isnan a = false) (hb : isnan b = false)
    (h : flt a b = false) : f32Value b ≤ f32Value a :=
  not_lt.mp fun hlt => by
    rw [(flt_iff_f32Value a b).mpr ⟨ha, hb, hlt⟩] at h
    cases h

/-- A clamp between a legal limit and its negation (R34) bounds the magnitude. -/
theorem clampf_within_limit (v : F32) {m : F32} (hm : LegalLimit m) :
    isnan (clampf v (fneg m) m) = true ∨ |f32Value (clampf v (fneg m) m)| ≤ f32Value m := by
  obtain ⟨hnan, hsign⟩ := hm
  have habs : |f32Value m| = f32Value m := abs_of_nonneg (f32Value_nonneg_of_fsign hsign)
  rcases clampf_cases v (fneg m) m with
    ⟨-, h⟩ | ⟨-, -, h⟩ | ⟨-, -, -, h⟩ | ⟨hv, hlo, hhi, h⟩ <;> rw [h]
  · exact .inl isnan_canonicalNaN
  · exact .inr (by rw [f32Value_fneg, abs_neg, habs])
  · exact .inr habs.le
  · have hlower := f32Value_le_of_flt_eq_false hv ((isnan_fneg m).trans hnan) hlo
    rw [f32Value_fneg] at hlower
    exact .inr (abs_le.mpr ⟨hlower, f32Value_le_of_flt_eq_false hnan hv hhi⟩)

/-- Settles O51: the output and the integral are each clamped by a legal limit, and the step keeps
the limits. -/
theorem pidOutputWithinLimits : Obligations.PidOutputWithinLimits := by
  intro s t hinv hexec hok
  obtain ⟨hmaxI, hmaxO⟩ := hinv.limits
  rcases exec_pidStep_cases hexec with rfl | rfl
  · exact ⟨clampf_within_limit _ hmaxO, clampf_within_limit _ hmaxI, rfl, rfl⟩
  · cases hok

/-! ### The first step (R205) -/

/-- The same number, or both NaN: equality but for the sign of a zero and the bits of a NaN. -/
structure SameNumber (a b : F32) : Prop where
  units : units a = units b
  isnan : isnan a = isnan b

theorem SameNumber.refl (a : F32) : SameNumber a a := ⟨rfl, rfl⟩

theorem SameNumber.of_zeros (p q : Prop) [Decidable p] [Decidable q] :
    SameNumber (if p then negZero else posZero) (if q then negZero else posZero) := by
  split <;> split <;> exact ⟨by decide, by decide⟩

/-- A sum takes a finite operand as a number: the sign of a zero reaches a zero sum only (log 7). -/
theorem fadd_sameNumber_right (a : F32) {b c : F32} (hb : isfinite b = true)
    (hc : isfinite c = true) (hbc : units b = units c) : SameNumber (fadd a b) (fadd a c) := by
  rcases f32_class a with ⟨ha, -, -⟩ | ⟨-, ha, -⟩ | ⟨-, -, ha⟩
  · by_cases h0 : units a + units b = 0
    · rw [fadd_finite_zero ha hb h0, fadd_finite_zero ha hc (hbc ▸ h0)]
      exact .of_zeros _ _
    · rw [fadd_finite ha hb h0, fadd_finite ha hc (hbc ▸ h0), hbc]
      exact .refl _
  · have hsum {x : F32} (hx : isfinite x = true) : fadd a x = a :=
      fadd_inf_left ha (isnan_of_isfinite hx) fun hinf => by
        rw [isinf_of_isfinite hx] at hinf
        cases hinf
    rw [hsum hb, hsum hc]
    exact .refl _
  · rw [fadd_of_isnan (.inl ha), fadd_of_isnan (.inl ha)]
    exact .refl _

theorem flt_sameNumber {v w : F32} (h : SameNumber v w) (x : F32) :
    flt v x = flt w x ∧ flt x v = flt x w := by
  simp only [flt, h.units, h.isnan, and_self]

/-- The clamp compares numbers, so it takes one number to one number. -/
theorem clampf_sameNumber {v w : F32} (h : SameNumber v w) (lo hi : F32) :
    SameNumber (clampf v lo hi) (clampf w lo hi) := by
  obtain ⟨hlo, -⟩ := flt_sameNumber h lo
  obtain ⟨-, hhi⟩ := flt_sameNumber h hi
  unfold clampf fgt
  rw [h.isnan, hlo, hhi]
  split_ifs
  · exact .refl _
  · exact .refl _
  · exact .refl _
  · exact h

/-- A finite gain times the first step's derivative is a zero of the gain's sign. -/
theorem fmul_posZero {k : F32} (hk : isfinite k = true) :
    fmul k posZero = if fsign k then negZero else posZero := by
  have hzero : unitsAbs posZero = 0 := by decide
  rw [fmul_finite hk isfinite_posZero, hzero, mul_zero]
  cases fsign k <;> decide

theorem fmul_posZero_sameNumber {k l : F32} (hk : isfinite k = true) (hl : isfinite l = true) :
    SameNumber (fmul k posZero) (fmul l posZero) := by
  rw [fmul_posZero hk, fmul_posZero hl]
  exact .of_zeros _ _

theorem isfinite_fmul_posZero {k : F32} (hk : isfinite k = true) :
    isfinite (fmul k posZero) = true := by
  rw [fmul_posZero hk]
  split <;> decide

section FirstStep

variable {u : PidUnit} (hfirst : u.first = true) (e dt : F32)
include hfirst

/-- The first step's output: R202's formula with d = +0.0. -/
theorem pidOutput_first : pidOutput u e dt =
    clampf (fadd (fadd (fmul u.kp e) (fmul u.ki (pidIntegral u e dt))) (fmul u.kd posZero))
      (fneg u.maxO) u.maxO := by
  rw [pidOutput, pidDerivative_first hfirst]

/-- The first step's output does not take the previous error. -/
theorem pidOutput_first_prev (x : F32) :
    pidOutput { u with prev := x } e dt = pidOutput u e dt :=
  (pidOutput_first (u := { u with prev := x }) hfirst e dt).trans (pidOutput_first hfirst e dt).symm

/-- The first step's output takes a finite derivative gain to the sign of a zero only. -/
theorem pidOutput_first_kd {kd : F32} (hu : isfinite u.kd = true) (hkd : isfinite kd = true) :
    SameNumber (pidOutput { u with kd := kd } e dt) (pidOutput u e dt) := by
  rw [pidOutput_first hfirst, pidOutput_first (u := { u with kd := kd }) hfirst]
  exact clampf_sameNumber (fadd_sameNumber_right _ (isfinite_fmul_posZero hkd)
    (isfinite_fmul_posZero hu) (fmul_posZero_sameNumber hkd hu).units) _ _

end FirstStep

/-- On a first step the previous error is not read, and it is overwritten. -/
theorem steppedPid_first_prev {s : State} (hfirst : s.pid.first = true) (x : F32) :
    steppedPid { s with pid := { s.pid with prev := x } } = steppedPid s := by
  simp only [steppedPid, pidOutput_first_prev hfirst]
  rfl

/-- Settles O52: the first derivative is +0.0, and a finite KD times that is a zero. -/
theorem firstStepDerivative : Obligations.FirstStepDerivative := by
  refine ⟨fun s x kd hfirst hdt hskd hkd => ?_, fun s t hexec hcode => ?_⟩
  · have hsame := pidOutput_first_kd hfirst s.arg.w0 s.arg.w1 hskd hkd
    exact ⟨_, _, _, exec_pidStep_ok hdt, exec_pidStep_ok hdt, exec_pidStep_ok hdt,
      steppedPid_first_prev hfirst x, rfl, hsame.units, hsame.isnan⟩
  · rcases exec_pidStep_cases hexec with rfl | rfl
    · cases hcode
    · rfl

end Sys2Proof.Machine

/-! ## After reset, and once a NaN is in (70_reset_and_hazards R243, R254)

R254 follows the NaN through the sums and products of R184 and R202: every output takes the integral it
reaches, and only PID_STEP and PID_RESET write that. R243 is about the gains and limits of reset, with
which every term of R202's output is a zero or, as zero times infinity, a NaN (log 17). -/

namespace Sys2Proof.Machine

theorem isnan_of_eq_canonicalNaN {a : F32} (h : a = canonicalNaN) : isnan a = true := by
  rw [h, isnan_canonicalNaN]

/-! ### The filter: its passthrough, and a NaN in its history -/

theorem exec_iirStep_passthrough {s : State} (hoff : s.iir.configured = false) :
    exec .iirStep s = .next { s with
      iir := shiftHistory s.iir s.arg.w0 s.arg.w0, res := { s.res with w0 := s.arg.w0 }
      code := .ok } :=
  exec_iirStep (filterOutput_unconfigured hoff _)

/-- A NaN in Y1 or Y2 reaches the biquad's output through a product and the last differences (R184). -/
theorem biquad_of_isnan_history {u : IirUnit} (h : isnan u.y1 = true ∨ isnan u.y2 = true) (x : F32) :
    biquad u x = canonicalNaN := by
  have term {c y : F32} (hy : isnan y = true) : isnan (fmul c y) = true :=
    isnan_of_eq_canonicalNaN (fmul_of_isnan (.inr hy))
  refine fsub_of_isnan (h.imp (fun hy1 => ?_) term)
  exact isnan_of_eq_canonicalNaN (fsub_of_isnan (.inr (term hy1)))

/-! ### A NaN in the controller -/

section ControllerNaN

variable {u : PidUnit} {e dt : F32}

theorem pidIntegral_of_isnan (h : isnan u.integ = true ∨ isnan (fmul e dt) = true) :
    pidIntegral u e dt = canonicalNaN :=
  clampf_of_isnan (isnan_of_eq_canonicalNaN (fadd_of_isnan h))

theorem pidIntegral_of_isnan_error (h : isnan e = true) : pidIntegral u e dt = canonicalNaN :=
  pidIntegral_of_isnan (.inr (isnan_of_eq_canonicalNaN (fmul_of_isnan (.inl h))))

/-- A NaN integral makes the output NaN, whatever the gains. -/
theorem pidOutput_of_isnan_integral (h : pidIntegral u e dt = canonicalNaN) :
    pidOutput u e dt = canonicalNaN := by
  have hterm := isnan_of_eq_canonicalNaN
    (fmul_of_isnan (a := u.ki) (.inr (isnan_of_eq_canonicalNaN h)))
  have hsum := isnan_of_eq_canonicalNaN (fadd_of_isnan (a := fmul u.kp e) (.inr hterm))
  exact clampf_of_isnan (isnan_of_eq_canonicalNaN (fadd_of_isnan (.inl hsum)))

theorem pidOutput_of_isnan_derivativeTerm (h : isnan (fmul u.kd (pidDerivative u e dt)) = true) :
    pidOutput u e dt = canonicalNaN :=
  clampf_of_isnan (isnan_of_eq_canonicalNaN (fadd_of_isnan (.inr h)))

end ControllerNaN

/-- An OK step from a NaN integral, or with a NaN error, has a NaN integral and a NaN output. -/
theorem exec_pidStep_of_isnan {s : State} (hdt : fgt s.arg.w1 posZero = true)
    (h : isnan s.pid.integ = true ∨ isnan s.arg.w0 = true) :
    ∃ t, exec .pidStep s = .next t ∧ t.res.w0 = canonicalNaN ∧ t.pid.integ = canonicalNaN := by
  have hinteg : pidIntegral s.pid s.arg.w0 s.arg.w1 = canonicalNaN :=
    h.elim (fun hi => pidIntegral_of_isnan (.inl hi)) pidIntegral_of_isnan_error
  exact ⟨_, exec_pidStep_ok hdt, pidOutput_of_isnan_integral hinteg, hinteg⟩

/-! ### Who writes the integral and the previous error -/

/-- Only the controller's commands have its registers in their footprint. -/
theorem footprint_writes_pid {i : Instr} (hi : unitOf i ≠ .controller) (s t : State) :
    ((footprint i).writes s t).pid = s.pid := by
  cases i
  case pidSetGains | pidSetLimits | pidStep | pidReset => exact absurd rfl hi
  all_goals rfl

/-- Setting gains or limits, or refusing them, keeps the running values (R200, R201). -/
theorem exec_pidSet_keeps {i : Instr} {s t : State} (hi : i = .pidSetGains ∨ i = .pidSetLimits)
    (h : exec i s = .next t) : t.pid.integ = s.pid.integ ∧ t.pid.prev = s.pid.prev := by
  rcases hi with rfl | rfl
  all_goals
    simp only [exec, execPidSetGains, execPidSetLimits] at h
    split at h <;> cases h <;> exact ⟨rfl, rfl⟩

/-- All that a command can do to the integral and the previous error: PID_RESET clears them, an OK
PID_STEP computes them, and every other command keeps them. -/
theorem exec_integ_prev_cases {i : Instr} {s t : State} (h : exec i s = .next t) :
    (i = .pidReset ∧ t.pid.integ = posZero ∧ t.pid.prev = posZero) ∨ t = steppedPid s ∨
      (t.pid.integ = s.pid.integ ∧ t.pid.prev = s.pid.prev) := by
  by_cases hu : unitOf i = .controller
  · cases i
    case pidSetGains => exact .inr (.inr (exec_pidSet_keeps (.inl rfl) h))
    case pidSetLimits => exact .inr (.inr (exec_pidSet_keeps (.inr rfl) h))
    case pidStep =>
      rcases exec_pidStep_cases h with rfl | rfl
      · exact .inr (.inl rfl)
      · exact .inr (.inr ⟨rfl, rfl⟩)
    case pidReset =>
      cases h
      exact .inl ⟨rfl, rfl, rfl⟩
    all_goals cases hu
  · have hpid : t.pid = s.pid := by
      rw [(exec_confined i).frame h, footprint_writes_pid hu]
    exact .inr (.inr ⟨by rw [hpid], by rw [hpid]⟩)

theorem exec_keeps_isnan_integ {i : Instr} {s t : State} (hi : i ≠ .pidReset)
    (h : exec i s = .next t) (hnan : isnan s.pid.integ = true) : isnan t.pid.integ = true := by
  rcases exec_integ_prev_cases h with ⟨rfl, -⟩ | rfl | ⟨hinteg, -⟩
  · exact absurd rfl hi
  · exact isnan_of_eq_canonicalNaN (pidIntegral_of_isnan (.inl hnan))
  · rwa [hinteg]

/-- A NaN previous error comes with a NaN integral: the step that stores it has multiplied it by dt. -/
theorem exec_keeps_isnan_prev_imp {i : Instr} {s t : State} (h : exec i s = .next t)
    (hinv : isnan s.pid.prev = true → isnan s.pid.integ = true) (hprev : isnan t.pid.prev = true) :
    isnan t.pid.integ = true := by
  rcases exec_integ_prev_cases h with ⟨-, -, hzero⟩ | rfl | ⟨hinteg, hkept⟩
  · rw [hzero, isnan_posZero] at hprev
    cases hprev
  · exact isnan_of_eq_canonicalNaN (pidIntegral_of_isnan_error hprev)
  · rw [hinteg]
    exact hinv (by rwa [← hkept])

/-- Settles O53: the NaN through the biquad and through the integral, the two fields' writers, the
resets, and two steps of the passthrough. -/
theorem nanPersistence : Obligations.NanPersistence := by
  refine ⟨fun s hon hnan => ?_, fun _ => exec_pidStep_of_isnan, fun _ _ _ => exec_keeps_isnan_integ,
    fun _ _ _ => exec_keeps_isnan_prev_imp, fun s hinv hprev hdt => ?_,
    fun _ => ⟨_, rfl, isnan_posZero, isnan_posZero⟩,
    fun _ => ⟨_, rfl, isnan_posZero, isnan_posZero⟩, fun s a b hoff => ?_⟩
  · have hy : filterOutput s.iir s.arg.w0 = canonicalNaN :=
      (filterOutput_configured hon _).trans (biquad_of_isnan_history hnan _)
    exact ⟨_, exec_iirStep hy, rfl, rfl, hon⟩
  · obtain ⟨t, hexec, hres, hinteg⟩ := exec_pidStep_of_isnan hdt (.inl (hinv hprev))
    exact ⟨t, hexec, hres, isnan_of_eq_canonicalNaN hinteg⟩
  · exact ⟨_, _, exec_iirStep_passthrough hoff, exec_iirStep_passthrough hoff, rfl, rfl, rfl, rfl⟩

/-! ### Sums and products of zeros -/

theorem f32Value_posZero : f32Value posZero = 0 := (f32Value_eq_zero_iff _).mpr (by decide)

theorem isfinite_of_f32Value_eq_zero {a : F32} (h : f32Value a = 0) : isfinite a = true := by
  rw [isfinite_iff, (unitsAbs_eq_zero_iff a).mp ((f32Value_eq_zero_iff a).mp h)]
  decide

theorem IsRNE32.value_eq_zero {r : F32} (h : IsRNE32 ((0 : ℚ) : ℝ) r) : f32Value r = 0 :=
  h.eq_of_exact (by norm_num) isfinite_posZero f32Value_posZero

theorem f32Value_fadd_zeros {a b : F32} (ha : f32Value a = 0) (hb : f32Value b = 0) :
    f32Value (fadd a b) = 0 := by
  have hsum := fadd_isRNE (isfinite_of_f32Value_eq_zero ha) (isfinite_of_f32Value_eq_zero hb)
  rw [ha, hb, add_zero] at hsum
  exact hsum.value_eq_zero

theorem f32Value_posZero_fmul {a : F32} (ha : isfinite a = true) : f32Value (fmul posZero a) = 0 := by
  have hprod := fmul_isRNE isfinite_posZero ha
  rw [f32Value_posZero, zero_mul] at hprod
  exact hprod.value_eq_zero

/-- Zero times infinity is NaN, as is zero times NaN (log 7). -/
theorem posZero_fmul_of_not_finite {a : F32} (ha : isfinite a = false) :
    fmul posZero a = canonicalNaN := by
  rcases f32_class a with ⟨hfin, -, -⟩ | ⟨-, hinf, hnan⟩ | ⟨-, -, hnan⟩
  · rw [ha] at hfin
    cases hfin
  · exact fmul_inf_zero isnan_posZero hnan (.inr hinf) (.inl (by decide))
  · exact fmul_of_isnan (.inr hnan)

/-- A finite factor's product is a NaN only for zero times infinity and for a NaN factor. -/
theorem isnan_fmul_of_finite {a b : F32} (ha : isfinite a = true) (hb : isnan b = false)
    (h : ¬ (f32Value a = 0 ∧ isinf b = true)) : isnan (fmul a b) = false := by
  cases hinf : isinf b with
  | false => exact (fmul_isRNE ha (isfinite_of_not_inf hb hinf)).not_nan
  | true =>
    have ha0 : unitsAbs a ≠ 0 := fun h0 => h ⟨(f32Value_eq_zero_iff a).mpr h0, hinf⟩
    rw [fmul_inf (isnan_of_isfinite ha) hb (.inr hinf) ha0 (unitsAbs_ne_zero_of_isinf hinf)]
    exact isnan_mkF32_infMagnitude _

theorem isnan_fadd_of_finite {a b : F32} (ha : isfinite a = true) (hb : isnan b = false) :
    isnan (fadd a b) = false := by
  cases hinf : isinf b with
  | false => exact (fadd_isRNE ha (isfinite_of_not_inf hb hinf)).not_nan
  | true => rwa [fadd_inf_right ha hinf]

/-- The clamp between the limits of reset leaves a zero of all but a NaN. -/
theorem f32Value_clampf_zero {v : F32} (hv : isnan v = false) :
    f32Value (clampf v (fneg posZero) posZero) = 0 := by
  have hneg : f32Value (fneg posZero) = 0 := by rw [f32Value_fneg, f32Value_posZero, neg_zero]
  rcases clampf_cases v (fneg posZero) posZero with
    ⟨hnan, -⟩ | ⟨-, -, h⟩ | ⟨-, -, -, h⟩ | ⟨-, hlo, hhi, h⟩
  · rw [hv] at hnan
    cases hnan
  · rw [h, hneg]
  · rw [h, f32Value_posZero]
  · have hlower := f32Value_le_of_flt_eq_false hv ((isnan_fneg _).trans isnan_posZero) hlo
    have hupper := f32Value_le_of_flt_eq_false isnan_posZero hv hhi
    rw [hneg] at hlower
    rw [f32Value_posZero] at hupper
    rw [h]
    exact le_antisymm hupper hlower

/-! ### The controller with the gains and limits of reset -/

/-- The gains and limits that reset leaves (R41), which only PID_SET_GAINS and PID_SET_LIMITS change. -/
structure HasResetConfig (u : PidUnit) : Prop where
  kp : u.kp = posZero
  ki : u.ki = posZero
  kd : u.kd = posZero
  maxI : u.maxI = posZero
  maxO : u.maxO = posZero

theorem isfinite_pidDerivative_iff (u : PidUnit) (e dt : F32) :
    isfinite (pidDerivative u e dt) = true ↔
      u.first = true ∨ isfinite (fdiv (fsub e u.prev) dt) = true := by
  cases hf : u.first with
  | true => simp [pidDerivative_first hf, isfinite_posZero]
  | false => simp [pidDerivative_later hf]

theorem pidIntegral_zero_times_inf (u : PidUnit) {e dt : F32} (he : f32Value e = 0)
    (hdt : isinf dt = true) : pidIntegral u e dt = canonicalNaN :=
  pidIntegral_of_isnan (.inr (isnan_of_eq_canonicalNaN
    (fmul_inf_zero (isnan_of_isfinite (isfinite_of_f32Value_eq_zero he)) (isnan_of_isinf hdt)
      (.inr hdt) (.inl ((f32Value_eq_zero_iff e).mp he)))))

section ResetConfig

variable {u : PidUnit} {e dt : F32} (hu : HasResetConfig u)
include hu

theorem f32Value_pidIntegral_resetConfig (hinteg : f32Value u.integ = 0) (he : isfinite e = true)
    (hdt : isnan dt = false) (h : ¬ (f32Value e = 0 ∧ isinf dt = true)) :
    f32Value (pidIntegral u e dt) = 0 := by
  rw [pidIntegral, hu.maxI]
  exact f32Value_clampf_zero (isnan_fadd_of_finite (isfinite_of_f32Value_eq_zero hinteg)
    (isnan_fmul_of_finite he hdt h))

/-- Every term of R202's sum is a zero gain times a finite value. -/
theorem f32Value_pidOutput_resetConfig (he : isfinite e = true)
    (hinteg : f32Value (pidIntegral u e dt) = 0)
    (hrate : isfinite (pidDerivative u e dt) = true) : f32Value (pidOutput u e dt) = 0 := by
  rw [pidOutput, hu.kp, hu.ki, hu.kd, hu.maxO]
  have hp := f32Value_posZero_fmul he
  have hi := f32Value_posZero_fmul (isfinite_of_f32Value_eq_zero hinteg)
  have hd := f32Value_posZero_fmul hrate
  have hsum := f32Value_fadd_zeros (f32Value_fadd_zeros hp hi) hd
  exact f32Value_clampf_zero (isnan_of_isfinite (isfinite_of_f32Value_eq_zero hsum))

theorem pidOutput_resetConfig_of_not_finite_rate (hrate : isfinite (pidDerivative u e dt) = false) :
    pidOutput u e dt = canonicalNaN :=
  pidOutput_of_isnan_derivativeTerm
    (isnan_of_eq_canonicalNaN (hu.kd ▸ posZero_fmul_of_not_finite hrate))

end ResetConfig

/-- An OK step with the gains and limits of reset: zeros, but for the two products of zero and infinity
(log 17). -/
theorem exec_pidStep_resetConfig {s : State} (hu : HasResetConfig s.pid)
    (he : isfinite s.arg.w0 = true) (hdt : fgt s.arg.w1 posZero = true)
    (hinteg : f32Value s.pid.integ = 0) :
    let zeroTimesInf : Prop := f32Value s.arg.w0 = 0 ∧ isinf s.arg.w1 = true
    let finiteRate : Prop :=
      s.pid.first = true ∨ isfinite (fdiv (fsub s.arg.w0 s.pid.prev) s.arg.w1) = true
    ∃ t, exec .pidStep s = .next t ∧
      t.pid = { s.pid with integ := t.pid.integ, prev := s.arg.w0, first := false } ∧
      (zeroTimesInf → t.res.w0 = canonicalNaN ∧ t.pid.integ = canonicalNaN) ∧
      (¬ zeroTimesInf → f32Value t.pid.integ = 0) ∧
      (¬ zeroTimesInf → finiteRate → f32Value t.res.w0 = 0) ∧
      (¬ finiteRate → t.res.w0 = canonicalNaN) := by
  obtain ⟨-, hnan, -⟩ := (flt_iff posZero s.arg.w1).mp hdt
  dsimp only
  rw [← isfinite_pidDerivative_iff]
  have hzero := f32Value_pidIntegral_resetConfig hu hinteg he hnan
  refine ⟨_, exec_pidStep_ok hdt, rfl, fun ⟨he0, hinf⟩ => ?_, hzero, fun h hrate => ?_, fun hrate => ?_⟩
  · have hi := pidIntegral_zero_times_inf s.pid he0 hinf
    exact ⟨pidOutput_of_isnan_integral hi, hi⟩
  · exact f32Value_pidOutput_resetConfig hu he (hzero h) hrate
  · exact pidOutput_resetConfig_of_not_finite_rate hu (Bool.eq_false_iff.mpr hrate)

/-- Settles O54: the step right after reset is one of those with the gains and limits of reset. A finite
dt, and the +0.0 of a first derivative, leave out the two products of zero and infinity. -/
theorem straightAfterReset : Obligations.StraightAfterReset := by
  intro p a
  refine ⟨fun he hfin hdt => ?_, ⟨_, exec_iirStep_passthrough rfl, rfl⟩,
    fun _ _ _ he hdt hinteg _ => exec_pidStep_resetConfig ⟨rfl, rfl, rfl, rfl, rfl⟩ he hdt hinteg⟩
  obtain ⟨t, hexec, hpid, -, hi, hres, -⟩ := exec_pidStep_resetConfig
    (s := { State.resetWith p with arg := a }) ⟨rfl, rfl, rfl, rfl, rfl⟩ he hdt f32Value_posZero
  have hcase : ¬ (f32Value a.w0 = 0 ∧ isinf a.w1 = true) := fun ⟨_, hinf⟩ => by
    rw [isinf_of_isfinite hfin] at hinf
    cases hinf
  have units_zero {x : F32} (hx : f32Value x = 0) : units x = 0 :=
    (units_eq_zero_iff x).mpr ((f32Value_eq_zero_iff x).mp hx)
  have hi0 := hi hcase
  have hres0 := hres hcase (.inl rfl)
  exact ⟨t, hexec, units_zero hres0, isfinite_of_f32Value_eq_zero hres0, units_zero hi0,
    isfinite_of_f32Value_eq_zero hi0, congrArg PidUnit.prev hpid⟩

end Sys2Proof.Machine
